-- ==== Sys2Proof/Word.lean ====
section
/-! DEFINITION. The value types of the hardware (spec 00_scope.md R8, R9): the 32-bit descriptor word, the
byte, the 16-bit sample. Their plain arithmetic is `BitVec`'s own. -/

namespace Sys2Proof

/-- A descriptor or response word: a value 0 to 2^32-1, bit 31 the most significant (30_encoding R80, R92). -/
abbrev Word := BitVec 32

/-- A byte: an integer 0 to 255 (00_scope R9). -/
abbrev Byte := BitVec 8

/-- An element of the result space SMP: 16 bits unsigned, smaller depths zero-extended (10_state R31). -/
abbrev Sample := BitVec 16

end Sys2Proof
end

