-- ==== Sys2Proof/Config.lean ====
section
/-! DEFINITION. What is fixed for this hardware: the closed enumeration of bit depths (spec 00_scope.md R8), and
the values this model names where the spec gives a register none at reset (log 2). The hardware has no free value:
no rule leaves a result open (40_unfilter R127, 41_unpack R160). The parameters `N_CORES`, `PORT_BINDING`, `LATENCY`
and `SPACE_BINDING` stay open in the spec and no rule depends on them (logs 17 and 18). -/

namespace Sys2Proof

/-- The legal bit depths, a closed enumeration (00_scope R8, 30_encoding R85). -/
abbrev Config.bitDepths : List Nat := [1, 2, 4, 8, 16]

/-- DESIGN CHOICE (log 2, unsafe): what every bit of the descriptor latch holds after reset. The spec calls these
values unspecified and unread (10_state R35). -/
abbrev Config.resetLatchBit : Nat := 0

/-- DESIGN CHOICE (log 2, unsafe): the index counter after reset, unspecified and unread in the spec (10_state R35). -/
abbrev Config.resetIndex : Nat := 0

/-- DESIGN CHOICE (log 2, unsafe): the predictor register file after reset, unspecified and unread in the spec
(10_state R35): no entry, as no command has given it its `bpp` entries. -/
abbrev Config.resetLeft : List Byte := []

end Sys2Proof
end

