-- ==== Sys2Proof/Syntax.lean ====
section
/-! DEFINITION. The command set of spec 30_encoding.md: the four-word descriptor (R80), its fields (R81, R82), the
error kinds (60_exceptions.md R190) and the fourteen commands (R95), one constructor for each row of the opcode table. -/

namespace Sys2Proof

/-- A command as the HOST presents it: four 32-bit words, delivered as words, so with no byte order
(30_encoding R80, 20_memory R58). -/
structure Descriptor where
  w0 : Word
  w1 : Word
  w2 : Word
  w3 : Word
  deriving DecidableEq, Repr

/-- The fields the core copies at acceptance (10_state R22): the widths are the spec's. -/
structure Latch where
  opc  : BitVec 4
  sel  : BitVec 8
  bpp  : BitVec 16
  lenA : BitVec 32
  lenB : BitVec 32
  lenC : BitVec 32
  deriving DecidableEq, Repr

/-- The five error kinds (60_exceptions R190). -/
inductive ErrorKind where
  | invalidStride
  | lengthMismatch
  | unsupportedBitDepth
  | unknownFilterType
  | illegalCommand
  deriving DecidableEq, Repr

/-- What a command ends with: six values, since codes 6 and 7 are never sent (30_encoding R92). -/
inductive Status where
  | ok
  | error (kind : ErrorKind)
  deriving DecidableEq, Repr

/-- The operands of a command after assembly (30_encoding R87): `bpp` is `sext_16(BPP)`, an integer; the lengths are
counts of bytes. A command carries all four, also those it ignores (R90), because the core latches them all
(10_state R22). -/
structure Operands where
  bpp  : Int
  lenA : Nat
  lenB : Nat
  lenC : Nat
  deriving DecidableEq, Repr

/-- The fourteen commands (30_encoding R95). -/
inductive Instr where
  /-- `UNF.NONE`, 40_unfilter R116. -/
  | unfNone (o : Operands)
  /-- `UNF.SUB`, 40_unfilter R117. -/
  | unfSub (o : Operands)
  /-- `UNF.UP`, 40_unfilter R118. -/
  | unfUp (o : Operands)
  /-- `UNF.AVG`, 40_unfilter R119. -/
  | unfAvg (o : Operands)
  /-- `UNF.PAETH`, 40_unfilter R120. -/
  | unfPaeth (o : Operands)
  /-- `UNP.1`, 41_unpack R156. -/
  | unp1 (o : Operands)
  /-- `UNP.2`, 41_unpack R155. -/
  | unp2 (o : Operands)
  /-- `UNP.4`, 41_unpack R154. -/
  | unp4 (o : Operands)
  /-- `UNP.8`, 41_unpack R152. -/
  | unp8 (o : Operands)
  /-- `UNP.16`, 41_unpack R153. -/
  | unp16 (o : Operands)
  /-- `ADDB`, 42_helpers R172. -/
  | addb (o : Operands)
  /-- `SUBB`, 42_helpers R173. -/
  | subb (o : Operands)
  /-- `AVGB`, 42_helpers R174. -/
  | avgb (o : Operands)
  /-- `PAETHB`, 42_helpers R175. -/
  | paethb (o : Operands)
  deriving DecidableEq, Repr

/-- The operands a command carries. -/
def Instr.operands : Instr → Operands
  | .unfNone o => o
  | .unfSub o => o
  | .unfUp o => o
  | .unfAvg o => o
  | .unfPaeth o => o
  | .unp1 o => o
  | .unp2 o => o
  | .unp4 o => o
  | .unp8 o => o
  | .unp16 o => o
  | .addb o => o
  | .subb o => o
  | .avgb o => o
  | .paethb o => o

end Sys2Proof
end

