-- ==== Sys2Proof/WellFormed.lean ====
section
/-! DEFINITION. Which commands can be written as a descriptor: each operand lies in the range of its field
(spec 30_encoding.md R81, R82, R87; 93_implementation_defined.md U14). Whether a command that can be written is VALID
is not asked here: that is the core's own check at acceptance, and its failure is an error response (60_exceptions R196). -/

namespace Sys2Proof

/-- The operands fit their fields: BPP 16 bits two's complement, the lengths 32 bits unsigned
(00_scope R8). -/
abbrev Operands.WellFormed (o : Operands) : Prop :=
  (-32768 ≤ o.bpp ∧ o.bpp ≤ 32767) ∧ o.lenA < 4294967296 ∧ o.lenB < 4294967296 ∧ o.lenC < 4294967296

/-- A command is well formed when its operands fit their fields. -/
abbrev Instr.WellFormed (i : Instr) : Prop := i.operands.WellFormed

end Sys2Proof
end

