-- ==== Sys2Proof/Decode.lean ====
section
/-! DEFINITION. Decoding a descriptor (spec 30_encoding.md R88, R89) and encoding a command (R81, R82, R95). Decoding is
a total function of the four words: it yields a command or the error kind that names the rejection. -/

namespace Sys2Proof

/-- The reserved field RSV, W0[7:4] (30_encoding R81). -/
def Descriptor.rsv (d : Descriptor) : BitVec 4 := d.w0.extractLsb' 4 4

/-- The fields of a descriptor, by the layout of 30_encoding R81 and R82. -/
def Descriptor.latch (d : Descriptor) : Latch where
  opc  := d.w0.extractLsb' 0 4
  sel  := d.w0.extractLsb' 8 8
  bpp  := d.w0.extractLsb' 16 16
  lenA := d.w1
  lenB := d.w2
  lenC := d.w3

/-- Operand assembly (30_encoding R87): `bpp = sext_16(BPP)`, the lengths zero-extended. -/
def Latch.operands (l : Latch) : Operands where
  bpp  := l.bpp.toInt
  lenA := l.lenA.toNat
  lenB := l.lenB.toNat
  lenC := l.lenC.toNat

/-- Format UNF: SEL is the filter-type tag (30_encoding R84). -/
def decodeUnfilter (sel : Nat) (o : Operands) : Except ErrorKind Instr :=
  if sel = 0 then .ok (.unfNone o)
  else if sel = 1 then .ok (.unfSub o)
  else if sel = 2 then .ok (.unfUp o)
  else if sel = 3 then .ok (.unfAvg o)
  else if sel = 4 then .ok (.unfPaeth o)
  else .error .unknownFilterType

/-- Format UNP: SEL is the bit depth itself (30_encoding R85). -/
def decodeUnpack (sel : Nat) (o : Operands) : Except ErrorKind Instr :=
  if sel = 1 then .ok (.unp1 o)
  else if sel = 2 then .ok (.unp2 o)
  else if sel = 4 then .ok (.unp4 o)
  else if sel = 8 then .ok (.unp8 o)
  else if sel = 16 then .ok (.unp16 o)
  else .error .unsupportedBitDepth

/-- Format HLP: SEL is the function code (30_encoding R86). -/
def decodeHelper (sel : Nat) (o : Operands) : Except ErrorKind Instr :=
  if sel = 0 then .ok (.addb o)
  else if sel = 1 then .ok (.subb o)
  else if sel = 2 then .ok (.avgb o)
  else if sel = 3 then .ok (.paethb o)
  else .error .illegalCommand

/-- The command that latched fields select, by class (30_encoding R83, R88 after the check of RSV). -/
def decodeLatch (l : Latch) : Except ErrorKind Instr :=
  if l.opc = 1#4 then decodeUnfilter l.sel.toNat l.operands
  else if l.opc = 2#4 then decodeUnpack l.sel.toNat l.operands
  else if l.opc = 3#4 then decodeHelper l.sel.toNat l.operands
  else .error .illegalCommand

/-- Decoding (30_encoding R88): the check of RSV comes before everything else. -/
def decode (d : Descriptor) : Except ErrorKind Instr :=
  if d.rsv = 0#4 then decodeLatch d.latch else .error .illegalCommand

/-- The class code OPC of a command (30_encoding R83). -/
def Instr.opcField : Instr → BitVec 4
  | .unfNone _ => 1
  | .unfSub _ => 1
  | .unfUp _ => 1
  | .unfAvg _ => 1
  | .unfPaeth _ => 1
  | .unp1 _ => 2
  | .unp2 _ => 2
  | .unp4 _ => 2
  | .unp8 _ => 2
  | .unp16 _ => 2
  | .addb _ => 3
  | .subb _ => 3
  | .avgb _ => 3
  | .paethb _ => 3

/-- The selector SEL of a command (30_encoding R84 to R86). -/
def Instr.selField : Instr → BitVec 8
  | .unfNone _ => 0
  | .unfSub _ => 1
  | .unfUp _ => 2
  | .unfAvg _ => 3
  | .unfPaeth _ => 4
  | .unp1 _ => 1
  | .unp2 _ => 2
  | .unp4 _ => 4
  | .unp8 _ => 8
  | .unp16 _ => 16
  | .addb _ => 0
  | .subb _ => 1
  | .avgb _ => 2
  | .paethb _ => 3

/-- The fields of a command's descriptor, which are what acceptance copies into the latch (10_state R22). -/
def Instr.latch (i : Instr) : Latch where
  opc  := i.opcField
  sel  := i.selField
  bpp  := BitVec.ofInt 16 i.operands.bpp
  lenA := BitVec.ofNat 32 i.operands.lenA
  lenB := BitVec.ofNat 32 i.operands.lenB
  lenC := BitVec.ofNat 32 i.operands.lenC

/-- The descriptor with given fields and RSV = 0 (30_encoding R81, R82). -/
def Latch.descriptor (l : Latch) : Descriptor where
  w0 := l.bpp ++ (l.sel ++ (0#4 ++ l.opc))
  w1 := l.lenA
  w2 := l.lenB
  w3 := l.lenC

/-- The four words of a command (30_encoding R81, R82, R95). -/
def encode (i : Instr) : Descriptor := i.latch.descriptor

/-- The descriptor whose words are the 32-bit groups of a number, W0 the least significant: the numbering of
`spec/opcode_table.json`, whose rows give W0 and leave W1 to W3 to the operands. -/
def Descriptor.ofNat (w : Nat) : Descriptor where
  w0 := BitVec.ofNat 32 w
  w1 := BitVec.ofNat 32 (w / 2 ^ 32)
  w2 := BitVec.ofNat 32 (w / 2 ^ 64)
  w3 := BitVec.ofNat 32 (w / 2 ^ 96)

/-- The descriptor of an instruction given by its first `nbits` bits, every bit above them 0. -/
def Descriptor.ofBits (nbits w : Nat) : Descriptor := Descriptor.ofNat (w % 2 ^ nbits)

/-- What the decoder reads from an instruction of `nbits` bits: none where it rejects. -/
def decodeTableWord (nbits w : Nat) : Option Instr :=
  match decode (Descriptor.ofBits nbits w) with
  | .ok i => some i
  | .error _ => none

end Sys2Proof
end

