-- ==== Sys2Proof/Machine/State.lean ====
section
/-! DEFINITION. The state of one CORE instance (spec 10_state.md R20) with the launch memory, the channels and the
HOST's pending actions beside it, the reasons a step can stop, and the state after reset (R35). Plain data throughout. -/

namespace Sys2Proof.Machine

/-- The two values of PHASE (10_state R21). -/
inductive Phase where
  /-- No command is in progress. -/
  | idle
  /-- A command that passed validation is in progress. -/
  | run
  deriving DecidableEq, Repr

/-- The three operand spaces (10_state R29, 20_memory R50). -/
inductive OperandSpace where
  | a
  | b
  | c
  deriving DecidableEq, Repr

/-- What the HOST can do to the instance and its spaces (00_scope R7); a list of these in `State` says what it does
next (log 10). -/
inductive HostAction where
  /-- Present a descriptor on the command channel (30_encoding R80, 70_reset R237). -/
  | present (d : Descriptor)
  /-- Store words in the HOST's copy of the descriptor of the command accepted last (20_memory R64, R67; log 23). -/
  | changeWords (d : Descriptor)
  /-- Fill an operand space with a byte sequence, index 0 first (10_state R29). -/
  | supply (space : OperandSpace) (bytes : List Byte)
  /-- Pass the OUT of a finished command as an operand of a later one (20_memory R70). -/
  | reuseOut (space : OperandSpace)
  /-- Wait for a response and take it (10_state R28, 20_memory R65). -/
  | await
  /-- Read an element of OUT (10_state R37). -/
  | readOut (index : Nat)
  /-- Read an element of SMP (10_state R37). -/
  | readSmp (index : Nat)
  /-- Assert the reset input (70_reset R230). -/
  | assertReset
  /-- Release the reset input (70_reset R230). -/
  | releaseReset
  /-- Let the core take one step. -/
  | yield
  deriving DecidableEq, Repr

/-- Elements of an index space: (index, value) pairs, the indices strictly rising. An index that is not listed has
no value (10_state R37; log 4), so the form is canonical and equal spaces are equal lists. -/
abbrev Memory (width : Nat) := List (Nat × BitVec width)

/-- The state. Its first four fields are the closed list of 10_state R20; the rest is the launch memory and the
response channel which that rule places beside the instance, the two inputs of the core (command channel, reset), and
the HOST's side. -/
structure State where
  /-- PHASE (10_state R21). -/
  phase : Phase
  /-- The descriptor latch: OPC, SEL, BPP, LEN_A, LEN_B, LEN_C (10_state R22). -/
  latch : Latch
  /-- `i`, the index counter (10_state R23). -/
  idx : Nat
  /-- `left`, the predictor register file (10_state R25). -/
  left : List Byte
  /-- Operand space A (10_state R29). -/
  spaceA : List Host.Cell
  /-- Operand space B (10_state R29). -/
  spaceB : List Host.Cell
  /-- Operand space C (10_state R29). -/
  spaceC : List Host.Cell
  /-- Result space OUT (10_state R30). -/
  out : List Host.Cell
  /-- Result space SMP (10_state R31). -/
  smp : List (Nat × BitVec 16)
  /-- The response channel: status words sent and not yet taken, oldest first (10_state R28). -/
  responses : List Word
  /-- The command channel: descriptors presented and not yet accepted, oldest first (70_reset R237). -/
  commands : List Descriptor
  /-- The reset input: true while it is asserted (70_reset R230). -/
  rst : Bool
  /-- The HOST's pending actions, next first (00_scope R7; log 10). -/
  script : List HostAction
  /-- Status words the HOST has taken, oldest first (10_state R28; log 12). -/
  received : List Word
  /-- `some n` when OUT holds the whole result of a command that ended OK and that OK is the n-th status word the HOST
  takes (20_memory R65; log 14). -/
  outReady : Option Nat
  deriving DecidableEq, Repr

/-- The faults of the model. None is an error of the hardware: those are responses (60_exceptions R190). -/
inductive Fault where
  /-- A byte step reads an operand at an index that is not below the space's length (20_memory R51). Raised by the
  operand reads; unreachable from reset. Safe. -/
  | operandOutOfRange (space : OperandSpace) (index : Nat)
  /-- A byte step reads an operand element the HOST never supplied (log 4). Raised by the operand reads. Safe. -/
  | operandNotSupplied (space : OperandSpace) (index : Nat)
  /-- A byte step reads a predictor entry that is not there (10_state R25; log 20). Raised by the read of `left`;
  unreachable from reset. Safe. -/
  | leftOutOfRange (index : Nat)
  /-- PHASE is RUN and `i` exceeds LEN_A, so no step is enabled (10_state R23, 70_reset R241; log 20). Raised by every
  meaning; unreachable from reset. Safe. -/
  | indexPastEnd
  /-- PHASE is RUN and the latch holds no command (log 20). Raised by the core's step; unreachable from reset. Safe. -/
  | corruptLatch
  /-- The HOST reads a result element the core has not written (10_state R37). Raised by the HOST's reads. Safe. -/
  | unwrittenResult (index : Nat)
  deriving DecidableEq, Repr

/-- The refusals of the model: runs the spec gives no meaning. -/
inductive Refusal where
  /-- No meaning yet for the instruction. Raised by no arm at present. Safe. -/
  | notModelled (mnemonic : String)
  /-- The HOST changes an operand space that the running command uses (20_memory R64, U9; log 13). Raised by the
  HOST's `supply` and `reuseOut`. Safe. -/
  | operandChanged (space : OperandSpace)
  /-- The HOST changes its copy of the descriptor words of the running command (20_memory R64, U9; log 23). Raised by the
  HOST's `changeWords`. Safe. -/
  | descriptorChanged
  /-- The HOST uses OUT as an operand while it does not hold the result of a command whose OK response it has taken
  (20_memory R65, R70, U8; log 14). Raised by the HOST's `reuseOut`. Safe. -/
  | resultNotReady
  deriving DecidableEq, Repr

/-- The latch after reset (10_state R35 leaves it unspecified; DESIGN CHOICE, log 2). -/
def resetLatch : Latch where
  opc  := BitVec.ofNat 4 Config.resetLatchBit
  sel  := BitVec.ofNat 8 Config.resetLatchBit
  bpp  := BitVec.ofNat 16 Config.resetLatchBit
  lenA := BitVec.ofNat 32 Config.resetLatchBit
  lenB := BitVec.ofNat 32 Config.resetLatchBit
  lenC := BitVec.ofNat 32 Config.resetLatchBit

/-- The machine right after reset (10_state R35, 70_reset R230): PHASE IDLE, response channel empty, reset released.
The latch, `i` and `left` are unspecified and unread (log 2); the spaces list nothing (log 4); nothing is pending on
the command channel (log 9) or at the HOST (logs 10, 12, 14). -/
def State.reset : State where
  phase := .idle
  latch := resetLatch
  idx := Config.resetIndex
  left := Config.resetLeft
  spaceA := []
  spaceB := []
  spaceC := []
  out := []
  smp := []
  responses := []
  commands := []
  rst := false
  script := []
  received := []
  outReady := none

end Sys2Proof.Machine
end

