-- ==== Sys2Proof/Machine/Arith.lean ====
section
/-! DEFINITION. The arithmetic of the engine, the helpers and the unpacker (spec 40_unfilter.md R115, R121; 42_helpers.md
R172 to R175; 41_unpack.md R161). Inner sums are exact integers; only a stored byte is reduced modulo 256 (C3, D33). -/

namespace Sys2Proof.Machine

/-- Addition of two bytes, the stored result reduced modulo 256 (40_unfilter R121, 42_helpers R172). -/
def addByte (x y : Byte) : Byte := BitVec.ofNat 8 ((x.toNat + y.toNat) % 256)

/-- Subtraction of bytes, the least non-negative residue modulo 256 (42_helpers R173). -/
def subByte (x y : Byte) : Byte := BitVec.ofInt 8 (((x.toNat : Int) - (y.toNat : Int)) % 256)

/-- The floor average of two bytes: the exact sum, halved (40_unfilter R121, 42_helpers R174). -/
def avgByte (x y : Byte) : Byte := BitVec.ofNat 8 ((x.toNat + y.toNat) / 2)

/-- `p = a + b - c`, an exact signed integer (40_unfilter R115). -/
def paethEstimate (a b c : Byte) : Int := (a.toNat : Int) + (b.toNat : Int) - (c.toNat : Int)

/-- `|p - x|` for a neighbour x (40_unfilter R115). -/
def paethDistance (p : Int) (x : Byte) : Nat := (p - (x.toNat : Int)).natAbs

/-- The Paeth predictor, tie-break order a, then b, then c (40_unfilter R115). -/
def paethPredictor (a b c : Byte) : Byte :=
  let p := paethEstimate a b c
  if paethDistance p a ≤ paethDistance p b ∧ paethDistance p a ≤ paethDistance p c then a
  else if paethDistance p b ≤ paethDistance p c then b
  else c

/-- Sample k of a byte at sub-byte depth d: `(v >> (8 - d(k + 1))) & (2^d - 1)` (41_unpack R161), zero-extended
(10_state R31). -/
def subByteSample (d : Nat) (v : Byte) (k : Nat) : Sample :=
  BitVec.ofNat 16 (v.toNat >>> (8 - d * (k + 1)) &&& (2 ^ d - 1))

/-- The samples of one byte at sub-byte depth d, most significant first (41_unpack R161, 20_memory R55). -/
def subByteSamples (d : Nat) (v : Byte) : List Sample := (List.range (8 / d)).map (subByteSample d v)

/-- The sample of one byte at depth 8: its value (41_unpack R152). -/
def byteSample (v : Byte) : Sample := BitVec.ofNat 16 v.toNat

/-- The big-endian sample of two bytes at depth 16 (41_unpack R153, 20_memory R54). -/
def pairSample (hi lo : Byte) : Sample := BitVec.ofNat 16 ((hi.toNat <<< 8) ||| lo.toNat)

end Sys2Proof.Machine
end

