-- ==== Sys2Proof/Machine/Flags.lean ====
section
/-! DEFINITION. The hardware has no flags, condition codes or predicates (spec 10_state.md R27): no operation records a
carry, a borrow, an overflow, a zero or a sign. The one outcome of a command beside its result is the status code of its
response (10_state R28, 30_encoding R92), which is defined here. -/

namespace Sys2Proof.Machine

/-- The code of an error kind (60_exceptions R190). -/
def errorCode : ErrorKind → BitVec 3
  | .invalidStride => 1
  | .lengthMismatch => 2
  | .unsupportedBitDepth => 3
  | .unknownFilterType => 4
  | .illegalCommand => 5

/-- The status code of a response (30_encoding R92). -/
def statusCode : Status → BitVec 3
  | .ok => 0
  | .error k => errorCode k

/-- The response word: bits 2:0 the status code, bits 31:3 zero (30_encoding R92). -/
def statusWord (st : Status) : Word := (statusCode st).setWidth 32

end Sys2Proof.Machine
end

