-- ==== Sys2Proof/Machine/Ops.lean ====
section
/-! DEFINITION. The shared operations: index spaces (spec 20_memory.md R51, R53), responses and error delivery
(60_exceptions.md R197), acceptance, start and completion (40_unfilter.md R112, R122; 41_unpack.md R161; 42_helpers.md
R170), the reset input (70_reset_and_hazards.md R230). -/

namespace Sys2Proof.Machine

/-! ## Index spaces -/

/-- The element at an index, if one is listed (20_memory R51; log 4). -/
def Memory.read {w : Nat} : Memory w → Nat → Option (BitVec w)
  | [], _ => none
  | (k, v) :: m, n => if n = k then some v else Memory.read m n

/-- Store an element at an index, keeping the indices strictly rising (20_memory R53). -/
def Memory.write {w : Nat} : Memory w → Nat → BitVec w → Memory w
  | [], n, x => [(n, x)]
  | (k, v) :: m, n, x =>
    if n < k then (n, x) :: (k, v) :: m
    else if n = k then (n, x) :: m
    else (k, v) :: Memory.write m n x

/-- Every index is at least `lo` and they rise strictly. -/
def Memory.risingFrom {w : Nat} : Nat → Memory w → Bool
  | _, [] => true
  | lo, (k, _) :: m => decide (lo ≤ k) && Memory.risingFrom (k + 1) m

/-- The canonical form: the indices rise strictly. There is no value an unlisted index reads as, so no entry is
superfluous (log 4). -/
def Memory.wf {w : Nat} (m : Memory w) : Bool := Memory.risingFrom 0 m

/-- Store a sequence at consecutive indices from k, in ascending order (20_memory R53). -/
def Memory.writeFrom {w : Nat} : Memory w → Nat → List (BitVec w) → Memory w
  | m, _, [] => m
  | m, k, x :: xs => Memory.writeFrom (m.write k x) (k + 1) xs

/-- A byte sequence as an index space, its first element at index 0 (20_memory R50). -/
def Memory.ofList {w : Nat} (xs : List (BitVec w)) : Memory w := Memory.writeFrom [] 0 xs

/-! ## Responses and error delivery -/

/-- Send a response (10_state R28, 30_encoding R92). -/
def respond (st : Status) (s : State) : State := { s with responses := s.responses ++ [statusWord st] }

/-- Error delivery, the hardware's "trap entry" (60_exceptions R197): the response is the only effect. PHASE, latch,
`i`, `left` and the result spaces stay as they are (log 7). -/
def raiseError (k : ErrorKind) (s : State) : State := respond (.error k) s

/-! ## Acceptance and start -/

/-- Acceptance of a valid command: copy the fields into the latch, enter RUN with `i = 0` (10_state R22, R23,
40_unfilter R112, 41_unpack R161, 42_helpers R170). -/
def enterRun (l : Latch) (s : State) : State := { s with phase := .run, latch := l, idx := 0 }

/-- The command takes OUT as its result space, with no element written (10_state R37; log 5). -/
def openOut (s : State) : State := { s with out := [], outReady := none }

/-- The command takes SMP as its result space, with no element written (10_state R37; log 5). -/
def openSmp (s : State) : State := { s with smp := [] }

/-- `left[r] <- 0` for every r in [0..bpp) (40_unfilter R112; log 6). -/
def clearLeft (s : State) : State := { s with left := List.replicate s.latch.bpp.toInt.toNat 0 }

/-- Start of UNF.NONE and UNF.UP, and of an HLP command: result OUT, no predictor entry touched (40_unfilter R112,
42_helpers R170; log 6). -/
def startOut (l : Latch) (s : State) : State := openOut (enterRun l s)

/-- Start of UNF.SUB, UNF.AVG and UNF.PAETH: result OUT and the predictor entries set to 0 (40_unfilter R112). -/
def startOutLeft (l : Latch) (s : State) : State := clearLeft (openOut (enterRun l s))

/-- Start of an UNP command: result SMP (41_unpack R161). -/
def startSmp (l : Latch) (s : State) : State := openSmp (enterRun l s)

/-! ## Byte steps and completion -/

/-- `OUT[i] <- y; i <- i + 1` (40_unfilter R113, 42_helpers R170). -/
def emitByte (y : Byte) (s : State) : State := { s with out := Memory.write s.out s.idx y, idx := s.idx + 1 }

/-- `left[j] <- y` (40_unfilter R113). -/
def setLeft (j : Nat) (y : Byte) (s : State) : State := { s with left := s.left.set j y }

/-- Write samples to SMP from index k on, then `i <- i + n` (41_unpack R161). -/
def emitSamples (k : Nat) (xs : List Sample) (n : Nat) (s : State) : State :=
  { s with smp := Memory.writeFrom s.smp k xs, idx := s.idx + n }

/-- Completion: `respond OK; PHASE <- IDLE` (40_unfilter R122, 41_unpack R161, 42_helpers R170). -/
def complete (s : State) : State := { respond .ok s with phase := .idle }

/-- Completion of a command whose result is OUT: OUT now holds the whole result, and its OK comes after the status words
sent before it (20_memory R65; log 14). -/
def completeOut (s : State) : State :=
  { complete s with outReady := some (s.received.length + s.responses.length + 1) }

/-- The HOST has taken the OK of the command whose whole result OUT holds (20_memory R65; log 14). -/
def resultTaken (s : State) : Bool :=
  match s.outReady with
  | some n => decide (n ≤ s.received.length)
  | none => false

/-- One transition of a command (10_state R21, 70_reset R241; log 1). In IDLE: acceptance, which validates and then
starts the command or delivers the error. In RUN, when the latch holds this command: its byte step while `i < LEN_A`,
its completion at `i = LEN_A`. In RUN when another command is in progress: nothing, the command is held (70_reset R237;
log 11). -/
def runCommand (l : Latch) (valid : Option ErrorKind) (start : Latch → State → State)
    (byteStep : State → Host.Outcome State Fault Refusal) (finish : State → State) (s : State) :
    Host.Outcome State Fault Refusal :=
  match s.phase with
  | .idle =>
    match valid with
    | some k => .next (raiseError k s)
    | none => .next (start l s)
  | .run =>
    if s.latch = l then
      if s.idx < s.latch.lenA.toNat then byteStep s
      else if s.idx = s.latch.lenA.toNat then .next (finish s)
      else .fault .indexPastEnd
    else .next s

/-! ## Reset -/

/-- Assertion of the reset input (70_reset R230, R232, 10_state R35): PHASE IDLE, response channel empty, the
operand and result spaces not touched. The latch, `i` and `left` become unspecified and unread: they take the values
`State.reset` names (log 2). The command channel is kept (log 9). An OK response that is lost in this way leaves OUT
not ready for reuse (20_memory R65; log 14). -/
def assertReset (s : State) : State :=
  { s with
    phase := .idle, latch := resetLatch, idx := Config.resetIndex, left := Config.resetLeft
    responses := [], rst := true, outReady := if resultTaken s = true then s.outReady else none }

/-- Release of the reset input: the core's next step is the acceptance of a command (70_reset R230). -/
def releaseReset (s : State) : State := { s with rst := false }

end Sys2Proof.Machine
end

