-- ==== Sys2Proof/Machine/Operands.lean ====
section
/-! DEFINITION. Operand forms: reads of the operand spaces (spec 20_memory.md R51, R52), the three neighbours of the engine
(40_unfilter.md R114), and the validation of each command class (40_unfilter.md R111, 41_unpack.md R151, 42_helpers.md
R171). -/

namespace Sys2Proof.Machine

/-- The elements of an operand space. -/
def operandMemory (s : State) : OperandSpace → List Host.Cell
  | .a => s.spaceA
  | .b => s.spaceB
  | .c => s.spaceC

/-- The length of an operand space: its descriptor field (10_state R29). -/
def operandLength (l : Latch) : OperandSpace → Nat
  | .a => l.lenA.toNat
  | .b => l.lenB.toNat
  | .c => l.lenC.toNat

/-- `MemRead(S, k, 1)`, defined only for k below the length (20_memory R51); an element nobody supplied has no value
(log 4). -/
def readOperand (space : OperandSpace) (k : Nat) (s : State) : Except Fault Byte :=
  if k < operandLength s.latch space then
    match Memory.read (operandMemory s space) k with
    | some x => .ok x
    | none => .error (.operandNotSupplied space k)
  else .error (.operandOutOfRange space k)

/-- `bpp = sext_16(BPP)` as the engine uses it while RUN, where it is positive (40_unfilter R111, R113). -/
def stride (s : State) : Nat := s.latch.bpp.toInt.toNat

/-- `j = i mod bpp` (10_state R24). -/
def strideIndex (s : State) : Nat := s.idx % stride s

/-- The left neighbour `a = left[j]` (40_unfilter R114). -/
def readLeft (s : State) : Except Fault Byte :=
  match s.left[strideIndex s]? with
  | some x => .ok x
  | none => .error (.leftOutOfRange (strideIndex s))

/-- The upper-left neighbour: `B[i - bpp]` when `i - bpp ≥ 0`, else the constant 0 with no access (20_memory R52). The
guard is on the sign of the integer difference. -/
def readUpperLeft (s : State) : Except Fault Byte :=
  if 0 ≤ (s.idx : Int) - (stride s : Int) then readOperand .b (s.idx - stride s) s else .ok 0

/-- Go on with a byte that was read, or stop with the fault of the read. -/
def withByte (r : Except Fault Byte) (go : Byte → Host.Outcome State Fault Refusal) :
    Host.Outcome State Fault Refusal :=
  match r with
  | .ok x => go x
  | .error e => .fault e

/-- Validation of an UNF command (40_unfilter R111). `needsRow` holds for tags 1, 3 and 4. -/
def validateUnfilter (needsRow : Bool) (l : Latch) : Option ErrorKind :=
  if l.bpp.toInt ≤ 0 then some .invalidStride
  else if l.lenB ≠ l.lenA then some .lengthMismatch
  else if needsRow = true ∧ l.lenA = 0#32 then some .invalidStride
  else none

/-- Validation of an UNP command at depths 1, 2, 4, 8: nothing beyond decode (41_unpack R151). -/
def validateUnpack (_l : Latch) : Option ErrorKind := none

/-- Validation of UNP.16: an odd LEN_A is an IllegalCommand (41_unpack R151, 20_memory R57). -/
def validateUnpack16 (l : Latch) : Option ErrorKind :=
  if l.lenA.toNat % 2 = 1 then some .illegalCommand else none

/-- Validation of ADDB, SUBB and AVGB (42_helpers R171). -/
def validateHelper (l : Latch) : Option ErrorKind :=
  if l.lenB ≠ l.lenA then some .lengthMismatch else none

/-- Validation of PAETHB (42_helpers R171). -/
def validateHelper3 (l : Latch) : Option ErrorKind :=
  if l.lenB ≠ l.lenA then some .lengthMismatch
  else if l.lenC ≠ l.lenA then some .lengthMismatch
  else none

/-- Whether a command with these fields uses an operand space (10_state R29). -/
def usesSpace (l : Latch) : OperandSpace → Bool
  | .a => true
  | .b => l.opc ≠ 2#4
  | .c => l.opc = 3#4 ∧ l.sel = 3#8

end Sys2Proof.Machine
end

