-- ==== Sys2Proof/Machine/Helpers.lean ====
section
/-! DEFINITION. The byte-arithmetic helpers (spec 42_helpers.md): the step R170 and the four meanings R172 to R175. They
have no stride and no `left`. Flags: none (10_state R27). -/

namespace Sys2Proof.Machine

/-- The step of a two-operand helper: `OUT[i] <- f(A[i], B[i])` (42_helpers R170). -/
def helperStep (f : Byte → Byte → Byte) (s : State) : Host.Outcome State Fault Refusal :=
  withByte (readOperand .a s.idx s) fun a =>
  withByte (readOperand .b s.idx s) fun b =>
  .next (emitByte (f a b) s)

/-- The step of PAETHB: `OUT[i] <- PaethPredictor(A[i], B[i], C[i])` (42_helpers R170, R175). -/
def helperPaethStep (s : State) : Host.Outcome State Fault Refusal :=
  withByte (readOperand .a s.idx s) fun a =>
  withByte (readOperand .b s.idx s) fun b =>
  withByte (readOperand .c s.idx s) fun c =>
  .next (emitByte (paethPredictor a b c) s)

/-- `ADDB` (42_helpers R172): the carry out of bit 7 is discarded. -/
def execAddb (o : Operands) (s : State) : Host.Outcome State Fault Refusal :=
  let l := (Instr.addb o).latch
  runCommand l (validateHelper l) startOut (helperStep addByte) completeOut s

/-- `SUBB` (42_helpers R173, D20): A is the minuend; the borrow is discarded. -/
def execSubb (o : Operands) (s : State) : Host.Outcome State Fault Refusal :=
  let l := (Instr.subb o).latch
  runCommand l (validateHelper l) startOut (helperStep subByte) completeOut s

/-- `AVGB` (42_helpers R174, D21): the predictor alone, no row added. -/
def execAvgb (o : Operands) (s : State) : Host.Outcome State Fault Refusal :=
  let l := (Instr.avgb o).latch
  runCommand l (validateHelper l) startOut (helperStep avgByte) completeOut s

/-- `PAETHB` (42_helpers R175, D21): the selected neighbour alone, no row added. -/
def execPaethb (o : Operands) (s : State) : Host.Outcome State Fault Refusal :=
  let l := (Instr.paethb o).latch
  runCommand l (validateHelper3 l) startOut helperPaethStep completeOut s

end Sys2Proof.Machine
end

