-- ==== Sys2Proof/Machine/Unfilter.lean ====
section
/-! DEFINITION. The Unfilter Engine (spec 40_unfilter.md): the byte step R113 with each command's predictor, and the five
meanings R116 to R120. Flags: none (10_state R27). -/

namespace Sys2Proof.Machine

/-- The byte step of UNF.NONE: `pred = 0`; B and `left` are not read (40_unfilter R113, R116). -/
def unfNoneStep (s : State) : Host.Outcome State Fault Refusal :=
  withByte (readOperand .a s.idx s) fun x => .next (emitByte (addByte x 0) s)

/-- The byte step of UNF.SUB: `pred = a = left[j]`; B is not read (40_unfilter R113, R117). -/
def unfSubStep (s : State) : Host.Outcome State Fault Refusal :=
  withByte (readOperand .a s.idx s) fun x =>
  withByte (readLeft s) fun a =>
  .next (emitByte (addByte x a) (setLeft (strideIndex s) (addByte x a) s))

/-- The byte step of UNF.UP: `pred = b = B[i]`; `left` is not touched (40_unfilter R113, R118). -/
def unfUpStep (s : State) : Host.Outcome State Fault Refusal :=
  withByte (readOperand .a s.idx s) fun x =>
  withByte (readOperand .b s.idx s) fun b =>
  .next (emitByte (addByte x b) s)

/-- The byte step of UNF.AVG: `pred = floor((a + b) / 2)` (40_unfilter R113, R119). -/
def unfAvgStep (s : State) : Host.Outcome State Fault Refusal :=
  withByte (readOperand .a s.idx s) fun x =>
  withByte (readLeft s) fun a =>
  withByte (readOperand .b s.idx s) fun b =>
  .next (emitByte (addByte x (avgByte a b)) (setLeft (strideIndex s) (addByte x (avgByte a b)) s))

/-- The byte step of UNF.PAETH: `pred = PaethPredictor(a, b, c)` (40_unfilter R113, R120). -/
def unfPaethStep (s : State) : Host.Outcome State Fault Refusal :=
  withByte (readOperand .a s.idx s) fun x =>
  withByte (readLeft s) fun a =>
  withByte (readOperand .b s.idx s) fun b =>
  withByte (readUpperLeft s) fun c =>
  .next (emitByte (addByte x (paethPredictor a b c)) (setLeft (strideIndex s) (addByte x (paethPredictor a b c)) s))

/-- `UNF.NONE` (40_unfilter R116): the identity, once bpp and the lengths pass R111. -/
def execUnfNone (o : Operands) (s : State) : Host.Outcome State Fault Refusal :=
  let l := (Instr.unfNone o).latch
  runCommand l (validateUnfilter false l) startOut unfNoneStep completeOut s

/-- `UNF.SUB` (40_unfilter R117). -/
def execUnfSub (o : Operands) (s : State) : Host.Outcome State Fault Refusal :=
  let l := (Instr.unfSub o).latch
  runCommand l (validateUnfilter true l) startOutLeft unfSubStep completeOut s

/-- `UNF.UP` (40_unfilter R118). -/
def execUnfUp (o : Operands) (s : State) : Host.Outcome State Fault Refusal :=
  let l := (Instr.unfUp o).latch
  runCommand l (validateUnfilter false l) startOut unfUpStep completeOut s

/-- `UNF.AVG` (40_unfilter R119). -/
def execUnfAvg (o : Operands) (s : State) : Host.Outcome State Fault Refusal :=
  let l := (Instr.unfAvg o).latch
  runCommand l (validateUnfilter true l) startOutLeft unfAvgStep completeOut s

/-- `UNF.PAETH` (40_unfilter R120). -/
def execUnfPaeth (o : Operands) (s : State) : Host.Outcome State Fault Refusal :=
  let l := (Instr.unfPaeth o).latch
  runCommand l (validateUnfilter true l) startOutLeft unfPaethStep completeOut s

end Sys2Proof.Machine
end

