-- ==== Sys2Proof/Machine/Unpack.lean ====
section
/-! DEFINITION. The Sample Unpacker (spec 41_unpack.md): the step R161 at each depth and the five meanings R152 to R156.
Flags: none (10_state R27). -/

namespace Sys2Proof.Machine

/-- The step at a sub-byte depth d: the next 8/d samples, from one byte (41_unpack R161). -/
def unpackSubByteStep (d : Nat) (s : State) : Host.Outcome State Fault Refusal :=
  withByte (readOperand .a s.idx s) fun v => .next (emitSamples (s.idx * (8 / d)) (subByteSamples d v) 1 s)

/-- The step at depth 8: one sample, from one byte (41_unpack R161). -/
def unpackByteStep (s : State) : Host.Outcome State Fault Refusal :=
  withByte (readOperand .a s.idx s) fun v => .next (emitSamples s.idx [byteSample v] 1 s)

/-- The step at depth 16: one sample, from one pair of bytes (41_unpack R161, 20_memory R54). -/
def unpackPairStep (s : State) : Host.Outcome State Fault Refusal :=
  withByte (readOperand .a s.idx s) fun hi =>
  withByte (readOperand .a (s.idx + 1) s) fun lo =>
  .next (emitSamples (s.idx / 2) [pairSample hi lo] 2 s)

/-- `UNP.1` (41_unpack R156). -/
def execUnp1 (o : Operands) (s : State) : Host.Outcome State Fault Refusal :=
  let l := (Instr.unp1 o).latch
  runCommand l (validateUnpack l) startSmp (unpackSubByteStep 1) complete s

/-- `UNP.2` (41_unpack R155). -/
def execUnp2 (o : Operands) (s : State) : Host.Outcome State Fault Refusal :=
  let l := (Instr.unp2 o).latch
  runCommand l (validateUnpack l) startSmp (unpackSubByteStep 2) complete s

/-- `UNP.4` (41_unpack R154). -/
def execUnp4 (o : Operands) (s : State) : Host.Outcome State Fault Refusal :=
  let l := (Instr.unp4 o).latch
  runCommand l (validateUnpack l) startSmp (unpackSubByteStep 4) complete s

/-- `UNP.8` (41_unpack R152). -/
def execUnp8 (o : Operands) (s : State) : Host.Outcome State Fault Refusal :=
  let l := (Instr.unp8 o).latch
  runCommand l (validateUnpack l) startSmp unpackByteStep complete s

/-- `UNP.16` (41_unpack R153). -/
def execUnp16 (o : Operands) (s : State) : Host.Outcome State Fault Refusal :=
  let l := (Instr.unp16 o).latch
  runCommand l (validateUnpack16 l) startSmp unpackPairStep complete s

end Sys2Proof.Machine
end

