-- ==== Sys2Proof/Machine/Dispatch.lean ====
section
/-! DEFINITION. One arm for each command of spec 30_encoding.md R95: exec i s is one transition of command i (log 1). -/

namespace Sys2Proof.Machine

def exec (i : Instr) (s : State) : Host.Outcome State Fault Refusal :=
  match i with
  | .unfNone o => Sys2Proof.Machine.execUnfNone o s
  | .unfSub o => Sys2Proof.Machine.execUnfSub o s
  | .unfUp o => Sys2Proof.Machine.execUnfUp o s
  | .unfAvg o => Sys2Proof.Machine.execUnfAvg o s
  | .unfPaeth o => Sys2Proof.Machine.execUnfPaeth o s
  | .unp1 o => Sys2Proof.Machine.execUnp1 o s
  | .unp2 o => Sys2Proof.Machine.execUnp2 o s
  | .unp4 o => Sys2Proof.Machine.execUnp4 o s
  | .unp8 o => Sys2Proof.Machine.execUnp8 o s
  | .unp16 o => Sys2Proof.Machine.execUnp16 o s
  | .addb o => Sys2Proof.Machine.execAddb o s
  | .subb o => Sys2Proof.Machine.execSubb o s
  | .avgb o => Sys2Proof.Machine.execAvgb o s
  | .paethb o => Sys2Proof.Machine.execPaethb o s

end Sys2Proof.Machine
end

