-- ==== Sys2Proof/Machine/CoreStep.lean ====
section
/-! DEFINITION. One step of the core: acceptance of the next presented command in IDLE, a transition of the latched command
in RUN (spec 10_state.md R21, 70_reset_and_hazards.md R237, R241). -/

namespace Sys2Proof.Machine

/-- The core's step in IDLE (10_state R21, 70_reset R237): the oldest presented descriptor is accepted. A descriptor that
decodes to no command ends in the error response of its kind (30_encoding R89, 60_exceptions R197). With nothing
presented the core stays as it is (log 8). -/
def acceptStep (s : State) : Host.Outcome State Fault Refusal :=
  match s.commands with
  | [] => .next s
  | d :: rest =>
    match decode d with
    | .ok i => exec i { s with commands := rest }
    | .error k => .next (raiseError k { s with commands := rest })

/-- The core's step in RUN: one transition of the latched command, which the core reads from the latch and from nothing
else (10_state R22, 20_memory R67). -/
def runStep (s : State) : Host.Outcome State Fault Refusal :=
  match decodeLatch s.latch with
  | .ok i => exec i s
  | .error _ => .fault .corruptLatch

/-- One step of the core. While the reset input is asserted it takes none (70_reset R230; log 21). -/
def coreStep (s : State) : Host.Outcome State Fault Refusal :=
  if s.rst = true then .next s
  else
    match s.phase with
    | .idle => acceptStep s
    | .run => runStep s

end Sys2Proof.Machine
end

