-- ==== Sys2Proof/Machine/HostAct.lean ====
section
/-! DEFINITION. The HOST's actions (spec 00_scope.md R7, 20_memory.md R64, R65, R70, 10_state.md R37,
70_reset_and_hazards.md R230, R237). The script itself, the order of these actions, is the HOST's (log 10). -/

namespace Sys2Proof.Machine

/-- Replace the contents of an operand space. -/
def setOperand (space : OperandSpace) (m : List Host.Cell) (s : State) : State :=
  match space with
  | .a => { s with spaceA := m }
  | .b => { s with spaceB := m }
  | .c => { s with spaceC := m }

/-- Fill an operand space, unless the running command uses it (20_memory R64; log 13). -/
def changeOperand (space : OperandSpace) (m : List Host.Cell) (s : State) : Host.Outcome State Fault Refusal :=
  if s.phase = .run ∧ usesSpace s.latch space = true then .refused (.operandChanged space)
  else .next (setOperand space m s)

/-- The HOST's copy of the descriptor words of the running command. It is no second storage: the core copied these words
at acceptance (10_state R22), RSV being 0 in a valid command, and every later change of them is refused (20_memory R64;
log 23). -/
def hostWords (s : State) : Descriptor := s.latch.descriptor

/-- Store words in the HOST's copy of the descriptor: refused where that changes a word of the running command (20_memory
R64; log 23). In IDLE no command depends on the copy, which the core does not read (10_state R22, 20_memory R67). -/
def changeWords (d : Descriptor) (s : State) : Host.Outcome State Fault Refusal :=
  if s.phase = .run ∧ d ≠ hostWords s then .refused .descriptorChanged else .next s

/-- Present a descriptor: the channel holds it until the core is IDLE (70_reset R237). -/
def presentCommand (d : Descriptor) (s : State) : State := { s with commands := s.commands ++ [d] }

/-- Pass OUT as an operand: only when it holds the result of a command whose OK response the HOST has taken
(20_memory R65, R70; log 14). -/
def reuseResult (space : OperandSpace) (s : State) : Host.Outcome State Fault Refusal :=
  if resultTaken s = true then changeOperand space s.out s else .refused .resultNotReady

/-- The HOST's read of a result element faults where the core has written none (10_state R37). -/
def readResult {w : Nat} (m : Memory w) (k : Nat) (s : State) : Host.Outcome State Fault Refusal :=
  match Memory.read m k with
  | some _ => .next s
  | none => .fault (.unwrittenResult k)

/-- Wait for a response: the core goes on until one is there, then the HOST takes the oldest (20_memory R65). `s` still
has the waiting action first in its script; `rest` is what follows it. -/
def awaitResponse (rest : List HostAction) (s : State) : Host.Outcome State Fault Refusal :=
  match s.responses with
  | [] => coreStep s
  | r :: more => .next { s with script := rest, responses := more, received := s.received ++ [r] }

/-- One action of the HOST; `rest` is what follows it in the script. -/
def hostAct (act : HostAction) (rest : List HostAction) (s : State) : Host.Outcome State Fault Refusal :=
  match act with
  | .present d => .next (presentCommand d { s with script := rest })
  | .changeWords d => changeWords d { s with script := rest }
  | .supply space bytes => changeOperand space (Memory.ofList bytes) { s with script := rest }
  | .reuseOut space => reuseResult space { s with script := rest }
  | .await => awaitResponse rest s
  | .readOut k => readResult s.out k { s with script := rest }
  | .readSmp k => readResult s.smp k { s with script := rest }
  | .assertReset => .next (assertReset { s with script := rest })
  | .releaseReset => .next (releaseReset { s with script := rest })
  | .yield => coreStep { s with script := rest }

/-- The next move: the HOST's pending action if there is one, else a step of the core (log 10). -/
def systemStep (s : State) : Host.Outcome State Fault Refusal :=
  match s.script with
  | [] => coreStep s
  | act :: rest => hostAct act rest s

/-- The command channel with a descriptor placed first (log 19). -/
def placeCommand (d : Descriptor) (s : State) : State :=
  { s with phase := .idle, rst := false, script := [], commands := d :: s.commands }

end Sys2Proof.Machine
end

