-- ==== Sys2Proof/Machine/Step.lean ====
section
/-! DEFINITION. The step of the whole machine, and the state whose next step runs a given instruction (log 19). -/

namespace Sys2Proof.Machine

/-- One step: the HOST's pending action, else the core's transition. -/
def step (s : State) : Host.Outcome State Fault Refusal := systemStep s

/-- `s` with an instruction presented first on the command channel, the core IDLE and out of reset, no HOST action
pending: the very next step accepts exactly it (log 19). -/
def State.withFetchWord (s : State) (nbits w : Nat) : State := placeCommand (Descriptor.ofBits nbits w) s

end Sys2Proof.Machine
end

