-- ==== Sys2Proof/Safety.lean ====
section
/-! DEFINITION. The terms claims are stated in: the order of all checks (spec 60_exceptions.md R196), the closed forms of the
results (40_unfilter.md R123, 41_unpack.md R157, 42_helpers.md R170), the forward transform that is the test oracle
(40_unfilter.md R124), when a run of one command is complete, and the invariant of the machine. None of it is used by
the step. -/

namespace Sys2Proof

/-! ## The order of all checks -/

/-- `sext_16(v)` of 00_scope R9. -/
def signExtend16 (v : Nat) : Int := if v < 32768 then (v : Int) else (v : Int) - 65536

/-- The first error of a descriptor in the order of 60_exceptions R196, read from the numbers of its words. -/
def Descriptor.firstError (d : Descriptor) : Option ErrorKind :=
  let opc := d.w0.toNat % 16
  let rsv := d.w0.toNat / 16 % 16
  let sel := d.w0.toNat / 256 % 256
  let bpp := signExtend16 (d.w0.toNat / 65536)
  if rsv ≠ 0 then some .illegalCommand
  else if opc ≠ 1 ∧ opc ≠ 2 ∧ opc ≠ 3 then some .illegalCommand
  else if opc = 1 ∧ 5 ≤ sel then some .unknownFilterType
  else if opc = 2 ∧ sel ∉ Config.bitDepths then some .unsupportedBitDepth
  else if opc = 3 ∧ 4 ≤ sel then some .illegalCommand
  else if opc = 1 ∧ bpp ≤ 0 then some .invalidStride
  else if opc = 1 ∧ d.w2 ≠ d.w1 then some .lengthMismatch
  else if opc = 3 ∧ d.w2 ≠ d.w1 then some .lengthMismatch
  else if opc = 3 ∧ sel = 3 ∧ d.w3 ≠ d.w1 then some .lengthMismatch
  else if opc = 1 ∧ (sel = 1 ∨ sel = 3 ∨ sel = 4) ∧ d.w1.toNat = 0 then some .invalidStride
  else if opc = 2 ∧ sel = 16 ∧ d.w1.toNat % 2 = 1 then some .illegalCommand
  else none

/-- A command the core accepts: it can be written (30_encoding R87) and no check fails (60_exceptions R196). -/
abbrev Instr.Valid (i : Instr) : Prop := i.WellFormed ∧ (encode i).firstError = none

/-! ## Classes of commands -/

/-- UNF.SUB, UNF.AVG, UNF.PAETH: the commands with predictor state (10_state R25). -/
def Instr.usesLeft : Instr → Bool
  | .unfNone _ => false
  | .unfSub _ => true
  | .unfUp _ => false
  | .unfAvg _ => true
  | .unfPaeth _ => true
  | .unp1 _ => false
  | .unp2 _ => false
  | .unp4 _ => false
  | .unp8 _ => false
  | .unp16 _ => false
  | .addb _ => false
  | .subb _ => false
  | .avgb _ => false
  | .paethb _ => false

/-- The commands whose result is OUT: UNF and HLP (20_memory R50). The others are the UNP commands, whose result is
SMP. -/
def Instr.writesOut : Instr → Bool
  | .unfNone _ => true
  | .unfSub _ => true
  | .unfUp _ => true
  | .unfAvg _ => true
  | .unfPaeth _ => true
  | .unp1 _ => false
  | .unp2 _ => false
  | .unp4 _ => false
  | .unp8 _ => false
  | .unp16 _ => false
  | .addb _ => true
  | .subb _ => true
  | .avgb _ => true
  | .paethb _ => true

/-- By how much a byte step advances `i` (10_state R23). -/
def Instr.indexStep : Instr → Nat
  | .unfNone _ => 1
  | .unfSub _ => 1
  | .unfUp _ => 1
  | .unfAvg _ => 1
  | .unfPaeth _ => 1
  | .unp1 _ => 1
  | .unp2 _ => 1
  | .unp4 _ => 1
  | .unp8 _ => 1
  | .unp16 _ => 2
  | .addb _ => 1
  | .subb _ => 1
  | .avgb _ => 1
  | .paethb _ => 1

/-- How many byte steps a command that ends OK takes (70_reset R240). -/
def Instr.byteSteps (i : Instr) : Nat := i.operands.lenA / i.indexStep

/-- How many elements of its result space a command has produced when its index is n (10_state R30, 41_unpack R158). -/
def Instr.resultCount : Instr → Nat → Nat
  | .unfNone _, n => n
  | .unfSub _, n => n
  | .unfUp _, n => n
  | .unfAvg _, n => n
  | .unfPaeth _, n => n
  | .unp1 _, n => n * 8
  | .unp2 _, n => n * 4
  | .unp4 _, n => n * 2
  | .unp8 _, n => n
  | .unp16 _, n => n / 2
  | .addb _, n => n
  | .subb _, n => n
  | .avgb _, n => n
  | .paethb _, n => n

namespace Machine

/-! ## Closed forms -/

/-- `O(k)` and `Bv(k)` of 40_unfilter R123: the element at k, 0 before the row's start. Claims use it only at indices
that are listed. -/
def rowByte (m : List Host.Cell) (k : Int) : Byte := if k < 0 then 0 else (Memory.read m k.toNat).getD 0

/-- `OUT[k]` of an UNF or HLP command, from the operands and the elements of OUT below k: the recurrences of 40_unfilter
R123 and the lanes of 42_helpers R170. The UNP commands do not write OUT. -/
def outElement (i : Instr) (s : State) (k : Nat) : Byte :=
  match i with
  | .unfNone _ => rowByte s.spaceA k
  | .unfSub o => rowByte s.spaceA k + rowByte s.out (k - o.bpp)
  | .unfUp _ => rowByte s.spaceA k + rowByte s.spaceB k
  | .unfAvg o => rowByte s.spaceA k +
      BitVec.ofNat 8 (((rowByte s.out (k - o.bpp)).toNat + (rowByte s.spaceB k).toNat) / 2)
  | .unfPaeth o => rowByte s.spaceA k +
      paethPredictor (rowByte s.out (k - o.bpp)) (rowByte s.spaceB k) (rowByte s.spaceB (k - o.bpp))
  | .addb _ => rowByte s.spaceA k + rowByte s.spaceB k
  | .subb _ => rowByte s.spaceA k - rowByte s.spaceB k
  | .avgb _ => BitVec.ofNat 8 (((rowByte s.spaceA k).toNat + (rowByte s.spaceB k).toNat) / 2)
  | .paethb _ => paethPredictor (rowByte s.spaceA k) (rowByte s.spaceB k) (rowByte s.spaceC k)
  | .unp1 _ => 0
  | .unp2 _ => 0
  | .unp4 _ => 0
  | .unp8 _ => 0
  | .unp16 _ => 0

/-- The one formula for the sub-byte depths (41_unpack R157), at sample index k. -/
def packedSample (d : Nat) (s : State) (k : Nat) : Sample :=
  BitVec.ofNat 16 ((rowByte s.spaceA ((k / (8 / d) : Nat) : Int)).toNat / 2 ^ (8 - d * (k % (8 / d) + 1)) % 2 ^ d)

/-- `SMP[k]` of an UNP command (41_unpack R152 to R157). The other commands do not write SMP. -/
def sampleElement (i : Instr) (s : State) (k : Nat) : Sample :=
  match i with
  | .unp1 _ => packedSample 1 s k
  | .unp2 _ => packedSample 2 s k
  | .unp4 _ => packedSample 4 s k
  | .unp8 _ => packedSample 8 s k
  | .unp16 _ => BitVec.ofNat 16
      ((rowByte s.spaceA ((2 * k : Nat) : Int)).toNat * 256 + (rowByte s.spaceA ((2 * k + 1 : Nat) : Int)).toNat)
  | .unfNone _ => 0
  | .unfSub _ => 0
  | .unfUp _ => 0
  | .unfAvg _ => 0
  | .unfPaeth _ => 0
  | .addb _ => 0
  | .subb _ => 0
  | .avgb _ => 0
  | .paethb _ => 0

/-! ## The forward transform, a test oracle and no command (40_unfilter R124) -/

/-- `R(k)` of 40_unfilter R124: the element at k, 0 before the start. -/
def seqByte (xs : List Byte) (k : Int) : Byte := if k < 0 then 0 else xs.getD k.toNat 0

/-- `pred_i` of 40_unfilter R124, for the UNF command that inverts the filter; no other command inverts one. -/
def forwardPredictor (i : Instr) (raw above : List Byte) (k : Nat) : Byte :=
  match i with
  | .unfNone _ => 0
  | .unfSub o => seqByte raw (k - o.bpp)
  | .unfUp _ => seqByte above k
  | .unfAvg o => BitVec.ofNat 8 (((seqByte raw (k - o.bpp)).toNat + (seqByte above k).toNat) / 2)
  | .unfPaeth o => paethPredictor (seqByte raw (k - o.bpp)) (seqByte above k) (seqByte above (k - o.bpp))
  | .unp1 _ => 0
  | .unp2 _ => 0
  | .unp4 _ => 0
  | .unp8 _ => 0
  | .unp16 _ => 0
  | .addb _ => 0
  | .subb _ => 0
  | .avgb _ => 0
  | .paethb _ => 0

/-- `filter(ft, raw, above, bpp)` of 40_unfilter R124. -/
def forwardFilter (i : Instr) (raw above : List Byte) : List Byte :=
  (List.range raw.length).map fun (k : Nat) => seqByte raw k - forwardPredictor i raw above k

/-- `shift_k(s)` of 00_scope R10. -/
def shiftRow (bpp : Nat) (xs : List Byte) : List Byte := (List.replicate bpp 0 ++ xs).take xs.length

/-! ## Runs -/

/-- n steps of the machine, stopping at the first fault or refusal. -/
def run : Nat → State → Host.Outcome State Fault Refusal
  | 0, s => .next s
  | n + 1, s =>
    match step s with
    | .next t => run n t
    | .fault r => .fault r
    | .refused r => .refused r

/-- The core is out of reset and the HOST has nothing pending, so the next moves are the core's. -/
abbrev Quiet (s : State) : Prop := s.script = [] ∧ s.rst = false

/-- Every element below n is listed. -/
abbrev Supplied (m : List Host.Cell) (n : Nat) : Prop := ∀ k < n, (Memory.read m k).isSome = true

/-- The HOST has supplied every element the command reads (20_memory R61, the read column). -/
def OperandsSupplied (i : Instr) (s : State) : Prop :=
  match i with
  | .unfNone o => Supplied s.spaceA o.lenA
  | .unfSub o => Supplied s.spaceA o.lenA
  | .unfUp o => Supplied s.spaceA o.lenA ∧ Supplied s.spaceB o.lenA
  | .unfAvg o => Supplied s.spaceA o.lenA ∧ Supplied s.spaceB o.lenA
  | .unfPaeth o => Supplied s.spaceA o.lenA ∧ Supplied s.spaceB o.lenA
  | .unp1 o => Supplied s.spaceA o.lenA
  | .unp2 o => Supplied s.spaceA o.lenA
  | .unp4 o => Supplied s.spaceA o.lenA
  | .unp8 o => Supplied s.spaceA o.lenA
  | .unp16 o => Supplied s.spaceA o.lenA
  | .addb o => Supplied s.spaceA o.lenA ∧ Supplied s.spaceB o.lenA
  | .subb o => Supplied s.spaceA o.lenA ∧ Supplied s.spaceB o.lenA
  | .avgb o => Supplied s.spaceA o.lenA ∧ Supplied s.spaceB o.lenA
  | .paethb o => Supplied s.spaceA o.lenA ∧ Supplied s.spaceB o.lenA ∧ Supplied s.spaceC o.lenA

/-- The command stands first on the command channel of an idle core that is left to itself. -/
abbrev Presented (i : Instr) (s : State) : Prop :=
  Quiet s ∧ s.phase = .idle ∧ s.commands.head? = some (encode i)

/-- From `s` the presented command runs to its response OK in `t`: acceptance, its byte steps, completion
(70_reset R240, R241). -/
abbrev Completes (i : Instr) (s t : State) : Prop :=
  Presented i s ∧ run (i.byteSteps + 2) s = .next t ∧ t.phase = .idle ∧
    t.responses = s.responses ++ [statusWord .ok]

/-- The presented command ends in an error response, which is its only effect (60_exceptions R197): the next step takes
it from the command channel and sends the response. -/
abbrev FailsWith (s : State) (k : ErrorKind) : Prop :=
  step s = .next { s with commands := s.commands.tail, responses := s.responses ++ [statusWord (.error k)] }

/-- What a whole command leaves as it was, apart from its result space: the operand spaces, the other commands presented,
the reset input, the HOST's side. -/
abbrev SameElsewhere (s t : State) : Prop :=
  t.spaceA = s.spaceA ∧ t.spaceB = s.spaceB ∧ t.spaceC = s.spaceC ∧ t.commands = s.commands.tail ∧ t.rst = s.rst ∧
    t.script = s.script ∧ t.received = s.received

/-- The predictor entries over the run of a presented command with stride `o.bpp` (10_state R25, R26): after the acceptance
and n byte steps, `left[r]` is 0 while no byte of group r is written, and then the last byte of OUT in its group. -/
abbrev RollsLeft (o : Operands) (s : State) : Prop :=
  ∀ n ≤ o.lenA, ∃ u, run (n + 1) s = .next u ∧ u.idx = n ∧
    (∀ r < o.bpp.toNat, n ≤ r → u.left[r]? = some 0) ∧
    ∀ k < n, n ≤ k + o.bpp.toNat → u.left[k % o.bpp.toNat]? = some (rowByte u.out k)

/-- The command is in progress and its byte step is enabled (40_unfilter R113, 41_unpack R161, 42_helpers R170). -/
abbrev AtByteStep (i : Instr) (s : State) : Prop :=
  s.phase = .run ∧ s.latch = i.latch ∧ s.idx < s.latch.lenA.toNat

/-! ## The invariant -/

/-- The record `outReady` is true to the responses: the status word it names, counted from the first the HOST took, is an
OK (20_memory R65). -/
abbrev ReadyRecordTrue (s : State) : Prop :=
  ∀ n, s.outReady = some n → 0 < n ∧ (s.received ++ s.responses)[n - 1]? = some (statusWord .ok)

/-- Exactly the indices below n are listed: the written prefix of a result space (20_memory R53). -/
abbrev WrittenPrefix {w : Nat} (m : Memory w) (n : Nat) : Prop := m.map Prod.fst = List.range n

/-- Every index space is in its canonical form. -/
abbrev SpacesCanonical (s : State) : Prop :=
  Memory.wf s.spaceA = true ∧ Memory.wf s.spaceB = true ∧ Memory.wf s.spaceC = true ∧
    Memory.wf s.out = true ∧ Memory.wf s.smp = true

/-- `left[r]` by 10_state R26: OUT at the largest index below `i` that is r modulo bpp, 0 when there is none. -/
def lastInGroup (s : State) (r : Nat) : Byte :=
  if r < s.idx then rowByte s.out ((r + stride s * ((s.idx - 1 - r) / stride s) : Nat) : Int) else 0

/-- What holds while command i is in progress. -/
structure Running (i : Instr) (s : State) : Prop where
  /-- The latch holds the command, which passed its checks (10_state R21). -/
  holds : decodeLatch s.latch = .ok i
  valid : (encode i).firstError = none
  /-- `i` never exceeds LEN_A (10_state R23) and steps by the command's step (41_unpack R161). -/
  bounded : s.idx ≤ s.latch.lenA.toNat
  aligned : s.idx % i.indexStep = 0
  /-- The written part of OUT, and that it follows the closed form (20_memory R53, 40_unfilter R123). -/
  outPrefix : i.writesOut = true → WrittenPrefix s.out (i.resultCount s.idx)
  outValues : i.writesOut = true → ∀ k < i.resultCount s.idx, Memory.read s.out k = some (outElement i s k)
  outBusy : i.writesOut = true → s.outReady = none
  /-- The written part of SMP, and that it follows the closed form (20_memory R53, 41_unpack R157). -/
  smpPrefix : i.writesOut = false → WrittenPrefix s.smp (i.resultCount s.idx)
  smpValues : i.writesOut = false → ∀ k < i.resultCount s.idx, Memory.read s.smp k = some (sampleElement i s k)
  /-- The predictor register file (10_state R25, R26). -/
  leftSize : i.usesLeft = true → s.left.length = stride s
  leftValues : i.usesLeft = true → ∀ r < stride s, s.left[r]? = some (lastInGroup s r)

/-- The invariant of the machine. -/
structure Inv (s : State) : Prop where
  canonical : SpacesCanonical s
  running : s.phase = .run → ∃ i, Running i s

end Machine

end Sys2Proof
end

