-- ==== Sys2Proof/Certificates/Slice0/Obligations.lean ====
section
/-! DEFINITION. The statements for the provers. Each docstring names the rule of spec/ it formalises; a log entry or a
decision D<n> of spec/92_eei_decisions.md named there marks a clause that is the model's or the spec's own choice. -/

open Sys2Proof Sys2Proof.Machine

/-! ## Encoding -/

/-- 30_encoding R81, R82, R88, R95 (D3 to D9): every command that can be written is read back, every operand at every
value its field admits. -/
def Obligations.DecodeOfEncode : Prop :=
  ∀ i : Instr, i.WellFormed → decode (encode i) = .ok i

/-- 30_encoding R81, R82, R88, R89 (D3 to D9): a descriptor that decodes has one meaning, so no bit of it is dropped. -/
def Obligations.EncodeOfDecode : Prop :=
  ∀ (d : Descriptor) (i : Instr), decode d = .ok i → i.WellFormed ∧ encode i = d

/-- 30_encoding R95 (D3 to D7): a descriptor is the command of a row exactly when `W0 & mask = match`. -/
def Obligations.OpcodeMapSelectsCommands : Prop :=
  ∀ d : Descriptor,
    ((∃ o, decode d = .ok (.unfNone o)) ↔ d.w0 &&& 0x0000FFFF#32 = 0x00000001#32) ∧
    ((∃ o, decode d = .ok (.unfSub o)) ↔ d.w0 &&& 0x0000FFFF#32 = 0x00000101#32) ∧
    ((∃ o, decode d = .ok (.unfUp o)) ↔ d.w0 &&& 0x0000FFFF#32 = 0x00000201#32) ∧
    ((∃ o, decode d = .ok (.unfAvg o)) ↔ d.w0 &&& 0x0000FFFF#32 = 0x00000301#32) ∧
    ((∃ o, decode d = .ok (.unfPaeth o)) ↔ d.w0 &&& 0x0000FFFF#32 = 0x00000401#32) ∧
    ((∃ o, decode d = .ok (.unp1 o)) ↔ d.w0 &&& 0x0000FFFF#32 = 0x00000102#32) ∧
    ((∃ o, decode d = .ok (.unp2 o)) ↔ d.w0 &&& 0x0000FFFF#32 = 0x00000202#32) ∧
    ((∃ o, decode d = .ok (.unp4 o)) ↔ d.w0 &&& 0x0000FFFF#32 = 0x00000402#32) ∧
    ((∃ o, decode d = .ok (.unp8 o)) ↔ d.w0 &&& 0x0000FFFF#32 = 0x00000802#32) ∧
    ((∃ o, decode d = .ok (.unp16 o)) ↔ d.w0 &&& 0x0000FFFF#32 = 0x00001002#32) ∧
    ((∃ o, decode d = .ok (.addb o)) ↔ d.w0 &&& 0x0000FFFF#32 = 0x00000003#32) ∧
    ((∃ o, decode d = .ok (.subb o)) ↔ d.w0 &&& 0x0000FFFF#32 = 0x00000103#32) ∧
    ((∃ o, decode d = .ok (.avgb o)) ↔ d.w0 &&& 0x0000FFFF#32 = 0x00000203#32) ∧
    ((∃ o, decode d = .ok (.paethb o)) ↔ d.w0 &&& 0x0000FFFF#32 = 0x00000303#32)

/-- Descriptors of spec/95_test_vectors.md and 30_encoding R93, R95, written out, are read as the commands they stand for,
and three are rejected by their kind. -/
def Obligations.DecodeReadsSpecWords : Prop :=
  decode ⟨0x00030401#32, 6#32, 6#32, 0#32⟩ = .ok (.unfPaeth ⟨3, 6, 6, 0⟩) ∧
  decode ⟨0x00010101#32, 3#32, 3#32, 0#32⟩ = .ok (.unfSub ⟨1, 3, 3, 0⟩) ∧
  decode ⟨0x80000301#32, 4#32, 4#32, 0#32⟩ = .ok (.unfAvg ⟨-32768, 4, 4, 0⟩) ∧
  decode ⟨0x00000402#32, 8#32, 0#32, 0#32⟩ = .ok (.unp4 ⟨0, 8, 0, 0⟩) ∧
  decode ⟨0x12341002#32, 0#32, 7#32, 9#32⟩ = .ok (.unp16 ⟨0x1234, 0, 7, 9⟩) ∧
  decode ⟨0x00000103#32, 9#32, 9#32, 0#32⟩ = .ok (.subb ⟨0, 9, 9, 0⟩) ∧
  decode ⟨0x00000303#32, 5#32, 5#32, 5#32⟩ = .ok (.paethb ⟨0, 5, 5, 5⟩) ∧
  decode ⟨0x00010111#32, 4#32, 4#32, 0#32⟩ = .error .illegalCommand ∧
  decode ⟨0x00010901#32, 4#32, 4#32, 0#32⟩ = .error .unknownFilterType ∧
  decode ⟨0x00000302#32, 4#32, 0#32, 0#32⟩ = .error .unsupportedBitDepth

/-! ## Acceptance, errors, responses -/

/-- A step runs the decoded instruction. In IDLE the oldest presented descriptor is accepted (10_state R21, 70_reset R237);
one that selects no command gets its error response (30_encoding R89, 60_exceptions R197). In RUN the latched command goes
on (10_state R22). The last clause is the model's own `withFetchWord` (log 19). -/
def Obligations.StepRunsDecodedInstruction : Prop :=
  (∀ (s : State) (d : Descriptor) (rest : List Descriptor) (i : Instr),
    Quiet s → s.phase = .idle → s.commands = d :: rest → decode d = .ok i →
      step s = exec i { s with commands := rest }) ∧
  (∀ (s : State) (d : Descriptor) (rest : List Descriptor) (k : ErrorKind),
    Quiet s → s.phase = .idle → s.commands = d :: rest → decode d = .error k → FailsWith s k) ∧
  (∀ (s : State) (i : Instr), Quiet s → s.phase = .run → decodeLatch s.latch = .ok i → step s = exec i s) ∧
  (∀ (s : State) (nbits w : Nat) (i : Instr), decodeTableWord nbits w = some i →
    step (s.withFetchWord nbits w) = exec i { s with phase := .idle, rst := false, script := [] })

/-- 60_exceptions R196 and R197 (the order is D17): the response carries the first cause in the order of R196 and nothing
else changes; with no cause the command is started with its fields in the latch and `i = 0`. -/
def Obligations.AcceptanceFollowsErrorPriority : Prop :=
  ∀ (s : State) (d : Descriptor), Quiet s → s.phase = .idle → s.commands.head? = some d →
    (∀ k, d.firstError = some k → FailsWith s k) ∧
    (d.firstError = none → ∃ i t, decode d = .ok i ∧ step s = .next t ∧ t.phase = .run ∧ t.latch = d.latch ∧
      t.idx = 0 ∧ t.responses = s.responses ∧ SameElsewhere s t)

/-- 60_exceptions R199: the same descriptor gives the same error, whatever the core did before and whatever the spaces
hold, and the response is the only trace of it. -/
def Obligations.SameDescriptorSameError : Prop :=
  ∀ (s s' : State) (k : ErrorKind), Quiet s → Quiet s' → s.phase = .idle → s'.phase = .idle → s.commands ≠ [] →
    s'.commands.head? = s.commands.head? → FailsWith s k → FailsWith s' k

/-- 30_encoding R92, 60_exceptions R190 (the numbers are D11 and D12): the status code of each outcome in bits 2:0, the
other bits 0, and codes 6 and 7 never sent. -/
def Obligations.StatusWordsFollowTable : Prop :=
  statusWord .ok = 0#32 ∧ statusWord (.error .invalidStride) = 1#32 ∧ statusWord (.error .lengthMismatch) = 2#32 ∧
  statusWord (.error .unsupportedBitDepth) = 3#32 ∧ statusWord (.error .unknownFilterType) = 4#32 ∧
  statusWord (.error .illegalCommand) = 5#32 ∧ ∀ st, (statusWord st).toNat < 6

/-- Start of the five UNF commands (40_unfilter R111 and R112; the checks of all tags are D13 to D15): they answer a next
state in RUN with `i = 0`; UNF.SUB, UNF.AVG and UNF.PAETH set bpp predictor entries to 0. That OUT is taken empty and not
ready is the model's choice (logs 5 and 14), and so is leaving `left` alone in UNF.NONE and UNF.UP (log 6, D36). -/
def Obligations.UnfilterCommandsStart : Prop :=
  ∀ (o : Operands) (s : State), o.WellFormed → s.phase = .idle → 0 < o.bpp → o.lenB = o.lenA →
    exec (.unfNone o) s =
      .next { s with phase := .run, latch := (Instr.unfNone o).latch, idx := 0, out := [], outReady := none } ∧
    exec (.unfUp o) s =
      .next { s with phase := .run, latch := (Instr.unfUp o).latch, idx := 0, out := [], outReady := none } ∧
    (0 < o.lenA →
      exec (.unfSub o) s =
        .next { s with
          phase := .run, latch := (Instr.unfSub o).latch, idx := 0, left := List.replicate o.bpp.toNat 0
          out := [], outReady := none } ∧
      exec (.unfAvg o) s =
        .next { s with
          phase := .run, latch := (Instr.unfAvg o).latch, idx := 0, left := List.replicate o.bpp.toNat 0
          out := [], outReady := none } ∧
      exec (.unfPaeth o) s =
        .next { s with
          phase := .run, latch := (Instr.unfPaeth o).latch, idx := 0, left := List.replicate o.bpp.toNat 0
          out := [], outReady := none })

/-- Start of the five UNP commands (41_unpack R151, R161; the check of UNP.16 is D18): they answer a next state in RUN with
`i = 0`, whatever BPP, LEN_B and LEN_C are. That SMP is taken empty is the model's choice (log 5). -/
def Obligations.UnpackCommandsStart : Prop :=
  ∀ (o : Operands) (s : State), o.WellFormed → s.phase = .idle →
    exec (.unp1 o) s = .next { s with phase := .run, latch := (Instr.unp1 o).latch, idx := 0, smp := [] } ∧
    exec (.unp2 o) s = .next { s with phase := .run, latch := (Instr.unp2 o).latch, idx := 0, smp := [] } ∧
    exec (.unp4 o) s = .next { s with phase := .run, latch := (Instr.unp4 o).latch, idx := 0, smp := [] } ∧
    exec (.unp8 o) s = .next { s with phase := .run, latch := (Instr.unp8 o).latch, idx := 0, smp := [] } ∧
    (o.lenA % 2 = 0 →
      exec (.unp16 o) s = .next { s with phase := .run, latch := (Instr.unp16 o).latch, idx := 0, smp := [] })

/-- Start of the four helpers (42_helpers R170, R171; the checks are D19): they answer a next state in RUN with `i = 0`,
whatever BPP is and, but for PAETHB, whatever LEN_C is. That OUT is taken empty and not ready is the model's choice
(logs 5 and 14). -/
def Obligations.HelperCommandsStart : Prop :=
  ∀ (o : Operands) (s : State), o.WellFormed → s.phase = .idle → o.lenB = o.lenA →
    exec (.addb o) s =
      .next { s with phase := .run, latch := (Instr.addb o).latch, idx := 0, out := [], outReady := none } ∧
    exec (.subb o) s =
      .next { s with phase := .run, latch := (Instr.subb o).latch, idx := 0, out := [], outReady := none } ∧
    exec (.avgb o) s =
      .next { s with phase := .run, latch := (Instr.avgb o).latch, idx := 0, out := [], outReady := none } ∧
    (o.lenC = o.lenA → exec (.paethb o) s =
      .next { s with phase := .run, latch := (Instr.paethb o).latch, idx := 0, out := [], outReady := none })

/-! ## Byte steps and completion -/

/-- 40_unfilter R113: the byte step of each UNF command. It reads what its predictor needs and no more, adds the predictor
to `A[i]` as an exact integer reduced once modulo 256, writes `OUT[i]`, writes `left[j]` for tags 1, 3 and 4 only, and
advances `i` by one; nothing else changes. -/
def Obligations.UnfilterByteStep : Prop :=
  ∀ (o : Operands) (s : State) (x a b c : Byte), Memory.read s.spaceA s.idx = some x →
    (AtByteStep (.unfNone o) s →
      ∃ y : Byte, y.toNat = (x.toNat + 0) % 256 ∧ exec (.unfNone o) s =
        .next { s with out := Memory.write s.out s.idx y, idx := s.idx + 1 }) ∧
    (AtByteStep (.unfSub o) s → s.left[s.idx % s.latch.bpp.toInt.toNat]? = some a →
      ∃ y : Byte, y.toNat = (x.toNat + a.toNat) % 256 ∧ exec (.unfSub o) s =
        .next { s with
          out := Memory.write s.out s.idx y, left := s.left.set (s.idx % s.latch.bpp.toInt.toNat) y
          idx := s.idx + 1 }) ∧
    (AtByteStep (.unfUp o) s → s.latch.lenB = s.latch.lenA → Memory.read s.spaceB s.idx = some b →
      ∃ y : Byte, y.toNat = (x.toNat + b.toNat) % 256 ∧ exec (.unfUp o) s =
        .next { s with out := Memory.write s.out s.idx y, idx := s.idx + 1 }) ∧
    (AtByteStep (.unfAvg o) s → s.latch.lenB = s.latch.lenA →
      s.left[s.idx % s.latch.bpp.toInt.toNat]? = some a → Memory.read s.spaceB s.idx = some b →
      ∃ y : Byte, y.toNat = (x.toNat + (a.toNat + b.toNat) / 2) % 256 ∧ exec (.unfAvg o) s =
        .next { s with
          out := Memory.write s.out s.idx y, left := s.left.set (s.idx % s.latch.bpp.toInt.toNat) y
          idx := s.idx + 1 }) ∧
    (AtByteStep (.unfPaeth o) s → s.latch.lenB = s.latch.lenA →
      s.left[s.idx % s.latch.bpp.toInt.toNat]? = some a → Memory.read s.spaceB s.idx = some b →
      (0 ≤ (s.idx : Int) - (s.latch.bpp.toInt.toNat : Int) →
        Memory.read s.spaceB (s.idx - s.latch.bpp.toInt.toNat) = some c) →
      ((s.idx : Int) - (s.latch.bpp.toInt.toNat : Int) < 0 → c = 0) →
      ∃ y : Byte, y.toNat = (x.toNat + (paethPredictor a b c).toNat) % 256 ∧ exec (.unfPaeth o) s =
        .next { s with
          out := Memory.write s.out s.idx y, left := s.left.set (s.idx % s.latch.bpp.toInt.toNat) y
          idx := s.idx + 1 })

/-- 41_unpack R161, 20_memory R54 and R55 (the grouping into steps is D32): the step of each UNP command writes the next
samples, most significant first, a pair of bytes big-endian, and advances `i` by the bytes it used; nothing else
changes. -/
def Obligations.UnpackByteStep : Prop :=
  ∀ (o : Operands) (s : State) (v lo : Byte), Memory.read s.spaceA s.idx = some v →
    (AtByteStep (.unp1 o) s → ∃ xs : List Sample,
      xs.map BitVec.toNat = [v.toNat / 128, v.toNat / 64 % 2, v.toNat / 32 % 2, v.toNat / 16 % 2, v.toNat / 8 % 2,
        v.toNat / 4 % 2, v.toNat / 2 % 2, v.toNat % 2] ∧
      exec (.unp1 o) s = .next { s with smp := Memory.writeFrom s.smp (s.idx * 8) xs, idx := s.idx + 1 }) ∧
    (AtByteStep (.unp2 o) s → ∃ xs : List Sample,
      xs.map BitVec.toNat = [v.toNat / 64, v.toNat / 16 % 4, v.toNat / 4 % 4, v.toNat % 4] ∧
      exec (.unp2 o) s = .next { s with smp := Memory.writeFrom s.smp (s.idx * 4) xs, idx := s.idx + 1 }) ∧
    (AtByteStep (.unp4 o) s → ∃ xs : List Sample,
      xs.map BitVec.toNat = [v.toNat / 16, v.toNat % 16] ∧
      exec (.unp4 o) s = .next { s with smp := Memory.writeFrom s.smp (s.idx * 2) xs, idx := s.idx + 1 }) ∧
    (AtByteStep (.unp8 o) s → ∃ x : Sample, x.toNat = v.toNat ∧
      exec (.unp8 o) s = .next { s with smp := Memory.write s.smp s.idx x, idx := s.idx + 1 }) ∧
    (AtByteStep (.unp16 o) s → s.idx + 1 < s.latch.lenA.toNat → Memory.read s.spaceA (s.idx + 1) = some lo →
      ∃ x : Sample, x.toNat = v.toNat * 256 + lo.toNat ∧
      exec (.unp16 o) s = .next { s with smp := Memory.write s.smp (s.idx / 2) x, idx := s.idx + 2 })

/-- 42_helpers R170, R172 to R175 (the minuend is D20, returning the predictor is D21, the step is D32): the step of each
helper writes its lane to `OUT[i]` and advances `i` by one; nothing else changes. -/
def Obligations.HelperByteStep : Prop :=
  ∀ (o : Operands) (s : State) (a b c : Byte), Memory.read s.spaceA s.idx = some a →
    Memory.read s.spaceB s.idx = some b → s.latch.lenB = s.latch.lenA →
    (AtByteStep (.addb o) s → ∃ y : Byte, y.toNat = (a.toNat + b.toNat) % 256 ∧
      exec (.addb o) s = .next { s with out := Memory.write s.out s.idx y, idx := s.idx + 1 }) ∧
    (AtByteStep (.subb o) s → ∃ y : Byte, (y.toNat : Int) = ((a.toNat : Int) - (b.toNat : Int)) % 256 ∧
      exec (.subb o) s = .next { s with out := Memory.write s.out s.idx y, idx := s.idx + 1 }) ∧
    (AtByteStep (.avgb o) s → ∃ y : Byte, y.toNat = (a.toNat + b.toNat) / 2 ∧
      exec (.avgb o) s = .next { s with out := Memory.write s.out s.idx y, idx := s.idx + 1 }) ∧
    (AtByteStep (.paethb o) s → s.latch.lenC = s.latch.lenA → Memory.read s.spaceC s.idx = some c →
      exec (.paethb o) s =
        .next { s with out := Memory.write s.out s.idx (paethPredictor a b c), idx := s.idx + 1 })

/-- Completion (40_unfilter R122, 41_unpack R161, 42_helpers R170): at `i = LEN_A` every command sends OK and returns to
IDLE, and no space changes. That the latch, `i` and `left` keep their values is the model's choice (log 3; 10_state R32
calls them unobservable then), and that OUT is then ready is the model's own record (log 14). -/
def Obligations.CompletionRespondsOk : Prop :=
  ∀ (i : Instr) (s : State), s.phase = .run → s.latch = i.latch → s.idx = s.latch.lenA.toNat →
    exec i s = .next { s with
      phase := .idle, responses := s.responses ++ [statusWord .ok]
      outReady := if i.writesOut = true then some (s.received.length + s.responses.length + 1) else s.outReady }

/-! ## Frames -/

/-- What a transition of an UNF or HLP command leaves as it was (10_state R36, 20_memory R53; the OUT taken at the start is
log 5). Every space but OUT; the channels' other side, the reset input and the HOST's side; in RUN the latch; in a byte
step every element of OUT but the one at `i`, and every predictor entry but `left[i mod bpp]`, and that one too in the
commands without predictor state; at completion and in an error response all of OUT. The model's choice: that the latch,
`i` and `left` keep their values at completion (log 3) and in an error response (log 7), and that UNF.NONE and UNF.UP leave
`left` as it is at their start (log 6, D36). -/
def Obligations.OutCommandsFrame : Prop :=
  ∀ (i : Instr) (s t : State), i.writesOut = true → exec i s = .next t →
    (t.spaceA = s.spaceA ∧ t.spaceB = s.spaceB ∧ t.spaceC = s.spaceC ∧ t.smp = s.smp ∧ t.commands = s.commands ∧
      t.rst = s.rst ∧ t.script = s.script ∧ t.received = s.received) ∧
    (s.phase = .run → t.latch = s.latch) ∧
    (i.usesLeft = false → t.left = s.left) ∧
    (s.phase = .run → t.phase = .run → t.responses = s.responses ∧
      (∀ k, k ≠ s.idx → Memory.read t.out k = Memory.read s.out k) ∧
      (∀ r, r ≠ s.idx % s.latch.bpp.toInt.toNat → t.left[r]? = s.left[r]?)) ∧
    (t.phase = .idle → t.latch = s.latch ∧ t.idx = s.idx ∧ t.out = s.out ∧ t.left = s.left)

/-- What a transition of an UNP command leaves as it was (10_state R36, 41_unpack R150; the SMP taken at the start is
log 5). Every space but SMP, the predictor entries, the channels' other side, the reset input and the HOST's side; in RUN
the latch; in a byte step every element of SMP outside those the step produces; at completion and in an error response all
of SMP. The model's choice: that the latch, `i` and `left` keep their values at completion (log 3) and in an error response
(log 7). -/
def Obligations.UnpackCommandsFrame : Prop :=
  ∀ (i : Instr) (s t : State), i.writesOut = false → exec i s = .next t →
    (t.spaceA = s.spaceA ∧ t.spaceB = s.spaceB ∧ t.spaceC = s.spaceC ∧ t.out = s.out ∧ t.outReady = s.outReady ∧
      t.left = s.left ∧ t.commands = s.commands ∧ t.rst = s.rst ∧ t.script = s.script ∧ t.received = s.received) ∧
    (s.phase = .run → t.latch = s.latch) ∧
    (s.phase = .run → t.phase = .run → t.responses = s.responses ∧
      ∀ k, ¬ (i.resultCount s.idx ≤ k ∧ k < i.resultCount s.idx + i.resultCount i.indexStep) →
        Memory.read t.smp k = Memory.read s.smp k) ∧
    (t.phase = .idle → t.latch = s.latch ∧ t.idx = s.idx ∧ t.smp = s.smp)

/-! ## Arithmetic -/

/-- 40_unfilter R115: `p`, `pa`, `pb`, `pc` are exact integers in the ranges the rule gives, and the result is a, b or c by
the three comparisons in that order. -/
def Obligations.PaethPredictorFollowsRule : Prop :=
  ∀ (a b c : Byte) (p : Int) (pa pb pc : Nat), p = (a.toNat : Int) + (b.toNat : Int) - (c.toNat : Int) →
    pa = (p - (a.toNat : Int)).natAbs → pb = (p - (b.toNat : Int)).natAbs → pc = (p - (c.toNat : Int)).natAbs →
    (-255 ≤ p ∧ p ≤ 510 ∧ pa ≤ 255 ∧ pb ≤ 255 ∧ pc ≤ 510) ∧
    (pa = ((b.toNat : Int) - (c.toNat : Int)).natAbs ∧ pb = ((a.toNat : Int) - (c.toNat : Int)).natAbs ∧
      pc = ((a.toNat : Int) + (b.toNat : Int) - 2 * (c.toNat : Int)).natAbs) ∧
    (pa ≤ pb ∧ pa ≤ pc → paethPredictor a b c = a) ∧
    (¬ (pa ≤ pb ∧ pa ≤ pc) → pb ≤ pc → paethPredictor a b c = b) ∧
    (¬ (pa ≤ pb ∧ pa ≤ pc) → ¬ pb ≤ pc → paethPredictor a b c = c)

/-- 40_unfilter R128 (a), (c), (d), (e) and R120's corner cases (derived in the spec): the choice is a neighbour nearest to
the estimate; equal neighbours select their value; the tie pa = pb < pc needs a = b; the ties pa = pc < pb and
pb = pc < pa return a and b; c is returned only when it is strictly nearest; with a = c = 0 the result is b, and with
b = c it is a. -/
def Obligations.PaethSelectsNearestInTieOrder : Prop :=
  ∀ a b c : Byte,
    (paethPredictor a b c = a ∨ paethPredictor a b c = b ∨ paethPredictor a b c = c) ∧
    (∀ x : Byte, x = a ∨ x = b ∨ x = c →
      paethDistance (paethEstimate a b c) (paethPredictor a b c) ≤ paethDistance (paethEstimate a b c) x) ∧
    (a = b → b = c → paethPredictor a b c = a) ∧
    (paethDistance (paethEstimate a b c) a = paethDistance (paethEstimate a b c) b →
      paethDistance (paethEstimate a b c) a < paethDistance (paethEstimate a b c) c →
      a = b ∧ a ≠ c ∧ paethPredictor a b c = a) ∧
    (paethDistance (paethEstimate a b c) a = paethDistance (paethEstimate a b c) c →
      paethDistance (paethEstimate a b c) a < paethDistance (paethEstimate a b c) b → paethPredictor a b c = a) ∧
    (paethDistance (paethEstimate a b c) b = paethDistance (paethEstimate a b c) c →
      paethDistance (paethEstimate a b c) b < paethDistance (paethEstimate a b c) a → paethPredictor a b c = b) ∧
    (paethPredictor a b c ≠ a → paethPredictor a b c ≠ b →
      paethDistance (paethEstimate a b c) c < paethDistance (paethEstimate a b c) a ∧
      paethDistance (paethEstimate a b c) c < paethDistance (paethEstimate a b c) b) ∧
    (a = 0 → c = 0 → paethPredictor a b c = b) ∧
    (b = c → paethPredictor a b c = a)

/-- 41_unpack R157 (derived in the spec): the samples of one byte read back give the byte, so unpacking loses no bit. -/
def Obligations.UnpackedSamplesRestoreByte : Prop :=
  ∀ (d : Nat) (v : Byte), d = 1 ∨ d = 2 ∨ d = 4 →
    (subByteSamples d v).length = 8 / d ∧ (∀ x ∈ subByteSamples d v, x.toNat < 2 ^ d) ∧
    v.toNat = (subByteSamples d v).foldl (fun acc x => acc * 2 ^ d + x.toNat) 0

/-! ## The fourteen commands, from presentation to response -/

/-- 40_unfilter R116, the whole rule: encoding, errors before any output, and OUT equal to A. -/
def Obligations.UnfNoneReturnsRow : Prop :=
  ∀ (o : Operands) (s : State), o.WellFormed → Presented (.unfNone o) s →
    (encode (.unfNone o)).w0.toNat = 0x00000001 + (o.bpp % 65536).toNat * 65536 ∧
    (o.bpp ≤ 0 → FailsWith s .invalidStride) ∧
    (0 < o.bpp → o.lenB ≠ o.lenA → FailsWith s .lengthMismatch) ∧
    (0 < o.bpp → o.lenB = o.lenA → Supplied s.spaceA o.lenA →
      ∃ t, Completes (.unfNone o) s t ∧ SameElsewhere s t ∧ t.smp = s.smp ∧ t.left = s.left ∧
        WrittenPrefix t.out o.lenA ∧ ∀ k < o.lenA, Memory.read t.out k = Memory.read s.spaceA k)

/-- 40_unfilter R117, the whole rule: encoding, errors before any output, and
`OUT[k] = (A[k] + OUT[k - bpp]) mod 256` with 0 before the row's start, through the rolling entries of `left`, 0 at first. B
is not read. -/
def Obligations.UnfSubAddsByteBppBack : Prop :=
  ∀ (o : Operands) (s : State), o.WellFormed → Presented (.unfSub o) s →
    (encode (.unfSub o)).w0.toNat = 0x00000101 + (o.bpp % 65536).toNat * 65536 ∧
    (o.bpp ≤ 0 → FailsWith s .invalidStride) ∧
    (0 < o.bpp → o.lenB ≠ o.lenA → FailsWith s .lengthMismatch) ∧
    (0 < o.bpp → o.lenB = o.lenA → o.lenA = 0 → FailsWith s .invalidStride) ∧
    (0 < o.bpp → o.lenB = o.lenA → 0 < o.lenA → Supplied s.spaceA o.lenA →
      RollsLeft o s ∧
      ∃ t, Completes (.unfSub o) s t ∧ SameElsewhere s t ∧ t.smp = s.smp ∧ WrittenPrefix t.out o.lenA ∧
        ∀ k < o.lenA, (rowByte t.out k).toNat =
          ((rowByte s.spaceA k).toNat + (rowByte t.out (k - o.bpp)).toNat) % 256)

/-- 40_unfilter R118, the whole rule: encoding, errors before any output, and `OUT[k] = (A[k] + B[k]) mod 256`. -/
def Obligations.UnfUpAddsAboveRow : Prop :=
  ∀ (o : Operands) (s : State), o.WellFormed → Presented (.unfUp o) s →
    (encode (.unfUp o)).w0.toNat = 0x00000201 + (o.bpp % 65536).toNat * 65536 ∧
    (o.bpp ≤ 0 → FailsWith s .invalidStride) ∧
    (0 < o.bpp → o.lenB ≠ o.lenA → FailsWith s .lengthMismatch) ∧
    (0 < o.bpp → o.lenB = o.lenA → Supplied s.spaceA o.lenA → Supplied s.spaceB o.lenA →
      ∃ t, Completes (.unfUp o) s t ∧ SameElsewhere s t ∧ t.smp = s.smp ∧ t.left = s.left ∧
        WrittenPrefix t.out o.lenA ∧ ∀ k < o.lenA, (rowByte t.out k).toNat =
          ((rowByte s.spaceA k).toNat + (rowByte s.spaceB k).toNat) % 256)

/-- 40_unfilter R119, the whole rule: encoding, errors before any output, and
`OUT[k] = (A[k] + floor((OUT[k - bpp] + B[k]) / 2)) mod 256`, the inner sum exact, through the rolling entries of `left`. -/
def Obligations.UnfAvgAddsFloorAverage : Prop :=
  ∀ (o : Operands) (s : State), o.WellFormed → Presented (.unfAvg o) s →
    (encode (.unfAvg o)).w0.toNat = 0x00000301 + (o.bpp % 65536).toNat * 65536 ∧
    (o.bpp ≤ 0 → FailsWith s .invalidStride) ∧
    (0 < o.bpp → o.lenB ≠ o.lenA → FailsWith s .lengthMismatch) ∧
    (0 < o.bpp → o.lenB = o.lenA → o.lenA = 0 → FailsWith s .invalidStride) ∧
    (0 < o.bpp → o.lenB = o.lenA → 0 < o.lenA → Supplied s.spaceA o.lenA → Supplied s.spaceB o.lenA →
      RollsLeft o s ∧
      ∃ t, Completes (.unfAvg o) s t ∧ SameElsewhere s t ∧ t.smp = s.smp ∧ WrittenPrefix t.out o.lenA ∧
        ∀ k < o.lenA, (rowByte t.out k).toNat = ((rowByte s.spaceA k).toNat +
          ((rowByte t.out (k - o.bpp)).toNat + (rowByte s.spaceB k).toNat) / 2) % 256)

/-- 40_unfilter R120, the whole rule: encoding, errors before any output, and
`OUT[k] = (A[k] + PaethPredictor(OUT[k - bpp], B[k], B[k - bpp])) mod 256`, neighbours before the row's start being 0,
through the rolling entries of `left`. -/
def Obligations.UnfPaethAddsPredictor : Prop :=
  ∀ (o : Operands) (s : State), o.WellFormed → Presented (.unfPaeth o) s →
    (encode (.unfPaeth o)).w0.toNat = 0x00000401 + (o.bpp % 65536).toNat * 65536 ∧
    (o.bpp ≤ 0 → FailsWith s .invalidStride) ∧
    (0 < o.bpp → o.lenB ≠ o.lenA → FailsWith s .lengthMismatch) ∧
    (0 < o.bpp → o.lenB = o.lenA → o.lenA = 0 → FailsWith s .invalidStride) ∧
    (0 < o.bpp → o.lenB = o.lenA → 0 < o.lenA → Supplied s.spaceA o.lenA → Supplied s.spaceB o.lenA →
      RollsLeft o s ∧
      ∃ t, Completes (.unfPaeth o) s t ∧ SameElsewhere s t ∧ t.smp = s.smp ∧ WrittenPrefix t.out o.lenA ∧
        ∀ k < o.lenA, (rowByte t.out k).toNat = ((rowByte s.spaceA k).toNat +
          (paethPredictor (rowByte t.out (k - o.bpp)) (rowByte s.spaceB k)
            (rowByte s.spaceB (k - o.bpp))).toNat) % 256)

/-- 41_unpack R156, the whole rule, with the count of R158: no error, and eight samples a byte, bit 7 first. -/
def Obligations.Unp1ListsBits : Prop :=
  ∀ (o : Operands) (s : State), o.WellFormed → Presented (.unp1 o) s → Supplied s.spaceA o.lenA →
    (encode (.unp1 o)).w0 &&& 0x0000FFFF#32 = 0x00000102#32 ∧
    ∃ t, Completes (.unp1 o) s t ∧ SameElsewhere s t ∧ t.out = s.out ∧ WrittenPrefix t.smp (8 * o.lenA) ∧
      ∀ k < o.lenA, ∀ m < 8, ∃ x : Sample, Memory.read t.smp (8 * k + m) = some x ∧
        x.toNat = (rowByte s.spaceA k).toNat / 2 ^ (7 - m) % 2

/-- 41_unpack R155, the whole rule, with the count of R158: no error, and four samples a byte, the most significant pair
first. -/
def Obligations.Unp2ListsPairs : Prop :=
  ∀ (o : Operands) (s : State), o.WellFormed → Presented (.unp2 o) s → Supplied s.spaceA o.lenA →
    (encode (.unp2 o)).w0 &&& 0x0000FFFF#32 = 0x00000202#32 ∧
    ∃ t, Completes (.unp2 o) s t ∧ SameElsewhere s t ∧ t.out = s.out ∧ WrittenPrefix t.smp (4 * o.lenA) ∧
      ∀ k < o.lenA, ∃ x0 x1 x2 x3 : Sample,
        Memory.read t.smp (4 * k) = some x0 ∧ Memory.read t.smp (4 * k + 1) = some x1 ∧
        Memory.read t.smp (4 * k + 2) = some x2 ∧ Memory.read t.smp (4 * k + 3) = some x3 ∧
        x0.toNat = (rowByte s.spaceA k).toNat / 64 ∧ x1.toNat = (rowByte s.spaceA k).toNat / 16 % 4 ∧
        x2.toNat = (rowByte s.spaceA k).toNat / 4 % 4 ∧ x3.toNat = (rowByte s.spaceA k).toNat % 4

/-- 41_unpack R154, the whole rule, with the count of R158: no error, and two samples a byte, the high nibble first. -/
def Obligations.Unp4ListsNibbles : Prop :=
  ∀ (o : Operands) (s : State), o.WellFormed → Presented (.unp4 o) s → Supplied s.spaceA o.lenA →
    (encode (.unp4 o)).w0 &&& 0x0000FFFF#32 = 0x00000402#32 ∧
    ∃ t, Completes (.unp4 o) s t ∧ SameElsewhere s t ∧ t.out = s.out ∧ WrittenPrefix t.smp (2 * o.lenA) ∧
      ∀ k < o.lenA, ∃ x0 x1 : Sample,
        Memory.read t.smp (2 * k) = some x0 ∧ Memory.read t.smp (2 * k + 1) = some x1 ∧
        x0.toNat = (rowByte s.spaceA k).toNat / 16 ∧ x1.toNat = (rowByte s.spaceA k).toNat % 16

/-- 41_unpack R152, the whole rule, with the count of R158: no error, and one sample a byte, its value zero-extended. -/
def Obligations.Unp8CopiesBytes : Prop :=
  ∀ (o : Operands) (s : State), o.WellFormed → Presented (.unp8 o) s → Supplied s.spaceA o.lenA →
    (encode (.unp8 o)).w0 &&& 0x0000FFFF#32 = 0x00000802#32 ∧
    ∃ t, Completes (.unp8 o) s t ∧ SameElsewhere s t ∧ t.out = s.out ∧ WrittenPrefix t.smp o.lenA ∧
      ∀ k < o.lenA, ∃ x : Sample, Memory.read t.smp k = some x ∧ x.toNat = (rowByte s.spaceA k).toNat

/-- 41_unpack R153, the whole rule, with the count of R158 (the error for an odd LEN_A is D18): one sample for two bytes,
big-endian. -/
def Obligations.Unp16JoinsBytesBigEndian : Prop :=
  ∀ (o : Operands) (s : State), o.WellFormed → Presented (.unp16 o) s →
    (encode (.unp16 o)).w0 &&& 0x0000FFFF#32 = 0x00001002#32 ∧
    (o.lenA % 2 = 1 → FailsWith s .illegalCommand) ∧
    (o.lenA % 2 = 0 → Supplied s.spaceA o.lenA →
      ∃ t, Completes (.unp16 o) s t ∧ SameElsewhere s t ∧ t.out = s.out ∧ WrittenPrefix t.smp (o.lenA / 2) ∧
        ∀ k < o.lenA / 2, ∃ x : Sample, Memory.read t.smp k = some x ∧
          x.toNat = (rowByte s.spaceA ((2 * k : Nat) : Int)).toNat * 256 +
            (rowByte s.spaceA ((2 * k + 1 : Nat) : Int)).toNat)

/-- 42_helpers R172 (the error is D19): the carry is discarded. That `left` is as before in the IDLE core after the run is
the model's choice (log 3). -/
def Obligations.AddbAddsLanes : Prop :=
  ∀ (o : Operands) (s : State), o.WellFormed → Presented (.addb o) s →
    (encode (.addb o)).w0 &&& 0x0000FFFF#32 = 0x00000003#32 ∧
    (o.lenB ≠ o.lenA → FailsWith s .lengthMismatch) ∧
    (o.lenB = o.lenA → Supplied s.spaceA o.lenA → Supplied s.spaceB o.lenA →
      ∃ t, Completes (.addb o) s t ∧ SameElsewhere s t ∧ t.smp = s.smp ∧ t.left = s.left ∧
        WrittenPrefix t.out o.lenA ∧ ∀ k < o.lenA, (rowByte t.out k).toNat =
          ((rowByte s.spaceA k).toNat + (rowByte s.spaceB k).toNat) % 256)

/-- 42_helpers R173 (the operand order is D20, the error D19): A minus B, the borrow discarded. That `left` is as before
in the IDLE core after the run is the model's choice (log 3). -/
def Obligations.SubbSubtractsLanes : Prop :=
  ∀ (o : Operands) (s : State), o.WellFormed → Presented (.subb o) s →
    (encode (.subb o)).w0 &&& 0x0000FFFF#32 = 0x00000103#32 ∧
    (o.lenB ≠ o.lenA → FailsWith s .lengthMismatch) ∧
    (o.lenB = o.lenA → Supplied s.spaceA o.lenA → Supplied s.spaceB o.lenA →
      ∃ t, Completes (.subb o) s t ∧ SameElsewhere s t ∧ t.smp = s.smp ∧ t.left = s.left ∧
        WrittenPrefix t.out o.lenA ∧ ∀ k < o.lenA, ((rowByte t.out k).toNat : Int) =
          (((rowByte s.spaceA k).toNat : Int) - ((rowByte s.spaceB k).toNat : Int)) % 256)

/-- 42_helpers R174 (returning the predictor alone is D21, the error D19): the exact sum, halved and rounded down.
That `left` is as before in the IDLE core after the run is the model's choice (log 3). -/
def Obligations.AvgbAveragesLanes : Prop :=
  ∀ (o : Operands) (s : State), o.WellFormed → Presented (.avgb o) s →
    (encode (.avgb o)).w0 &&& 0x0000FFFF#32 = 0x00000203#32 ∧
    (o.lenB ≠ o.lenA → FailsWith s .lengthMismatch) ∧
    (o.lenB = o.lenA → Supplied s.spaceA o.lenA → Supplied s.spaceB o.lenA →
      ∃ t, Completes (.avgb o) s t ∧ SameElsewhere s t ∧ t.smp = s.smp ∧ t.left = s.left ∧
        WrittenPrefix t.out o.lenA ∧ ∀ k < o.lenA, (rowByte t.out k).toNat =
          ((rowByte s.spaceA k).toNat + (rowByte s.spaceB k).toNat) / 2)

/-- 42_helpers R175 (returning the predictor alone is D21, the errors D19): the Paeth choice of the three lanes. That
`left` is as before in the IDLE core after the run is the model's choice (log 3). -/
def Obligations.PaethbSelectsLanes : Prop :=
  ∀ (o : Operands) (s : State), o.WellFormed → Presented (.paethb o) s →
    (encode (.paethb o)).w0 &&& 0x0000FFFF#32 = 0x00000303#32 ∧
    (o.lenB ≠ o.lenA → FailsWith s .lengthMismatch) ∧
    (o.lenB = o.lenA → o.lenC ≠ o.lenA → FailsWith s .lengthMismatch) ∧
    (o.lenB = o.lenA → o.lenC = o.lenA → Supplied s.spaceA o.lenA → Supplied s.spaceB o.lenA →
      Supplied s.spaceC o.lenA →
      ∃ t, Completes (.paethb o) s t ∧ SameElsewhere s t ∧ t.smp = s.smp ∧ t.left = s.left ∧
        WrittenPrefix t.out o.lenA ∧ ∀ k < o.lenA, rowByte t.out k =
          paethPredictor (rowByte s.spaceA k) (rowByte s.spaceB k) (rowByte s.spaceC k))

/-! ## Properties of whole commands -/

/-- 40_unfilter R124: filtering and unfiltering are exact inverses, for every filter type, row, above row and stride that
pass R111. -/
def Obligations.UnfilterInvertsForwardFilter : Prop :=
  ∀ (i : Instr) (o : Operands) (s : State) (raw above : List Byte),
    i = .unfNone o ∨ i = .unfSub o ∨ i = .unfUp o ∨ i = .unfAvg o ∨ i = .unfPaeth o →
    i.Valid → raw.length = o.lenA → above.length = o.lenA → Presented i s →
    s.spaceA = Memory.ofList (forwardFilter i raw above) → s.spaceB = Memory.ofList above →
    ∃ t, Completes i s t ∧ t.out = Memory.ofList raw

/-- 40_unfilter R126 (derived in the spec; that the command is valid is D16): with a stride above the row length every
left and upper-left neighbour is 0. -/
def Obligations.StrideLargerThanRow : Prop :=
  ∀ (o : Operands) (s : State), o.WellFormed → 0 < o.lenA → o.lenB = o.lenA → (o.lenA : Int) < o.bpp →
    Supplied s.spaceA o.lenA → Supplied s.spaceB o.lenA →
    (Presented (.unfSub o) s → ∃ t, Completes (.unfSub o) s t ∧ WrittenPrefix t.out o.lenA ∧
      ∀ k < o.lenA, rowByte t.out k = rowByte s.spaceA k) ∧
    (Presented (.unfAvg o) s → ∃ t, Completes (.unfAvg o) s t ∧ WrittenPrefix t.out o.lenA ∧
      ∀ k < o.lenA, (rowByte t.out k).toNat =
        ((rowByte s.spaceA k).toNat + (rowByte s.spaceB k).toNat / 2) % 256) ∧
    (Presented (.unfPaeth o) s → ∃ t, Completes (.unfPaeth o) s t ∧ WrittenPrefix t.out o.lenA ∧
      ∀ k < o.lenA, (rowByte t.out k).toNat =
        ((rowByte s.spaceA k).toNat + (rowByte s.spaceB k).toNat) % 256)

/-- 42_helpers R177 (the exact form is derived in the spec): UNF.SUB sums each stride group modulo 256. -/
def Obligations.SubIsChainedSumPerStrideGroup : Prop :=
  ∀ (o : Operands) (s t : State) (g m : Nat), o.WellFormed → Completes (.unfSub o) s t →
    g < o.bpp.toNat → g + m * o.bpp.toNat < o.lenA →
    (rowByte t.out ((g + m * o.bpp.toNat : Nat) : Int)).toNat =
      ((List.range (m + 1)).map fun (q : Nat) =>
        (rowByte s.spaceA ((g + q * o.bpp.toNat : Nat) : Int)).toNat).sum % 256

/-- 42_helpers R176, first and second identity (derived in the spec): UNF.UP is ADDB of the row and the above row; UNF.SUB
is ADDB of the row and the shifted result. -/
def Obligations.UpAndSubAreHelperAdds : Prop :=
  ∀ (o o' : Operands) (s t s' t' : State) (res : List Byte), o.WellFormed → o'.WellFormed → o'.lenA = o.lenA →
    t.out = Memory.ofList res → Completes (.addb o') s' t' → s'.spaceA = s.spaceA →
    (Completes (.unfUp o) s t → s'.spaceB = s.spaceB → t'.out = t.out) ∧
    (Completes (.unfSub o) s t → s'.spaceB = Memory.ofList (shiftRow o.bpp.toNat res) → t'.out = t.out)

/-- 42_helpers R176, third and fourth identity (derived in the spec): UNF.AVG is ADDB of the row and AVGB of the shifted
result and the above row; UNF.PAETH is ADDB of the row and PAETHB of the shifted result, the above row and the shifted
above row. -/
def Obligations.AvgAndPaethAreHelperCompositions : Prop :=
  ∀ (o p q : Operands) (s t u v s' t' : State) (res above : List Byte), o.WellFormed → p.WellFormed → q.WellFormed →
    p.lenA = o.lenA → q.lenA = o.lenA → t.out = Memory.ofList res → s.spaceB = Memory.ofList above →
    above.length = o.lenA → u.spaceA = Memory.ofList (shiftRow o.bpp.toNat res) → u.spaceB = s.spaceB →
    u.spaceC = Memory.ofList (shiftRow o.bpp.toNat above) →
    Completes (.addb q) s' t' → s'.spaceA = s.spaceA → s'.spaceB = v.out →
    (Completes (.unfAvg o) s t → Completes (.avgb p) u v → t'.out = t.out) ∧
    (Completes (.unfPaeth o) s t → Completes (.paethb p) u v → t'.out = t.out)

/-- 10_state R32 (also 40_unfilter R127, 41_unpack R160): nothing is retained from one command to the next; a command's
outcome is a function of its descriptor and of its operands alone. Two idle cores that differ in everything an earlier
command could have left, and in what the spaces hold past the operands' lengths, give the same error, or the same result. -/
def Obligations.OutcomeIgnoresHistory : Prop :=
  ∀ (i : Instr) (s s' : State), i.WellFormed → Presented i s → Presented i s' →
    (∀ k < i.operands.lenA, Memory.read s'.spaceA k = Memory.read s.spaceA k) →
    (∀ k < i.operands.lenB, Memory.read s'.spaceB k = Memory.read s.spaceB k) →
    (∀ k < i.operands.lenC, Memory.read s'.spaceC k = Memory.read s.spaceC k) →
    (∀ k, FailsWith s k → FailsWith s' k) ∧
    (∀ t, Completes i s t → ∃ t', Completes i s' t' ∧ (i.writesOut = true → t'.out = t.out) ∧
      (i.writesOut = false → t'.smp = t.smp))

/-- 30_encoding R90 (D30): BPP is ignored by UNP and HLP, LEN_B and space B by UNP, LEN_C and space C by every command but
PAETHB: two descriptors that differ only in ignored fields, over spaces that differ only in ignored ones, end with the same
response and the same result. -/
def Obligations.IgnoredFieldsHaveNoEffect : Prop :=
  ∀ (i i' : Instr) (s s' : State), i.WellFormed → i'.WellFormed → i'.opcField = i.opcField →
    i'.selField = i.selField → i'.operands.lenA = i.operands.lenA →
    (i.opcField = 1#4 → i'.operands.bpp = i.operands.bpp) →
    (i.opcField ≠ 2#4 → i'.operands.lenB = i.operands.lenB ∧ s'.spaceB = s.spaceB) →
    (i.opcField = 3#4 → i.selField = 3#8 → i'.operands.lenC = i.operands.lenC ∧ s'.spaceC = s.spaceC) →
    Presented i s → Presented i' s' → s'.spaceA = s.spaceA →
    (∀ k, FailsWith s k → FailsWith s' k) ∧
    (∀ t, Completes i s t → ∃ t', Completes i' s' t' ∧ (i.writesOut = true → t'.out = t.out) ∧
      (i.writesOut = false → t'.smp = t.smp))

/-! ## The invariant and what follows from it -/

/-- The invariant holds right after reset. -/
def Obligations.InvariantHoldsAtReset : Prop := Inv State.reset

/-- The invariant is kept by every step, whatever the HOST does: the spaces stay canonical (20_memory R50), the latch of a
running command stays a command that passed its checks (10_state R21), `i` stays at most LEN_A (10_state R23), the written
part of the result space follows the closed forms (20_memory R53, 40_unfilter R123, 41_unpack R157), `left` holds the
byte of OUT R26 names. -/
def Obligations.StepKeepsInvariant : Prop :=
  ∀ s t : State, Inv s → step s = .next t → Inv t

/-- 10_state R35, 70_reset R230 (D26): after reset PHASE is IDLE and no response is pending; the core's first step is the
acceptance of a command, so that with a descriptor presented it is accepted at once (70_reset R233). -/
def Obligations.ResetAcceptsFirstCommand : Prop :=
  State.reset.phase = .idle ∧ State.reset.responses = [] ∧
  ∀ d : Descriptor, ∃ t, step { State.reset with commands := [d] } = .next t ∧ t.commands = [] ∧
    (t.phase = .run ↔ d.firstError = none)

/-- 60_exceptions R211 (also 40_unfilter R122, 41_unpack R161, 42_helpers R171): no step of a running command can fail,
whatever the operand bytes are: it goes on and sends no error response. That the HOST has supplied what the command reads is
a premise (log 4). -/
def Obligations.RunningCoreNeverStops : Prop :=
  ∀ (i : Instr) (s : State), Running i s → Quiet s → s.phase = .run → OperandsSupplied i s →
    ∃ t, step s = .next t ∧ (t.responses = s.responses ∨ t.responses = s.responses ++ [statusWord .ok])

/-- 70_reset R240, R241 (steps are D32, fairness D39): a running command completes after exactly the byte steps that are
left and one completion, with one response OK. The premises: the running invariant, reset released, no HOST action pending,
the operands supplied (log 4). That completion is a transition of its own is log 1. -/
def Obligations.RunningCommandSendsItsResponse : Prop :=
  ∀ (i : Instr) (s : State), Running i s → Quiet s → s.phase = .run → OperandsSupplied i s →
    ∃ t, run ((s.latch.lenA.toNat - s.idx) / i.indexStep + 1) s = .next t ∧ t.phase = .idle ∧
      t.responses = s.responses ++ [statusWord .ok]

/-- 10_state R26 (derived in the spec), 40_unfilter R114: the predictor entry a step reads is the byte of OUT bpp positions
back, and 0 before the row's start. -/
def Obligations.LeftEntryIsOutBppBack : Prop :=
  ∀ (i : Instr) (s : State), Running i s → i.usesLeft = true → s.idx < s.latch.lenA.toNat →
    s.left[s.idx % s.latch.bpp.toInt.toNat]? = some (rowByte s.out ((s.idx : Int) - s.latch.bpp.toInt))

/-- 10_state R36: the core never writes an operand space, in any step. -/
def Obligations.CoreNeverWritesOperands : Prop :=
  ∀ s t : State, s.script = [] → step s = .next t →
    t.spaceA = s.spaceA ∧ t.spaceB = s.spaceB ∧ t.spaceC = s.spaceC

/-- 20_memory R53 (D23): within a command each result element is written once, in ascending order with no gaps: the next
step writes only elements that were unwritten, and what is written is again a prefix. -/
def Obligations.ResultIsWrittenOnceInOrder : Prop :=
  ∀ (i : Instr) (s t : State), Running i s → Quiet s → s.phase = .run → step s = .next t →
    (∀ k x, Memory.read s.out k = some x → Memory.read t.out k = some x) ∧
    (∀ k x, Memory.read s.smp k = some x → Memory.read t.smp k = some x) ∧
    (i.writesOut = true → WrittenPrefix t.out (i.resultCount t.idx) ∧ t.smp = s.smp) ∧
    (i.writesOut = false → WrittenPrefix t.smp (i.resultCount t.idx) ∧ t.out = s.out)

/-- 10_state R21 (no error phase: D24), 10_state R28: the core leaves IDLE only by accepting a valid command; it leaves RUN
only at `i = LEN_A`, with the one response OK; it sends no other response from RUN, and from IDLE only an error response
that leaves it in IDLE. -/
def Obligations.PhaseChangesOnlyAsRuled : Prop :=
  ∀ s t : State, Inv s → Quiet s → step s = .next t →
    (s.phase = .idle →
      (t.phase = .run ↔ ∃ d, s.commands.head? = some d ∧ d.firstError = none) ∧
      (t.responses = s.responses ∨ ∃ k, t.phase = .idle ∧ t.responses = s.responses ++ [statusWord (.error k)])) ∧
    (s.phase = .run →
      (t.phase = .idle ↔ s.idx = s.latch.lenA.toNat) ∧
      (t.phase = .idle → t.responses = s.responses ++ [statusWord .ok]) ∧
      (t.phase = .run → t.responses = s.responses))

/-- The canonical form is one form: two index spaces whose elements agree are the same list (log 4). -/
def Obligations.EqualElementsEqualSpaces : Prop :=
  ∀ (w : Nat) (m m' : Memory w), Memory.wf m = true → Memory.wf m' = true →
    (∀ k, Memory.read m k = Memory.read m' k) → m = m'

/-! ## The HOST's side -/

/-- 70_reset R237 (D29): a descriptor presented while a command runs is not accepted and changes nothing of the core, the
channel holds it behind those presented before, no step of the running command touches the channel, and running any
other command than the one in progress does nothing (log 11). -/
def Obligations.PresentedCommandsWaitInOrder : Prop :=
  (∀ (s : State) (d : Descriptor) (rest : List HostAction), s.script = .present d :: rest →
    step s = .next { s with script := rest, commands := s.commands ++ [d] }) ∧
  (∀ s t : State, s.script = [] → s.phase = .run → step s = .next t → t.commands = s.commands) ∧
  (∀ (i : Instr) (s : State), s.phase = .run → s.latch ≠ i.latch → exec i s = .next s)

/-- 20_memory R64 (D28), 10_state R29: a change of an operand space the running command uses is refused; in every other case
the space takes the bytes and nothing else changes. -/
def Obligations.OperandsAreStableWhileRunning : Prop :=
  ∀ (s : State) (rest : List HostAction) (bytes : List Byte),
    (∀ sp, s.script = .supply sp bytes :: rest → s.phase = .run → usesSpace s.latch sp = true →
      step s = .refused (.operandChanged sp)) ∧
    (s.script = .supply .a bytes :: rest → ¬ (s.phase = .run ∧ usesSpace s.latch .a = true) →
      step s = .next { s with script := rest, spaceA := Memory.ofList bytes }) ∧
    (s.script = .supply .b bytes :: rest → ¬ (s.phase = .run ∧ usesSpace s.latch .b = true) →
      step s = .next { s with script := rest, spaceB := Memory.ofList bytes }) ∧
    (s.script = .supply .c bytes :: rest → ¬ (s.phase = .run ∧ usesSpace s.latch .c = true) →
      step s = .next { s with script := rest, spaceC := Memory.ofList bytes })

/-- 20_memory R64 (D28; that R64 is followed where R67 says the change has no effect is log 23), 10_state R22: storing other
words than the running command's in the HOST's copy of its descriptor is refused; storing the same words, or any words in
IDLE, goes on and changes nothing of the core, the spaces or the channels. Once a command has started, the copy is the
descriptor that was presented. -/
def Obligations.DescriptorWordsAreStableWhileRunning : Prop :=
  (∀ (s : State) (rest : List HostAction) (d : Descriptor), s.script = .changeWords d :: rest →
    (s.phase = .run → d ≠ hostWords s → step s = .refused .descriptorChanged) ∧
    (s.phase = .run → d = hostWords s → step s = .next { s with script := rest }) ∧
    (s.phase = .idle → step s = .next { s with script := rest })) ∧
  ∀ (s t : State) (d : Descriptor), Quiet s → s.phase = .idle → s.commands.head? = some d → step s = .next t →
    t.phase = .run → hostWords t = d

/-- 10_state R37 (D23): a HOST read of a result element the core has not written faults, and one of a written element
goes on and changes nothing. -/
def Obligations.UnwrittenResultReadFaults : Prop :=
  ∀ (s : State) (k : Nat) (rest : List HostAction),
    (s.script = .readOut k :: rest → Memory.read s.out k = none → step s = .fault (.unwrittenResult k)) ∧
    (s.script = .readSmp k :: rest → Memory.read s.smp k = none → step s = .fault (.unwrittenResult k)) ∧
    (∀ x, s.script = .readOut k :: rest → Memory.read s.out k = some x → step s = .next { s with script := rest }) ∧
    (∀ x, s.script = .readSmp k :: rest → Memory.read s.smp k = some x → step s = .next { s with script := rest })

/-- 20_memory R65 and R70 (D23; the record `outReady` is log 14): the OUT of a finished command becomes an operand only once
its OK response has been taken; before that, and after a reset cut the command short, the use is refused. -/
def Obligations.ResultReuseNeedsTakenResponse : Prop :=
  ∀ (s : State) (rest : List HostAction),
    (∀ n, s.script = .reuseOut .b :: rest → s.outReady = some n → n ≤ s.received.length → s.phase = .idle →
      step s = .next { s with script := rest, spaceB := s.out }) ∧
    (∀ n, s.script = .reuseOut .a :: rest → s.outReady = some n → n ≤ s.received.length → s.phase = .idle →
      step s = .next { s with script := rest, spaceA := s.out }) ∧
    (∀ sp, s.script = .reuseOut sp :: rest → (∀ n, s.outReady = some n → s.received.length < n) →
      step s = .refused .resultNotReady)

/-- 20_memory R65, R70 (the record `outReady` is the model's own, log 14): the record holds at reset and every step keeps it
true to the responses, whatever the HOST does, so that a reuse of OUT that goes on follows an OK the HOST has received. -/
def Obligations.ReuseFollowsReceivedOk : Prop :=
  ReadyRecordTrue State.reset ∧ (∀ s t : State, ReadyRecordTrue s → step s = .next t → ReadyRecordTrue t) ∧
  ∀ (s t : State) (sp : OperandSpace) (rest : List HostAction), ReadyRecordTrue s → s.script = .reuseOut sp :: rest →
    step s = .next t → statusWord .ok ∈ s.received

/-- 10_state R28, 20_memory R65 (D23, D24): the HOST that waits takes the oldest response, and while there is none the core
goes on. -/
def Obligations.AwaitTakesOldestResponse : Prop :=
  ∀ (s : State) (rest : List HostAction), s.script = .await :: rest →
    (∀ r more, s.responses = r :: more →
      step s = .next { s with script := rest, responses := more, received := s.received ++ [r] }) ∧
    (s.responses = [] → step s = coreStep s)

/-- 70_reset R230 and R232 (D26, D27): asserting reset abandons a running command without a response, empties the response
channel and leaves the operand and result spaces as they are. What the latch, `i` and `left` then hold is not stated
(log 2). That the command channel is kept is log 9, that the core takes no step until release is log 21, and the record
`outReady`, kept only where the HOST has taken its OK, is log 14. -/
def Obligations.ResetAbandonsCommand : Prop :=
  (∀ (s : State) (rest : List HostAction), s.script = .assertReset :: rest →
    ∃ t, step s = .next t ∧ t.phase = .idle ∧ t.responses = [] ∧ t.rst = true ∧ t.script = rest ∧
      t.spaceA = s.spaceA ∧ t.spaceB = s.spaceB ∧ t.spaceC = s.spaceC ∧ t.out = s.out ∧ t.smp = s.smp ∧
      t.received = s.received ∧ t.commands = s.commands ∧
      (∀ n, t.outReady = some n ↔ s.outReady = some n ∧ n ≤ s.received.length)) ∧
  (∀ s : State, s.script = [] → s.rst = true → step s = .next s) ∧
  (∀ (s : State) (rest : List HostAction), s.script = .releaseReset :: rest →
    step s = .next { s with script := rest, rst := false })
end

