-- ==== Sys2Proof/Laws/Codec.lean ====
section
/-! SUPPORT. The fields of an encoded descriptor, and what the decoder does with the fields of a command. -/

namespace Sys2Proof

/-! ## Fields of an encoded descriptor -/

@[simp] theorem Latch.descriptor_rsv (l : Latch) : l.descriptor.rsv = 0#4 := by
  apply BitVec.eq_of_getLsbD_eq
  intro i hi
  simp only [Descriptor.rsv, Latch.descriptor, BitVec.getLsbD_extractLsb', BitVec.getLsbD_append]
  simp only [show ¬ 4 + i < 4 by omega, hi, show 4 + i < 4 + 4 by omega, show 4 + i < 8 + (4 + 4) by omega]
  simp

@[simp] theorem Latch.descriptor_latch (l : Latch) : l.descriptor.latch = l := by
  obtain ⟨opc, sel, bpp, lenA, lenB, lenC⟩ := l
  simp only [Descriptor.latch, Latch.descriptor, Latch.mk.injEq, and_true]
  refine ⟨?_, ?_, ?_⟩
  · apply BitVec.eq_of_getLsbD_eq
    intro i hi
    simp only [BitVec.getLsbD_extractLsb', BitVec.getLsbD_append]
    simp [hi, show i < 4 + 4 by omega, show i < 8 + (4 + 4) by omega]
  · apply BitVec.eq_of_getLsbD_eq
    intro i hi
    simp only [BitVec.getLsbD_extractLsb', BitVec.getLsbD_append]
    simp [hi, show ¬ 8 + i < 4 + 4 by omega, show 8 + i < 8 + (4 + 4) by omega]
  · apply BitVec.eq_of_getLsbD_eq
    intro i hi
    simp only [BitVec.getLsbD_extractLsb', BitVec.getLsbD_append]
    simp [hi, show ¬ 16 + i < 16 by omega]

@[simp] theorem encode_latch (i : Instr) : (encode i).latch = i.latch := Latch.descriptor_latch _

@[simp] theorem encode_rsv (i : Instr) : (encode i).rsv = 0#4 := Latch.descriptor_rsv _

@[simp] theorem encode_w1 (i : Instr) : (encode i).w1 = BitVec.ofNat 32 i.operands.lenA := rfl

@[simp] theorem encode_w2 (i : Instr) : (encode i).w2 = BitVec.ofNat 32 i.operands.lenB := rfl

@[simp] theorem encode_w3 (i : Instr) : (encode i).w3 = BitVec.ofNat 32 i.operands.lenC := rfl

/-- W0 as a number: `OPC + SEL * 256 + BPP * 65536` (30_encoding R81, R95). -/
theorem Latch.descriptor_w0_toNat (l : Latch) :
    l.descriptor.w0.toNat = l.opc.toNat + l.sel.toNat * 256 + l.bpp.toNat * 65536 := by
  have h1 : l.opc.toNat < 2 ^ 4 := l.opc.isLt
  have h2 : l.sel.toNat < 2 ^ 8 := l.sel.isLt
  simp only [Latch.descriptor, BitVec.toNat_append]
  rw [← Nat.shiftLeft_add_eq_or_of_lt (b := l.opc.toNat) (by omega),
    ← Nat.shiftLeft_add_eq_or_of_lt (i := 4 + 4) (by simp; omega),
    ← Nat.shiftLeft_add_eq_or_of_lt (i := 8 + (4 + 4)) (by simp [Nat.shiftLeft_eq]; omega)]
  simp [Nat.shiftLeft_eq]; omega

end Sys2Proof
end

