-- ==== Sys2Proof/Laws/Memory.lean ====
section
/-! SUPPORT. The laws of the index spaces: read after write, the canonical form, consecutive writes, written prefixes. -/

namespace Sys2Proof.Machine

variable {w : Nat}

@[simp] theorem memory_read_nil (n : Nat) : Memory.read ([] : Memory w) n = none := rfl

theorem memory_read_cons (k n : Nat) (v : BitVec w) (m : Memory w) :
    Memory.read ((k, v) :: m) n = if n = k then some v else Memory.read m n := rfl

/-- A read after a write to the same index gives the value written. -/
@[simp] theorem memory_read_write_same (m : Memory w) (n : Nat) (x : BitVec w) :
    Memory.read (Memory.write m n x) n = some x := by
  induction m with
  | nil => simp [Memory.write, Memory.read]
  | cons c m ih =>
    obtain ⟨k, v⟩ := c
    simp only [Memory.write]
    split
    · simp [Memory.read]
    · split
      · simp [Memory.read]
      · next _ hne => simp [Memory.read, hne, ih]

/-- A write leaves every other index alone. -/
theorem memory_read_write_other (m : Memory w) {n k : Nat} (x : BitVec w) (h : k ≠ n) :
    Memory.read (Memory.write m n x) k = Memory.read m k := by
  induction m with
  | nil => simp [Memory.write, Memory.read, h]
  | cons c m ih =>
    obtain ⟨j, v⟩ := c
    simp only [Memory.write]
    split
    · simp [Memory.read, h]
    · split
      · next _ heq => subst heq; simp [Memory.read, h]
      · simp [Memory.read, ih]

theorem memory_read_write (m : Memory w) (n k : Nat) (x : BitVec w) :
    Memory.read (Memory.write m n x) k = if k = n then some x else Memory.read m k := by
  by_cases h : k = n
  · subst h; simp
  · simp [h, memory_read_write_other m x h]

/-! ## The canonical form -/

theorem risingFrom_mono {lo lo' : Nat} (h : lo' ≤ lo) :
    ∀ {m : Memory w}, Memory.risingFrom lo m = true → Memory.risingFrom lo' m = true
  | [], _ => rfl
  | (k, v) :: m, hm => by
    simp only [Memory.risingFrom, Bool.and_eq_true, decide_eq_true_eq] at hm ⊢
    exact ⟨Nat.le_trans h hm.1, hm.2⟩

theorem risingFrom_write {lo n : Nat} (hn : lo ≤ n) (x : BitVec w) {m : Memory w}
    (hm : Memory.risingFrom lo m = true) : Memory.risingFrom lo (Memory.write m n x) = true := by
  induction m generalizing lo with
  | nil => simp [Memory.write, Memory.risingFrom, hn]
  | cons c m ih =>
    obtain ⟨k, v⟩ := c
    simp only [Memory.risingFrom, Bool.and_eq_true, decide_eq_true_eq] at hm
    simp only [Memory.write]
    split
    · next hlt => simp [Memory.risingFrom, hn, Nat.succ_le_of_lt hlt, hm.2]
    · split
      · next heq => subst heq; simp [Memory.risingFrom, hn, hm.2]
      · next h1 h2 => simp [Memory.risingFrom, hm.1, ih (by omega : k + 1 ≤ n) hm.2]

/-- A write keeps the canonical form. -/
theorem memory_wf_write {m : Memory w} (n : Nat) (x : BitVec w) (hm : Memory.wf m = true) :
    Memory.wf (Memory.write m n x) = true :=
  risingFrom_write (Nat.zero_le n) x hm

/-- Consecutive writes keep the canonical form. -/
theorem memory_wf_writeFrom (xs : List (BitVec w)) : ∀ {m : Memory w} (k : Nat), Memory.wf m = true →
    Memory.wf (Memory.writeFrom m k xs) = true := by
  induction xs with
  | nil => intro m k hm; exact hm
  | cons x xs ih => intro m k hm; exact ih (k + 1) (memory_wf_write k x hm)

/-- A byte sequence is a canonical index space. -/
theorem memory_wf_ofList (xs : List (BitVec w)) : Memory.wf (Memory.ofList xs) = true :=
  memory_wf_writeFrom xs 0 rfl

/-! ## Consecutive writes -/

theorem memory_read_writeFrom (xs : List (BitVec w)) : ∀ (m : Memory w) (k n : Nat),
    Memory.read (Memory.writeFrom m k xs) n = if k ≤ n ∧ n < k + xs.length then xs[n - k]? else Memory.read m n := by
  induction xs with
  | nil => intro m k n; simp only [Memory.writeFrom, List.length_nil]; rw [if_neg (by omega)]
  | cons x xs ih =>
    intro m k n
    rw [Memory.writeFrom, ih, memory_read_write]
    simp only [List.length_cons]
    by_cases h1 : k + 1 ≤ n ∧ n < k + 1 + xs.length
    · have hnk : n - k = (n - (k + 1)) + 1 := by omega
      rw [if_pos h1, if_pos (by omega), hnk, List.getElem?_cons_succ]
    · rw [if_neg h1]
      by_cases h2 : n = k
      · subst h2; simp
      · rw [if_neg h2, if_neg (by omega)]

/-- The element of a byte sequence at an index. -/
theorem memory_read_ofList (xs : List (BitVec w)) (n : Nat) : Memory.read (Memory.ofList xs) n = xs[n]? := by
  rw [Memory.ofList, memory_read_writeFrom]
  by_cases h : n < xs.length
  · simp [h]
  · rw [if_neg (by omega), List.getElem?_eq_none (by omega)]; rfl

/-! ## Written prefixes -/

theorem write_append {m : Memory w} {n : Nat} (x : BitVec w) (h : ∀ c ∈ m, c.1 < n) :
    Memory.write m n x = m ++ [(n, x)] := by
  induction m with
  | nil => rfl
  | cons c m ih =>
    obtain ⟨k, v⟩ := c
    have hk : k < n := h (k, v) (by simp)
    simp only [Memory.write]
    rw [if_neg (by omega), if_neg (by omega), ih (fun c hc => h c (by simp [hc]))]; rfl

theorem writtenPrefix_lt {m : Memory w} {n : Nat} (h : WrittenPrefix m n) : ∀ c ∈ m, c.1 < n := by
  intro c hc
  have : c.1 ∈ m.map Prod.fst := List.mem_map_of_mem hc
  rw [h] at this
  exact List.mem_range.1 this

/-- Writing the next element extends the written prefix by it. -/
theorem writtenPrefix_write {m : Memory w} {n : Nat} (x : BitVec w) (h : WrittenPrefix m n) :
    WrittenPrefix (Memory.write m n x) (n + 1) := by
  unfold WrittenPrefix at *
  rw [write_append x (writtenPrefix_lt h), List.map_append, h, List.range_succ]; rfl

/-- Writing the next elements extends the written prefix by them. -/
theorem writtenPrefix_writeFrom (xs : List (BitVec w)) : ∀ {m : Memory w} {n : Nat}, WrittenPrefix m n →
    WrittenPrefix (Memory.writeFrom m n xs) (n + xs.length) := by
  induction xs with
  | nil => intro m n h; exact h
  | cons x xs ih =>
    intro m n h
    have := ih (writtenPrefix_write x h)
    rwa [List.length_cons, Nat.add_comm xs.length 1, ← Nat.add_assoc]

theorem memory_read_eq_none {m : Memory w} {k : Nat} (h : k ∉ m.map Prod.fst) : Memory.read m k = none := by
  induction m with
  | nil => rfl
  | cons c m ih =>
    obtain ⟨j, v⟩ := c
    simp only [List.map_cons, List.mem_cons, not_or] at h
    rw [memory_read_cons, if_neg h.1, ih h.2]

/-- Nothing is listed past a written prefix. -/
theorem writtenPrefix_read_none {m : Memory w} {n k : Nat} (h : WrittenPrefix m n) (hk : n ≤ k) :
    Memory.read m k = none := by
  apply memory_read_eq_none
  rw [h]; simpa using hk

theorem writtenPrefix_ofList (xs : List (BitVec w)) : WrittenPrefix (Memory.ofList xs) xs.length := by
  have := writtenPrefix_writeFrom xs (m := ([] : Memory w)) (n := 0) rfl
  rwa [Nat.zero_add] at this

/-- A written prefix is determined by its elements. -/
theorem writtenPrefix_ext : ∀ {m m' : Memory w} {n : Nat}, WrittenPrefix m n → WrittenPrefix m' n →
    (∀ k < n, Memory.read m k = Memory.read m' k) → m = m' := by
  intro m m' n h h' hr
  induction n generalizing m m' with
  | zero =>
    have e : m = [] := by simpa [WrittenPrefix] using h
    have e' : m' = [] := by simpa [WrittenPrefix] using h'
    rw [e, e']
  | succ n ih =>
    have split : ∀ {m : Memory w}, WrittenPrefix m (n + 1) →
        ∃ q x, m = Memory.write q n x ∧ WrittenPrefix q n := by
      intro m h
      unfold WrittenPrefix at h
      rw [List.range_succ, List.map_eq_append_iff] at h
      obtain ⟨q, c, rfl, hq, hc⟩ := h
      obtain ⟨⟨j, x⟩, rfl, rfl⟩ : ∃ y, c = [y] ∧ y.1 = n := by
        match c, hc with
        | [y], hc => exact ⟨y, rfl, by simpa using hc⟩
      exact ⟨q, x, (write_append x (writtenPrefix_lt hq)).symm, hq⟩
    obtain ⟨q, x, rfl, hq⟩ := split h
    obtain ⟨q', x', rfl, hq'⟩ := split h'
    have hx : x = x' := by simpa using hr n (by omega)
    have : q = q' := ih hq hq' fun k hk => by
      have := hr k (by omega)
      rwa [memory_read_write_other _ _ (by omega), memory_read_write_other _ _ (by omega)] at this
    rw [hx, this]

end Sys2Proof.Machine
end

