-- ==== Sys2Proof/Laws/State.lean ====
section
/-! SUPPORT. What each operation of the machine does to each field of the state, one lemma a field, so that no proof
unfolds a record update. -/

namespace Sys2Proof.Machine

/-! ## respond -/

@[simp] theorem respond_phase (st : Status) (s : State) : (respond st s).phase = s.phase := rfl
@[simp] theorem respond_latch (st : Status) (s : State) : (respond st s).latch = s.latch := rfl
@[simp] theorem respond_idx (st : Status) (s : State) : (respond st s).idx = s.idx := rfl
@[simp] theorem respond_left (st : Status) (s : State) : (respond st s).left = s.left := rfl
@[simp] theorem respond_spaceA (st : Status) (s : State) : (respond st s).spaceA = s.spaceA := rfl
@[simp] theorem respond_spaceB (st : Status) (s : State) : (respond st s).spaceB = s.spaceB := rfl
@[simp] theorem respond_spaceC (st : Status) (s : State) : (respond st s).spaceC = s.spaceC := rfl
@[simp] theorem respond_out (st : Status) (s : State) : (respond st s).out = s.out := rfl
@[simp] theorem respond_smp (st : Status) (s : State) : (respond st s).smp = s.smp := rfl
@[simp] theorem respond_responses (st : Status) (s : State) : (respond st s).responses = s.responses ++ [statusWord st] := rfl
@[simp] theorem respond_commands (st : Status) (s : State) : (respond st s).commands = s.commands := rfl
@[simp] theorem respond_rst (st : Status) (s : State) : (respond st s).rst = s.rst := rfl
@[simp] theorem respond_script (st : Status) (s : State) : (respond st s).script = s.script := rfl
@[simp] theorem respond_received (st : Status) (s : State) : (respond st s).received = s.received := rfl
@[simp] theorem respond_outReady (st : Status) (s : State) : (respond st s).outReady = s.outReady := rfl

/-! ## raiseError -/

@[simp] theorem raiseError_phase (k : ErrorKind) (s : State) : (raiseError k s).phase = s.phase := rfl
@[simp] theorem raiseError_latch (k : ErrorKind) (s : State) : (raiseError k s).latch = s.latch := rfl
@[simp] theorem raiseError_idx (k : ErrorKind) (s : State) : (raiseError k s).idx = s.idx := rfl
@[simp] theorem raiseError_left (k : ErrorKind) (s : State) : (raiseError k s).left = s.left := rfl
@[simp] theorem raiseError_spaceA (k : ErrorKind) (s : State) : (raiseError k s).spaceA = s.spaceA := rfl
@[simp] theorem raiseError_spaceB (k : ErrorKind) (s : State) : (raiseError k s).spaceB = s.spaceB := rfl
@[simp] theorem raiseError_spaceC (k : ErrorKind) (s : State) : (raiseError k s).spaceC = s.spaceC := rfl
@[simp] theorem raiseError_out (k : ErrorKind) (s : State) : (raiseError k s).out = s.out := rfl
@[simp] theorem raiseError_smp (k : ErrorKind) (s : State) : (raiseError k s).smp = s.smp := rfl
@[simp] theorem raiseError_responses (k : ErrorKind) (s : State) : (raiseError k s).responses = s.responses ++ [statusWord (.error k)] := rfl
@[simp] theorem raiseError_commands (k : ErrorKind) (s : State) : (raiseError k s).commands = s.commands := rfl
@[simp] theorem raiseError_rst (k : ErrorKind) (s : State) : (raiseError k s).rst = s.rst := rfl
@[simp] theorem raiseError_script (k : ErrorKind) (s : State) : (raiseError k s).script = s.script := rfl
@[simp] theorem raiseError_received (k : ErrorKind) (s : State) : (raiseError k s).received = s.received := rfl
@[simp] theorem raiseError_outReady (k : ErrorKind) (s : State) : (raiseError k s).outReady = s.outReady := rfl

/-! ## enterRun -/

@[simp] theorem enterRun_phase (l : Latch) (s : State) : (enterRun l s).phase = .run := rfl
@[simp] theorem enterRun_latch (l : Latch) (s : State) : (enterRun l s).latch = l := rfl
@[simp] theorem enterRun_idx (l : Latch) (s : State) : (enterRun l s).idx = 0 := rfl
@[simp] theorem enterRun_left (l : Latch) (s : State) : (enterRun l s).left = s.left := rfl
@[simp] theorem enterRun_spaceA (l : Latch) (s : State) : (enterRun l s).spaceA = s.spaceA := rfl
@[simp] theorem enterRun_spaceB (l : Latch) (s : State) : (enterRun l s).spaceB = s.spaceB := rfl
@[simp] theorem enterRun_spaceC (l : Latch) (s : State) : (enterRun l s).spaceC = s.spaceC := rfl
@[simp] theorem enterRun_out (l : Latch) (s : State) : (enterRun l s).out = s.out := rfl
@[simp] theorem enterRun_smp (l : Latch) (s : State) : (enterRun l s).smp = s.smp := rfl
@[simp] theorem enterRun_responses (l : Latch) (s : State) : (enterRun l s).responses = s.responses := rfl
@[simp] theorem enterRun_commands (l : Latch) (s : State) : (enterRun l s).commands = s.commands := rfl
@[simp] theorem enterRun_rst (l : Latch) (s : State) : (enterRun l s).rst = s.rst := rfl
@[simp] theorem enterRun_script (l : Latch) (s : State) : (enterRun l s).script = s.script := rfl
@[simp] theorem enterRun_received (l : Latch) (s : State) : (enterRun l s).received = s.received := rfl
@[simp] theorem enterRun_outReady (l : Latch) (s : State) : (enterRun l s).outReady = s.outReady := rfl

/-! ## openOut -/

@[simp] theorem openOut_phase (s : State) : (openOut s).phase = s.phase := rfl
@[simp] theorem openOut_latch (s : State) : (openOut s).latch = s.latch := rfl
@[simp] theorem openOut_idx (s : State) : (openOut s).idx = s.idx := rfl
@[simp] theorem openOut_left (s : State) : (openOut s).left = s.left := rfl
@[simp] theorem openOut_spaceA (s : State) : (openOut s).spaceA = s.spaceA := rfl
@[simp] theorem openOut_spaceB (s : State) : (openOut s).spaceB = s.spaceB := rfl
@[simp] theorem openOut_spaceC (s : State) : (openOut s).spaceC = s.spaceC := rfl
@[simp] theorem openOut_out (s : State) : (openOut s).out = [] := rfl
@[simp] theorem openOut_smp (s : State) : (openOut s).smp = s.smp := rfl
@[simp] theorem openOut_responses (s : State) : (openOut s).responses = s.responses := rfl
@[simp] theorem openOut_commands (s : State) : (openOut s).commands = s.commands := rfl
@[simp] theorem openOut_rst (s : State) : (openOut s).rst = s.rst := rfl
@[simp] theorem openOut_script (s : State) : (openOut s).script = s.script := rfl
@[simp] theorem openOut_received (s : State) : (openOut s).received = s.received := rfl
@[simp] theorem openOut_outReady (s : State) : (openOut s).outReady = none := rfl

/-! ## openSmp -/

@[simp] theorem openSmp_phase (s : State) : (openSmp s).phase = s.phase := rfl
@[simp] theorem openSmp_latch (s : State) : (openSmp s).latch = s.latch := rfl
@[simp] theorem openSmp_idx (s : State) : (openSmp s).idx = s.idx := rfl
@[simp] theorem openSmp_left (s : State) : (openSmp s).left = s.left := rfl
@[simp] theorem openSmp_spaceA (s : State) : (openSmp s).spaceA = s.spaceA := rfl
@[simp] theorem openSmp_spaceB (s : State) : (openSmp s).spaceB = s.spaceB := rfl
@[simp] theorem openSmp_spaceC (s : State) : (openSmp s).spaceC = s.spaceC := rfl
@[simp] theorem openSmp_out (s : State) : (openSmp s).out = s.out := rfl
@[simp] theorem openSmp_smp (s : State) : (openSmp s).smp = [] := rfl
@[simp] theorem openSmp_responses (s : State) : (openSmp s).responses = s.responses := rfl
@[simp] theorem openSmp_commands (s : State) : (openSmp s).commands = s.commands := rfl
@[simp] theorem openSmp_rst (s : State) : (openSmp s).rst = s.rst := rfl
@[simp] theorem openSmp_script (s : State) : (openSmp s).script = s.script := rfl
@[simp] theorem openSmp_received (s : State) : (openSmp s).received = s.received := rfl
@[simp] theorem openSmp_outReady (s : State) : (openSmp s).outReady = s.outReady := rfl

/-! ## clearLeft -/

@[simp] theorem clearLeft_phase (s : State) : (clearLeft s).phase = s.phase := rfl
@[simp] theorem clearLeft_latch (s : State) : (clearLeft s).latch = s.latch := rfl
@[simp] theorem clearLeft_idx (s : State) : (clearLeft s).idx = s.idx := rfl
@[simp] theorem clearLeft_left (s : State) : (clearLeft s).left = List.replicate s.latch.bpp.toInt.toNat 0 := rfl
@[simp] theorem clearLeft_spaceA (s : State) : (clearLeft s).spaceA = s.spaceA := rfl
@[simp] theorem clearLeft_spaceB (s : State) : (clearLeft s).spaceB = s.spaceB := rfl
@[simp] theorem clearLeft_spaceC (s : State) : (clearLeft s).spaceC = s.spaceC := rfl
@[simp] theorem clearLeft_out (s : State) : (clearLeft s).out = s.out := rfl
@[simp] theorem clearLeft_smp (s : State) : (clearLeft s).smp = s.smp := rfl
@[simp] theorem clearLeft_responses (s : State) : (clearLeft s).responses = s.responses := rfl
@[simp] theorem clearLeft_commands (s : State) : (clearLeft s).commands = s.commands := rfl
@[simp] theorem clearLeft_rst (s : State) : (clearLeft s).rst = s.rst := rfl
@[simp] theorem clearLeft_script (s : State) : (clearLeft s).script = s.script := rfl
@[simp] theorem clearLeft_received (s : State) : (clearLeft s).received = s.received := rfl
@[simp] theorem clearLeft_outReady (s : State) : (clearLeft s).outReady = s.outReady := rfl

/-! ## emitByte -/

@[simp] theorem emitByte_phase (y : Byte) (s : State) : (emitByte y s).phase = s.phase := rfl
@[simp] theorem emitByte_latch (y : Byte) (s : State) : (emitByte y s).latch = s.latch := rfl
@[simp] theorem emitByte_idx (y : Byte) (s : State) : (emitByte y s).idx = s.idx + 1 := rfl
@[simp] theorem emitByte_left (y : Byte) (s : State) : (emitByte y s).left = s.left := rfl
@[simp] theorem emitByte_spaceA (y : Byte) (s : State) : (emitByte y s).spaceA = s.spaceA := rfl
@[simp] theorem emitByte_spaceB (y : Byte) (s : State) : (emitByte y s).spaceB = s.spaceB := rfl
@[simp] theorem emitByte_spaceC (y : Byte) (s : State) : (emitByte y s).spaceC = s.spaceC := rfl
@[simp] theorem emitByte_out (y : Byte) (s : State) : (emitByte y s).out = Memory.write s.out s.idx y := rfl
@[simp] theorem emitByte_smp (y : Byte) (s : State) : (emitByte y s).smp = s.smp := rfl
@[simp] theorem emitByte_responses (y : Byte) (s : State) : (emitByte y s).responses = s.responses := rfl
@[simp] theorem emitByte_commands (y : Byte) (s : State) : (emitByte y s).commands = s.commands := rfl
@[simp] theorem emitByte_rst (y : Byte) (s : State) : (emitByte y s).rst = s.rst := rfl
@[simp] theorem emitByte_script (y : Byte) (s : State) : (emitByte y s).script = s.script := rfl
@[simp] theorem emitByte_received (y : Byte) (s : State) : (emitByte y s).received = s.received := rfl
@[simp] theorem emitByte_outReady (y : Byte) (s : State) : (emitByte y s).outReady = s.outReady := rfl

/-! ## setLeft -/

@[simp] theorem setLeft_phase (j : Nat) (y : Byte) (s : State) : (setLeft j y s).phase = s.phase := rfl
@[simp] theorem setLeft_latch (j : Nat) (y : Byte) (s : State) : (setLeft j y s).latch = s.latch := rfl
@[simp] theorem setLeft_idx (j : Nat) (y : Byte) (s : State) : (setLeft j y s).idx = s.idx := rfl
@[simp] theorem setLeft_left (j : Nat) (y : Byte) (s : State) : (setLeft j y s).left = s.left.set j y := rfl
@[simp] theorem setLeft_spaceA (j : Nat) (y : Byte) (s : State) : (setLeft j y s).spaceA = s.spaceA := rfl
@[simp] theorem setLeft_spaceB (j : Nat) (y : Byte) (s : State) : (setLeft j y s).spaceB = s.spaceB := rfl
@[simp] theorem setLeft_spaceC (j : Nat) (y : Byte) (s : State) : (setLeft j y s).spaceC = s.spaceC := rfl
@[simp] theorem setLeft_out (j : Nat) (y : Byte) (s : State) : (setLeft j y s).out = s.out := rfl
@[simp] theorem setLeft_smp (j : Nat) (y : Byte) (s : State) : (setLeft j y s).smp = s.smp := rfl
@[simp] theorem setLeft_responses (j : Nat) (y : Byte) (s : State) : (setLeft j y s).responses = s.responses := rfl
@[simp] theorem setLeft_commands (j : Nat) (y : Byte) (s : State) : (setLeft j y s).commands = s.commands := rfl
@[simp] theorem setLeft_rst (j : Nat) (y : Byte) (s : State) : (setLeft j y s).rst = s.rst := rfl
@[simp] theorem setLeft_script (j : Nat) (y : Byte) (s : State) : (setLeft j y s).script = s.script := rfl
@[simp] theorem setLeft_received (j : Nat) (y : Byte) (s : State) : (setLeft j y s).received = s.received := rfl
@[simp] theorem setLeft_outReady (j : Nat) (y : Byte) (s : State) : (setLeft j y s).outReady = s.outReady := rfl

/-! ## emitSamples -/

@[simp] theorem emitSamples_phase (k : Nat) (xs : List Sample) (n : Nat) (s : State) : (emitSamples k xs n s).phase = s.phase := rfl
@[simp] theorem emitSamples_latch (k : Nat) (xs : List Sample) (n : Nat) (s : State) : (emitSamples k xs n s).latch = s.latch := rfl
@[simp] theorem emitSamples_idx (k : Nat) (xs : List Sample) (n : Nat) (s : State) : (emitSamples k xs n s).idx = s.idx + n := rfl
@[simp] theorem emitSamples_left (k : Nat) (xs : List Sample) (n : Nat) (s : State) : (emitSamples k xs n s).left = s.left := rfl
@[simp] theorem emitSamples_spaceA (k : Nat) (xs : List Sample) (n : Nat) (s : State) : (emitSamples k xs n s).spaceA = s.spaceA := rfl
@[simp] theorem emitSamples_spaceB (k : Nat) (xs : List Sample) (n : Nat) (s : State) : (emitSamples k xs n s).spaceB = s.spaceB := rfl
@[simp] theorem emitSamples_spaceC (k : Nat) (xs : List Sample) (n : Nat) (s : State) : (emitSamples k xs n s).spaceC = s.spaceC := rfl
@[simp] theorem emitSamples_out (k : Nat) (xs : List Sample) (n : Nat) (s : State) : (emitSamples k xs n s).out = s.out := rfl
@[simp] theorem emitSamples_smp (k : Nat) (xs : List Sample) (n : Nat) (s : State) : (emitSamples k xs n s).smp = Memory.writeFrom s.smp k xs := rfl
@[simp] theorem emitSamples_responses (k : Nat) (xs : List Sample) (n : Nat) (s : State) : (emitSamples k xs n s).responses = s.responses := rfl
@[simp] theorem emitSamples_commands (k : Nat) (xs : List Sample) (n : Nat) (s : State) : (emitSamples k xs n s).commands = s.commands := rfl
@[simp] theorem emitSamples_rst (k : Nat) (xs : List Sample) (n : Nat) (s : State) : (emitSamples k xs n s).rst = s.rst := rfl
@[simp] theorem emitSamples_script (k : Nat) (xs : List Sample) (n : Nat) (s : State) : (emitSamples k xs n s).script = s.script := rfl
@[simp] theorem emitSamples_received (k : Nat) (xs : List Sample) (n : Nat) (s : State) : (emitSamples k xs n s).received = s.received := rfl
@[simp] theorem emitSamples_outReady (k : Nat) (xs : List Sample) (n : Nat) (s : State) : (emitSamples k xs n s).outReady = s.outReady := rfl

/-! ## complete -/

@[simp] theorem complete_phase (s : State) : (complete s).phase = .idle := rfl
@[simp] theorem complete_latch (s : State) : (complete s).latch = s.latch := rfl
@[simp] theorem complete_idx (s : State) : (complete s).idx = s.idx := rfl
@[simp] theorem complete_left (s : State) : (complete s).left = s.left := rfl
@[simp] theorem complete_spaceA (s : State) : (complete s).spaceA = s.spaceA := rfl
@[simp] theorem complete_spaceB (s : State) : (complete s).spaceB = s.spaceB := rfl
@[simp] theorem complete_spaceC (s : State) : (complete s).spaceC = s.spaceC := rfl
@[simp] theorem complete_out (s : State) : (complete s).out = s.out := rfl
@[simp] theorem complete_smp (s : State) : (complete s).smp = s.smp := rfl
@[simp] theorem complete_responses (s : State) : (complete s).responses = s.responses ++ [statusWord .ok] := rfl
@[simp] theorem complete_commands (s : State) : (complete s).commands = s.commands := rfl
@[simp] theorem complete_rst (s : State) : (complete s).rst = s.rst := rfl
@[simp] theorem complete_script (s : State) : (complete s).script = s.script := rfl
@[simp] theorem complete_received (s : State) : (complete s).received = s.received := rfl
@[simp] theorem complete_outReady (s : State) : (complete s).outReady = s.outReady := rfl

/-! ## completeOut -/

@[simp] theorem completeOut_phase (s : State) : (completeOut s).phase = .idle := rfl
@[simp] theorem completeOut_latch (s : State) : (completeOut s).latch = s.latch := rfl
@[simp] theorem completeOut_idx (s : State) : (completeOut s).idx = s.idx := rfl
@[simp] theorem completeOut_left (s : State) : (completeOut s).left = s.left := rfl
@[simp] theorem completeOut_spaceA (s : State) : (completeOut s).spaceA = s.spaceA := rfl
@[simp] theorem completeOut_spaceB (s : State) : (completeOut s).spaceB = s.spaceB := rfl
@[simp] theorem completeOut_spaceC (s : State) : (completeOut s).spaceC = s.spaceC := rfl
@[simp] theorem completeOut_out (s : State) : (completeOut s).out = s.out := rfl
@[simp] theorem completeOut_smp (s : State) : (completeOut s).smp = s.smp := rfl
@[simp] theorem completeOut_responses (s : State) : (completeOut s).responses = s.responses ++ [statusWord .ok] := rfl
@[simp] theorem completeOut_commands (s : State) : (completeOut s).commands = s.commands := rfl
@[simp] theorem completeOut_rst (s : State) : (completeOut s).rst = s.rst := rfl
@[simp] theorem completeOut_script (s : State) : (completeOut s).script = s.script := rfl
@[simp] theorem completeOut_received (s : State) : (completeOut s).received = s.received := rfl
@[simp] theorem completeOut_outReady (s : State) :
    (completeOut s).outReady = some (s.received.length + s.responses.length + 1) := rfl

/-! ## assertReset -/

@[simp] theorem assertReset_phase (s : State) : (assertReset s).phase = .idle := rfl
@[simp] theorem assertReset_latch (s : State) : (assertReset s).latch = resetLatch := rfl
@[simp] theorem assertReset_idx (s : State) : (assertReset s).idx = Config.resetIndex := rfl
@[simp] theorem assertReset_left (s : State) : (assertReset s).left = Config.resetLeft := rfl
@[simp] theorem assertReset_spaceA (s : State) : (assertReset s).spaceA = s.spaceA := rfl
@[simp] theorem assertReset_spaceB (s : State) : (assertReset s).spaceB = s.spaceB := rfl
@[simp] theorem assertReset_spaceC (s : State) : (assertReset s).spaceC = s.spaceC := rfl
@[simp] theorem assertReset_out (s : State) : (assertReset s).out = s.out := rfl
@[simp] theorem assertReset_smp (s : State) : (assertReset s).smp = s.smp := rfl
@[simp] theorem assertReset_responses (s : State) : (assertReset s).responses = [] := rfl
@[simp] theorem assertReset_commands (s : State) : (assertReset s).commands = s.commands := rfl
@[simp] theorem assertReset_rst (s : State) : (assertReset s).rst = true := rfl
@[simp] theorem assertReset_script (s : State) : (assertReset s).script = s.script := rfl
@[simp] theorem assertReset_received (s : State) : (assertReset s).received = s.received := rfl
@[simp] theorem assertReset_outReady (s : State) :
    (assertReset s).outReady = if resultTaken s = true then s.outReady else none := rfl

/-! ## releaseReset -/

@[simp] theorem releaseReset_phase (s : State) : (releaseReset s).phase = s.phase := rfl
@[simp] theorem releaseReset_latch (s : State) : (releaseReset s).latch = s.latch := rfl
@[simp] theorem releaseReset_idx (s : State) : (releaseReset s).idx = s.idx := rfl
@[simp] theorem releaseReset_left (s : State) : (releaseReset s).left = s.left := rfl
@[simp] theorem releaseReset_spaceA (s : State) : (releaseReset s).spaceA = s.spaceA := rfl
@[simp] theorem releaseReset_spaceB (s : State) : (releaseReset s).spaceB = s.spaceB := rfl
@[simp] theorem releaseReset_spaceC (s : State) : (releaseReset s).spaceC = s.spaceC := rfl
@[simp] theorem releaseReset_out (s : State) : (releaseReset s).out = s.out := rfl
@[simp] theorem releaseReset_smp (s : State) : (releaseReset s).smp = s.smp := rfl
@[simp] theorem releaseReset_responses (s : State) : (releaseReset s).responses = s.responses := rfl
@[simp] theorem releaseReset_commands (s : State) : (releaseReset s).commands = s.commands := rfl
@[simp] theorem releaseReset_rst (s : State) : (releaseReset s).rst = false := rfl
@[simp] theorem releaseReset_script (s : State) : (releaseReset s).script = s.script := rfl
@[simp] theorem releaseReset_received (s : State) : (releaseReset s).received = s.received := rfl
@[simp] theorem releaseReset_outReady (s : State) : (releaseReset s).outReady = s.outReady := rfl

/-! ## presentCommand -/

@[simp] theorem presentCommand_phase (d : Descriptor) (s : State) : (presentCommand d s).phase = s.phase := rfl
@[simp] theorem presentCommand_latch (d : Descriptor) (s : State) : (presentCommand d s).latch = s.latch := rfl
@[simp] theorem presentCommand_idx (d : Descriptor) (s : State) : (presentCommand d s).idx = s.idx := rfl
@[simp] theorem presentCommand_left (d : Descriptor) (s : State) : (presentCommand d s).left = s.left := rfl
@[simp] theorem presentCommand_spaceA (d : Descriptor) (s : State) : (presentCommand d s).spaceA = s.spaceA := rfl
@[simp] theorem presentCommand_spaceB (d : Descriptor) (s : State) : (presentCommand d s).spaceB = s.spaceB := rfl
@[simp] theorem presentCommand_spaceC (d : Descriptor) (s : State) : (presentCommand d s).spaceC = s.spaceC := rfl
@[simp] theorem presentCommand_out (d : Descriptor) (s : State) : (presentCommand d s).out = s.out := rfl
@[simp] theorem presentCommand_smp (d : Descriptor) (s : State) : (presentCommand d s).smp = s.smp := rfl
@[simp] theorem presentCommand_responses (d : Descriptor) (s : State) : (presentCommand d s).responses = s.responses := rfl
@[simp] theorem presentCommand_commands (d : Descriptor) (s : State) : (presentCommand d s).commands = s.commands ++ [d] := rfl
@[simp] theorem presentCommand_rst (d : Descriptor) (s : State) : (presentCommand d s).rst = s.rst := rfl
@[simp] theorem presentCommand_script (d : Descriptor) (s : State) : (presentCommand d s).script = s.script := rfl
@[simp] theorem presentCommand_received (d : Descriptor) (s : State) : (presentCommand d s).received = s.received := rfl
@[simp] theorem presentCommand_outReady (d : Descriptor) (s : State) : (presentCommand d s).outReady = s.outReady := rfl

/-! ## placeCommand -/

@[simp] theorem placeCommand_phase (d : Descriptor) (s : State) : (placeCommand d s).phase = .idle := rfl
@[simp] theorem placeCommand_latch (d : Descriptor) (s : State) : (placeCommand d s).latch = s.latch := rfl
@[simp] theorem placeCommand_idx (d : Descriptor) (s : State) : (placeCommand d s).idx = s.idx := rfl
@[simp] theorem placeCommand_left (d : Descriptor) (s : State) : (placeCommand d s).left = s.left := rfl
@[simp] theorem placeCommand_spaceA (d : Descriptor) (s : State) : (placeCommand d s).spaceA = s.spaceA := rfl
@[simp] theorem placeCommand_spaceB (d : Descriptor) (s : State) : (placeCommand d s).spaceB = s.spaceB := rfl
@[simp] theorem placeCommand_spaceC (d : Descriptor) (s : State) : (placeCommand d s).spaceC = s.spaceC := rfl
@[simp] theorem placeCommand_out (d : Descriptor) (s : State) : (placeCommand d s).out = s.out := rfl
@[simp] theorem placeCommand_smp (d : Descriptor) (s : State) : (placeCommand d s).smp = s.smp := rfl
@[simp] theorem placeCommand_responses (d : Descriptor) (s : State) : (placeCommand d s).responses = s.responses := rfl
@[simp] theorem placeCommand_commands (d : Descriptor) (s : State) : (placeCommand d s).commands = d :: s.commands := rfl
@[simp] theorem placeCommand_rst (d : Descriptor) (s : State) : (placeCommand d s).rst = false := rfl
@[simp] theorem placeCommand_script (d : Descriptor) (s : State) : (placeCommand d s).script = [] := rfl
@[simp] theorem placeCommand_received (d : Descriptor) (s : State) : (placeCommand d s).received = s.received := rfl
@[simp] theorem placeCommand_outReady (d : Descriptor) (s : State) : (placeCommand d s).outReady = s.outReady := rfl

/-! ## setOperand -/

@[simp] theorem setOperand_phase (sp : OperandSpace) (m : List Host.Cell) (s : State) :
    (setOperand sp m s).phase = s.phase := by cases sp <;> rfl
@[simp] theorem setOperand_latch (sp : OperandSpace) (m : List Host.Cell) (s : State) :
    (setOperand sp m s).latch = s.latch := by cases sp <;> rfl
@[simp] theorem setOperand_idx (sp : OperandSpace) (m : List Host.Cell) (s : State) :
    (setOperand sp m s).idx = s.idx := by cases sp <;> rfl
@[simp] theorem setOperand_left (sp : OperandSpace) (m : List Host.Cell) (s : State) :
    (setOperand sp m s).left = s.left := by cases sp <;> rfl
@[simp] theorem setOperand_out (sp : OperandSpace) (m : List Host.Cell) (s : State) :
    (setOperand sp m s).out = s.out := by cases sp <;> rfl
@[simp] theorem setOperand_smp (sp : OperandSpace) (m : List Host.Cell) (s : State) :
    (setOperand sp m s).smp = s.smp := by cases sp <;> rfl
@[simp] theorem setOperand_responses (sp : OperandSpace) (m : List Host.Cell) (s : State) :
    (setOperand sp m s).responses = s.responses := by cases sp <;> rfl
@[simp] theorem setOperand_commands (sp : OperandSpace) (m : List Host.Cell) (s : State) :
    (setOperand sp m s).commands = s.commands := by cases sp <;> rfl
@[simp] theorem setOperand_rst (sp : OperandSpace) (m : List Host.Cell) (s : State) :
    (setOperand sp m s).rst = s.rst := by cases sp <;> rfl
@[simp] theorem setOperand_script (sp : OperandSpace) (m : List Host.Cell) (s : State) :
    (setOperand sp m s).script = s.script := by cases sp <;> rfl
@[simp] theorem setOperand_received (sp : OperandSpace) (m : List Host.Cell) (s : State) :
    (setOperand sp m s).received = s.received := by cases sp <;> rfl
@[simp] theorem setOperand_outReady (sp : OperandSpace) (m : List Host.Cell) (s : State) :
    (setOperand sp m s).outReady = s.outReady := by cases sp <;> rfl

/-! ## The starts, as the operations they are made of -/

theorem startOut_eq (l : Latch) (s : State) : startOut l s = openOut (enterRun l s) := rfl

theorem startOutLeft_eq (l : Latch) (s : State) : startOutLeft l s = clearLeft (openOut (enterRun l s)) := rfl

theorem startSmp_eq (l : Latch) (s : State) : startSmp l s = openSmp (enterRun l s) := rfl

/-! ## changeWords -/

/-- All a change of the descriptor words can do: where it answers a next state it changes nothing. -/
theorem changeWords_next {d : Descriptor} {s t : State} (h : changeWords d s = .next t) : t = s := by
  unfold changeWords at h
  split at h
  · cases h
  · exact (Host.Outcome.next.inj h).symm

end Sys2Proof.Machine
end

