-- ==== Sys2Proof/Laws/Exec.lean ====
section
/-! SUPPORT. What one transition of a command can do, said once: the parts each meaning is made of, the inversion of
`exec` into the five cases of a transition, the inversion of each kind of byte step, and the inversion of `step`. -/

namespace Sys2Proof

/-- The check each command makes at acceptance, after decode. -/
def Instr.check : Instr → Latch → Option ErrorKind
  | .unfNone _ => Machine.validateUnfilter false
  | .unfSub _ => Machine.validateUnfilter true
  | .unfUp _ => Machine.validateUnfilter false
  | .unfAvg _ => Machine.validateUnfilter true
  | .unfPaeth _ => Machine.validateUnfilter true
  | .unp1 _ => Machine.validateUnpack
  | .unp2 _ => Machine.validateUnpack
  | .unp4 _ => Machine.validateUnpack
  | .unp8 _ => Machine.validateUnpack
  | .unp16 _ => Machine.validateUnpack16
  | .addb _ => Machine.validateHelper
  | .subb _ => Machine.validateHelper
  | .avgb _ => Machine.validateHelper
  | .paethb _ => Machine.validateHelper3

/-- The byte step of each command. -/
def Instr.byteStep : Instr → Machine.State → Host.Outcome Machine.State Machine.Fault Machine.Refusal
  | .unfNone _ => Machine.unfNoneStep
  | .unfSub _ => Machine.unfSubStep
  | .unfUp _ => Machine.unfUpStep
  | .unfAvg _ => Machine.unfAvgStep
  | .unfPaeth _ => Machine.unfPaethStep
  | .unp1 _ => Machine.unpackSubByteStep 1
  | .unp2 _ => Machine.unpackSubByteStep 2
  | .unp4 _ => Machine.unpackSubByteStep 4
  | .unp8 _ => Machine.unpackByteStep
  | .unp16 _ => Machine.unpackPairStep
  | .addb _ => Machine.helperStep Machine.addByte
  | .subb _ => Machine.helperStep Machine.subByte
  | .avgb _ => Machine.helperStep Machine.avgByte
  | .paethb _ => Machine.helperPaethStep

/-- The start of each command. -/
def Instr.start (i : Instr) (s : Machine.State) : Machine.State :=
  if i.usesLeft = true then Machine.startOutLeft i.latch s
  else if i.writesOut = true then Machine.startOut i.latch s
  else Machine.startSmp i.latch s

/-- The completion of each command. -/
def Instr.finish (i : Instr) (s : Machine.State) : Machine.State :=
  if i.writesOut = true then Machine.completeOut s else Machine.complete s

namespace Machine

/-! ## exec -/

/-- Every meaning is one transition made of its command's parts. -/
theorem exec_eq (i : Instr) (s : State) :
    exec i s = runCommand i.latch (i.check i.latch) (fun _ => i.start) i.byteStep i.finish s := by
  cases i <;> rfl

theorem exec_idle_error {i : Instr} {s : State} {k : ErrorKind} (hp : s.phase = .idle)
    (hc : i.check i.latch = some k) : exec i s = .next (raiseError k s) := by
  simp only [exec_eq, runCommand, hp, hc]

theorem exec_idle_start {i : Instr} {s : State} (hp : s.phase = .idle) (hc : i.check i.latch = none) :
    exec i s = .next (i.start s) := by
  simp only [exec_eq, runCommand, hp, hc]

theorem exec_run_step {i : Instr} {s : State} (hp : s.phase = .run) (hl : s.latch = i.latch)
    (hi : s.idx < s.latch.lenA.toNat) : exec i s = i.byteStep s := by
  simp only [exec_eq, runCommand, hp]; rw [if_pos hl, if_pos hi]

theorem exec_run_finish {i : Instr} {s : State} (hp : s.phase = .run) (hl : s.latch = i.latch)
    (hi : s.idx = s.latch.lenA.toNat) : exec i s = .next (i.finish s) := by
  simp only [exec_eq, runCommand, hp]; rw [if_pos hl, if_neg (by omega), if_pos hi]

theorem exec_run_held {i : Instr} {s : State} (hp : s.phase = .run) (hl : s.latch ≠ i.latch) :
    exec i s = .next s := by
  simp only [exec_eq, runCommand, hp]; rw [if_neg hl]

/-- The five cases of a transition that answers a next state. -/
theorem exec_next_cases {i : Instr} {s t : State} (h : exec i s = .next t) :
    (∃ k, s.phase = .idle ∧ i.check i.latch = some k ∧ t = raiseError k s) ∨
    (s.phase = .idle ∧ i.check i.latch = none ∧ t = i.start s) ∨
    (s.phase = .run ∧ s.latch = i.latch ∧ s.idx < s.latch.lenA.toNat ∧ i.byteStep s = .next t) ∨
    (s.phase = .run ∧ s.latch = i.latch ∧ s.idx = s.latch.lenA.toNat ∧ t = i.finish s) ∨
    (s.phase = .run ∧ s.latch ≠ i.latch ∧ t = s) := by
  cases hp : s.phase with
  | idle =>
    cases hc : i.check i.latch with
    | some k =>
      rw [exec_idle_error hp hc, Host.Outcome.next.injEq] at h
      exact .inl ⟨k, rfl, rfl, h.symm⟩
    | none =>
      rw [exec_idle_start hp hc, Host.Outcome.next.injEq] at h
      exact .inr (.inl ⟨rfl, rfl, h.symm⟩)
  | run =>
    refine .inr (.inr ?_)
    by_cases hl : s.latch = i.latch
    · rcases Nat.lt_trichotomy s.idx s.latch.lenA.toNat with hi | hi | hi
      · rw [exec_run_step hp hl hi] at h
        exact .inl ⟨rfl, hl, hi, h⟩
      · rw [exec_run_finish hp hl hi, Host.Outcome.next.injEq] at h
        exact .inr (.inl ⟨rfl, hl, hi, h.symm⟩)
      · simp only [exec_eq, runCommand, hp] at h
        rw [if_pos hl, if_neg (by omega), if_neg (by omega)] at h
        cases h
    · rw [exec_run_held hp hl, Host.Outcome.next.injEq] at h
      exact .inr (.inr ⟨rfl, hl, h.symm⟩)

/-! ## Reads -/

@[simp] theorem withByte_ok (x : Byte) (go : Byte → Host.Outcome State Fault Refusal) :
    withByte (.ok x) go = go x := rfl

/-- A step that goes on has read its byte. -/
theorem withByte_next {r : Except Fault Byte} {go : Byte → Host.Outcome State Fault Refusal} {t : State}
    (h : withByte r go = .next t) : ∃ x, r = .ok x ∧ go x = .next t := by
  cases r with
  | ok x => exact ⟨x, rfl, h⟩
  | error e => cases h

theorem readOperand_ok {sp : OperandSpace} {k : Nat} {s : State} {x : Byte} :
    readOperand sp k s = .ok x ↔
      k < operandLength s.latch sp ∧ Memory.read (operandMemory s sp) k = some x := by
  unfold readOperand
  by_cases hk : k < operandLength s.latch sp
  · rw [if_pos hk]
    cases hr : Memory.read (operandMemory s sp) k <;> simp [hk]
  · rw [if_neg hk]; simp [hk]

theorem readLeft_ok {s : State} {x : Byte} : readLeft s = .ok x ↔ s.left[strideIndex s]? = some x := by
  unfold readLeft
  cases hr : s.left[strideIndex s]? <;> simp

theorem readUpperLeft_ok {s : State} {x : Byte} :
    readUpperLeft s = .ok x ↔
      if stride s ≤ s.idx then readOperand .b (s.idx - stride s) s = .ok x else x = 0 := by
  unfold readUpperLeft
  by_cases h : stride s ≤ s.idx
  · rw [if_pos (by omega), if_pos h]
  · rw [if_neg (by omega), if_neg h, Except.ok.injEq, eq_comm]

/-! ## Byte steps -/

/-- `left[j] <- y` by the commands that have predictor state, nothing by the others. -/
def rollLeft (i : Instr) (y : Byte) (s : State) : State :=
  if i.usesLeft = true then setLeft (strideIndex s) y s else s

/-- A byte step of a command whose result is OUT writes one byte to OUT, and the same byte to `left[j]` where the command
has predictor state. -/
theorem byteStep_out_next {i : Instr} {s t : State} (ho : i.writesOut = true) (h : i.byteStep s = .next t) :
    ∃ y, t = emitByte y (rollLeft i y s) := by
  cases i with
  | unfNone o =>
    obtain ⟨x, -, h⟩ := withByte_next h
    exact ⟨_, (Host.Outcome.next.inj h).symm⟩
  | unfSub o =>
    obtain ⟨x, -, h⟩ := withByte_next h
    obtain ⟨a, -, h⟩ := withByte_next h
    exact ⟨_, (Host.Outcome.next.inj h).symm⟩
  | unfUp o =>
    obtain ⟨x, -, h⟩ := withByte_next h
    obtain ⟨b, -, h⟩ := withByte_next h
    exact ⟨_, (Host.Outcome.next.inj h).symm⟩
  | unfAvg o =>
    obtain ⟨x, -, h⟩ := withByte_next h
    obtain ⟨a, -, h⟩ := withByte_next h
    obtain ⟨b, -, h⟩ := withByte_next h
    exact ⟨_, (Host.Outcome.next.inj h).symm⟩
  | unfPaeth o =>
    obtain ⟨x, -, h⟩ := withByte_next h
    obtain ⟨a, -, h⟩ := withByte_next h
    obtain ⟨b, -, h⟩ := withByte_next h
    obtain ⟨c, -, h⟩ := withByte_next h
    exact ⟨_, (Host.Outcome.next.inj h).symm⟩
  | unp1 o => cases ho
  | unp2 o => cases ho
  | unp4 o => cases ho
  | unp8 o => cases ho
  | unp16 o => cases ho
  | addb o =>
    obtain ⟨a, -, h⟩ := withByte_next h
    obtain ⟨b, -, h⟩ := withByte_next h
    exact ⟨_, (Host.Outcome.next.inj h).symm⟩
  | subb o =>
    obtain ⟨a, -, h⟩ := withByte_next h
    obtain ⟨b, -, h⟩ := withByte_next h
    exact ⟨_, (Host.Outcome.next.inj h).symm⟩
  | avgb o =>
    obtain ⟨a, -, h⟩ := withByte_next h
    obtain ⟨b, -, h⟩ := withByte_next h
    exact ⟨_, (Host.Outcome.next.inj h).symm⟩
  | paethb o =>
    obtain ⟨a, -, h⟩ := withByte_next h
    obtain ⟨b, -, h⟩ := withByte_next h
    obtain ⟨c, -, h⟩ := withByte_next h
    exact ⟨_, (Host.Outcome.next.inj h).symm⟩

/-- A byte step of an UNP command writes the next samples to SMP. -/
theorem byteStep_smp_next {i : Instr} {s t : State} (ho : i.writesOut = false) (h : i.byteStep s = .next t) :
    ∃ xs, xs.length = i.resultCount i.indexStep ∧
      t = emitSamples (i.resultCount s.idx) xs i.indexStep s := by
  cases i with
  | unp1 o =>
    obtain ⟨v, -, h⟩ := withByte_next h
    exact ⟨_, rfl, (Host.Outcome.next.inj h).symm⟩
  | unp2 o =>
    obtain ⟨v, -, h⟩ := withByte_next h
    exact ⟨_, rfl, (Host.Outcome.next.inj h).symm⟩
  | unp4 o =>
    obtain ⟨v, -, h⟩ := withByte_next h
    exact ⟨_, rfl, (Host.Outcome.next.inj h).symm⟩
  | unp8 o =>
    obtain ⟨v, -, h⟩ := withByte_next h
    exact ⟨_, rfl, (Host.Outcome.next.inj h).symm⟩
  | unp16 o =>
    obtain ⟨hi, -, h⟩ := withByte_next h
    obtain ⟨lo, -, h⟩ := withByte_next h
    exact ⟨[pairSample hi lo], by simp [Instr.resultCount, Instr.indexStep], (Host.Outcome.next.inj h).symm⟩
  | unfNone o => cases ho
  | unfSub o => cases ho
  | unfUp o => cases ho
  | unfAvg o => cases ho
  | unfPaeth o => cases ho
  | addb o => cases ho
  | subb o => cases ho
  | avgb o => cases ho
  | paethb o => cases ho

/-! ## The core and the whole machine -/

theorem step_quiet {s : State} (h : s.script = []) : step s = coreStep s := by
  simp only [step, systemStep, h]

theorem coreStep_reset {s : State} (h : s.rst = true) : coreStep s = .next s := by
  simp only [coreStep, h, if_true]

theorem coreStep_idle {s : State} (hr : s.rst = false) (hp : s.phase = .idle) : coreStep s = acceptStep s := by
  simp only [coreStep, hr, hp, Bool.false_eq_true, if_false]

theorem coreStep_run {s : State} (hr : s.rst = false) (hp : s.phase = .run) : coreStep s = runStep s := by
  simp only [coreStep, hr, hp, Bool.false_eq_true, if_false]

theorem coreStep_accept {s : State} {d : Descriptor} {rest : List Descriptor} {i : Instr} (hr : s.rst = false)
    (hp : s.phase = .idle) (hc : s.commands = d :: rest) (hd : decode d = .ok i) :
    coreStep s = exec i { s with commands := rest } := by
  rw [coreStep_idle hr hp, acceptStep, hc]; simp only [hd]

theorem coreStep_reject {s : State} {d : Descriptor} {rest : List Descriptor} {k : ErrorKind} (hr : s.rst = false)
    (hp : s.phase = .idle) (hc : s.commands = d :: rest) (hd : decode d = .error k) :
    coreStep s = .next (raiseError k { s with commands := rest }) := by
  rw [coreStep_idle hr hp, acceptStep, hc]; simp only [hd]

theorem coreStep_latched {s : State} {i : Instr} (hr : s.rst = false) (hp : s.phase = .run)
    (hd : decodeLatch s.latch = .ok i) : coreStep s = exec i s := by
  rw [coreStep_run hr hp, runStep]; simp only [hd]

/-- What the core can do in one step that answers a next state. -/
theorem coreStep_next_cases {s t : State} (h : coreStep s = .next t) :
    (s.rst = true ∧ t = s) ∨
    (s.rst = false ∧ s.phase = .idle ∧ s.commands = [] ∧ t = s) ∨
    (∃ d rest k, s.rst = false ∧ s.phase = .idle ∧ s.commands = d :: rest ∧ decode d = .error k ∧
      t = raiseError k { s with commands := rest }) ∨
    (∃ d rest i, s.rst = false ∧ s.phase = .idle ∧ s.commands = d :: rest ∧ decode d = .ok i ∧
      exec i { s with commands := rest } = .next t) ∨
    (∃ i, s.rst = false ∧ s.phase = .run ∧ decodeLatch s.latch = .ok i ∧ exec i s = .next t) := by
  by_cases hr : s.rst = true
  · rw [coreStep_reset hr, Host.Outcome.next.injEq] at h
    exact .inl ⟨hr, h.symm⟩
  · have hr : s.rst = false := by simpa using hr
    refine .inr ?_
    obtain hp | hp : s.phase = .idle ∨ s.phase = .run := by cases s.phase <;> simp
    · match hc : s.commands with
      | [] =>
        rw [coreStep_idle hr hp, acceptStep, hc, Host.Outcome.next.injEq] at h
        exact .inl ⟨hr, hp, rfl, h.symm⟩
      | d :: rest =>
        match hd : decode d with
        | .error k =>
          rw [coreStep_reject hr hp hc hd, Host.Outcome.next.injEq] at h
          exact .inr (.inl ⟨d, rest, k, hr, hp, rfl, hd, h.symm⟩)
        | .ok i =>
          rw [coreStep_accept hr hp hc hd] at h
          exact .inr (.inr (.inl ⟨d, rest, i, hr, hp, rfl, hd, h⟩))
    · match hd : decodeLatch s.latch with
      | .error k => rw [coreStep_run hr hp, runStep, hd] at h; cases h
      | .ok i =>
        rw [coreStep_latched hr hp hd] at h
        exact .inr (.inr (.inr ⟨i, hr, hp, rfl, h⟩))

end Machine

end Sys2Proof
end

