-- ==== Sys2Proof/Laws/Check.lean ====
section
/-! SUPPORT. The fields of a descriptor as numbers, what decoding gives in terms of the latch, and that the checks the
meanings make are those of the one order of 60_exceptions R196. -/

namespace Sys2Proof

/-! ## Fields as numbers -/

theorem Descriptor.rsv_eq_zero (d : Descriptor) : d.rsv = 0#4 ↔ d.w0.toNat / 16 % 16 = 0 := by
  rw [← BitVec.toNat_inj, Descriptor.rsv, BitVec.extractLsb'_toNat, Nat.shiftRight_eq_div_pow]
  simp

theorem Descriptor.latch_opc_toNat (d : Descriptor) : d.latch.opc.toNat = d.w0.toNat % 16 := by
  simp [Descriptor.latch, BitVec.extractLsb'_toNat]

theorem Descriptor.latch_sel_toNat (d : Descriptor) : d.latch.sel.toNat = d.w0.toNat / 256 % 256 := by
  simp [Descriptor.latch, BitVec.extractLsb'_toNat, Nat.shiftRight_eq_div_pow]

theorem Descriptor.latch_bpp_toNat (d : Descriptor) : d.latch.bpp.toNat = d.w0.toNat / 65536 := by
  have := d.w0.isLt
  simp only [Descriptor.latch, BitVec.extractLsb'_toNat, Nat.shiftRight_eq_div_pow]
  omega

theorem Descriptor.latch_bpp_toInt (d : Descriptor) : d.latch.bpp.toInt = signExtend16 (d.w0.toNat / 65536) := by
  rw [← Descriptor.latch_bpp_toNat, BitVec.toInt_eq_toNat_cond, signExtend16]
  split <;> split <;> omega

@[simp] theorem Descriptor.latch_lenA (d : Descriptor) : d.latch.lenA = d.w1 := rfl

@[simp] theorem Descriptor.latch_lenB (d : Descriptor) : d.latch.lenB = d.w2 := rfl

@[simp] theorem Descriptor.latch_lenC (d : Descriptor) : d.latch.lenC = d.w3 := rfl

/-! ## Operand assembly and its inverse -/

/-- Assembled operands fit their fields. -/
theorem Latch.operands_wellFormed (l : Latch) : l.operands.WellFormed := by
  have h := l.bpp.isLt
  have ha := l.lenA.isLt
  have hb := l.lenB.isLt
  have hc := l.lenC.isLt
  refine ⟨⟨?_, ?_⟩, by simpa [Latch.operands] using ha, by simpa [Latch.operands] using hb,
    by simpa [Latch.operands] using hc⟩ <;>
  · simp only [Latch.operands, BitVec.toInt_eq_toNat_cond]
    split <;> omega

/-- Operands that fit their fields are read back from them. -/
theorem Operands.assembled {o : Operands} (h : o.WellFormed) (opc : BitVec 4) (sel : BitVec 8) :
    Latch.operands ⟨opc, sel, BitVec.ofInt 16 o.bpp, BitVec.ofNat 32 o.lenA, BitVec.ofNat 32 o.lenB,
      BitVec.ofNat 32 o.lenC⟩ = o := by
  obtain ⟨bpp, lenA, lenB, lenC⟩ := o
  obtain ⟨⟨h1, h2⟩, ha, hb, hc⟩ := h
  simp only at h1 h2 ha hb hc
  simp only [Latch.operands, Operands.mk.injEq, BitVec.toNat_ofNat]
  refine ⟨?_, Nat.mod_eq_of_lt ha, Nat.mod_eq_of_lt hb, Nat.mod_eq_of_lt hc⟩
  rw [BitVec.toInt_ofInt, Int.bmod_eq_of_le] <;> simp <;> omega

@[simp] theorem Instr.latch_opc (i : Instr) : i.latch.opc = i.opcField := rfl

@[simp] theorem Instr.latch_sel (i : Instr) : i.latch.sel = i.selField := rfl

theorem Instr.latch_operands {i : Instr} (h : i.WellFormed) : i.latch.operands = i.operands :=
  Operands.assembled h _ _

/-- The latch of a command that fits decodes to that command. -/
theorem decodeLatch_latch {i : Instr} (h : i.WellFormed) : decodeLatch i.latch = .ok i := by
  rw [decodeLatch, Instr.latch_operands h]
  cases i <;> rfl

/-- What a latch decodes to carries the latch's class, selector and operands. -/
theorem decodeLatch_fields {l : Latch} {i : Instr} (h : decodeLatch l = .ok i) :
    i.opcField = l.opc ∧ i.selField = l.sel ∧ i.operands = l.operands := by
  unfold decodeLatch at h
  split at h
  · next ho =>
    unfold decodeUnfilter at h
    split_ifs at h with h0 h1 h2 h3 h4 <;> cases h <;>
      refine ⟨ho.symm, BitVec.eq_of_toNat_eq (by simp [Instr.selField, *]), rfl⟩
  · next =>
    split at h
    · next ho =>
      unfold decodeUnpack at h
      split_ifs at h with h0 h1 h2 h3 h4 <;> cases h <;>
        refine ⟨ho.symm, BitVec.eq_of_toNat_eq (by simp [Instr.selField, *]), rfl⟩
    · next =>
      split at h
      · next ho =>
        unfold decodeHelper at h
        split_ifs at h with h0 h1 h2 h3 <;> cases h <;>
          refine ⟨ho.symm, BitVec.eq_of_toNat_eq (by simp [Instr.selField, *]), rfl⟩
      · cases h

/-- A latch that decodes is the latch of its command, which fits its fields. -/
theorem decodeLatch_ok {l : Latch} {i : Instr} (h : decodeLatch l = .ok i) : i.latch = l ∧ i.WellFormed := by
  obtain ⟨ho, hs, hop⟩ := decodeLatch_fields h
  refine ⟨?_, by rw [Instr.WellFormed, hop]; exact l.operands_wellFormed⟩
  obtain ⟨opc, sel, bpp, lenA, lenB, lenC⟩ := l
  simp only [Instr.latch, Latch.mk.injEq]
  exact ⟨ho, hs, by rw [hop]; exact BitVec.ofInt_toInt, by rw [hop]; simp [Latch.operands],
    by rw [hop]; simp [Latch.operands], by rw [hop]; simp [Latch.operands]⟩

theorem decode_ok {d : Descriptor} {i : Instr} (h : decode d = .ok i) : d.rsv = 0#4 ∧ decodeLatch d.latch = .ok i := by
  unfold decode at h
  split at h
  · next hr => exact ⟨hr, h⟩
  · cases h

theorem decode_of_rsv {d : Descriptor} (h : d.rsv = 0#4) : decode d = decodeLatch d.latch := by
  rw [decode, if_pos h]

theorem Descriptor.ext_fields {d d' : Descriptor} (hr : d.rsv = d'.rsv) (hl : d.latch = d'.latch) : d = d' := by
  obtain ⟨w0, w1, w2, w3⟩ := d
  obtain ⟨v0, v1, v2, v3⟩ := d'
  have h1 : w1 = v1 := congrArg Latch.lenA hl
  have h2 : w2 = v2 := congrArg Latch.lenB hl
  have h3 : w3 = v3 := congrArg Latch.lenC hl
  have e1 := congrArg (fun l : Latch => l.opc.toNat) hl
  have e2 := congrArg (fun l : Latch => l.sel.toNat) hl
  have e3 := congrArg (fun l : Latch => l.bpp.toNat) hl
  have e4 := congrArg BitVec.toNat hr
  simp only [Descriptor.latch_opc_toNat, Descriptor.latch_sel_toNat, Descriptor.latch_bpp_toNat] at e1 e2 e3
  simp only [Descriptor.rsv, BitVec.extractLsb'_toNat, Nat.shiftRight_eq_div_pow] at e4
  have h0 : w0 = v0 := BitVec.eq_of_toNat_eq (by omega)
  rw [h0, h1, h2, h3]

/-! ## The checks and the one order of 60_exceptions R196 -/

theorem Latch.opc_eq (l : Latch) (n : Nat) (hn : n < 16) : l.opc = BitVec.ofNat 4 n ↔ l.opc.toNat = n := by
  rw [← BitVec.toNat_inj, BitVec.toNat_ofNat, Nat.mod_eq_of_lt (by omega)]

/-- Decoding, on the numbers of the fields. -/
theorem decode_eq (d : Descriptor) :
    decode d =
      if d.w0.toNat / 16 % 16 = 0 then
        if d.w0.toNat % 16 = 1 then decodeUnfilter (d.w0.toNat / 256 % 256) d.latch.operands
        else if d.w0.toNat % 16 = 2 then decodeUnpack (d.w0.toNat / 256 % 256) d.latch.operands
        else if d.w0.toNat % 16 = 3 then decodeHelper (d.w0.toNat / 256 % 256) d.latch.operands
        else .error .illegalCommand
      else .error .illegalCommand := by
  simp only [decode, decodeLatch, d.rsv_eq_zero, d.latch.opc_eq 1 (by omega), d.latch.opc_eq 2 (by omega),
    d.latch.opc_eq 3 (by omega), d.latch_opc_toNat, d.latch_sel_toNat]

/-- R196 for class UNF, once RSV is 0. -/
theorem Descriptor.firstError_unfilter {d : Descriptor} (hr : d.w0.toNat / 16 % 16 = 0) (ho : d.w0.toNat % 16 = 1) :
    d.firstError =
      if 5 ≤ d.w0.toNat / 256 % 256 then some .unknownFilterType
      else Machine.validateUnfilter (decide (d.w0.toNat / 256 % 256 = 1 ∨ d.w0.toNat / 256 % 256 = 3 ∨
        d.w0.toNat / 256 % 256 = 4)) d.latch := by
  simp only [Descriptor.firstError, Machine.validateUnfilter, hr, ho, d.latch_bpp_toInt, ← BitVec.toNat_inj]
  simp

/-- R196 for class UNP, once RSV is 0. -/
theorem Descriptor.firstError_unpack {d : Descriptor} (hr : d.w0.toNat / 16 % 16 = 0) (ho : d.w0.toNat % 16 = 2) :
    d.firstError =
      if d.w0.toNat / 256 % 256 ∉ Config.bitDepths then some .unsupportedBitDepth
      else if d.w0.toNat / 256 % 256 = 16 ∧ d.w1.toNat % 2 = 1 then some .illegalCommand
      else none := by
  simp only [Descriptor.firstError, hr, ho]
  simp

/-- R196 for class HLP, once RSV is 0. -/
theorem Descriptor.firstError_helper {d : Descriptor} (hr : d.w0.toNat / 16 % 16 = 0) (ho : d.w0.toNat % 16 = 3) :
    d.firstError =
      if 4 ≤ d.w0.toNat / 256 % 256 then some .illegalCommand
      else if d.w2 ≠ d.w1 then some .lengthMismatch
      else if d.w0.toNat / 256 % 256 = 3 ∧ d.w3 ≠ d.w1 then some .lengthMismatch
      else none := by
  simp only [Descriptor.firstError, hr, ho]
  simp

/-- The first error of a descriptor is the kind of its rejection by the decoder, or else what the command's own check
finds. -/
theorem decode_firstError (d : Descriptor) :
    d.firstError = match decode d with
      | .error k => some k
      | .ok i => i.check d.latch := by
  rw [decode_eq]
  by_cases hr : d.w0.toNat / 16 % 16 = 0
  · rw [if_pos hr]
    by_cases h1 : d.w0.toNat % 16 = 1
    · rw [if_pos h1, Descriptor.firstError_unfilter hr h1]
      generalize d.w0.toNat / 256 % 256 = sel
      match sel with
      | 0 | 1 | 2 | 3 | 4 => rfl
      | n + 5 => rfl
    · rw [if_neg h1]
      by_cases h2 : d.w0.toNat % 16 = 2
      · rw [if_pos h2, Descriptor.firstError_unpack hr h2]
        generalize d.w0.toNat / 256 % 256 = sel
        by_cases hs : sel ∈ Config.bitDepths
        · have hs' : sel = 1 ∨ sel = 2 ∨ sel = 4 ∨ sel = 8 ∨ sel = 16 := by simpa using hs
          rw [if_neg (not_not_intro hs)]
          rcases hs' with rfl | rfl | rfl | rfl | rfl
          · rfl
          · rfl
          · rfl
          · rfl
          · by_cases ho : d.w1.toNat % 2 = 1 <;>
              simp [decodeUnpack, Instr.check, Machine.validateUnpack16, ho]
        · rw [if_pos hs]
          have hs' : ¬ sel = 1 ∧ ¬ sel = 2 ∧ ¬ sel = 4 ∧ ¬ sel = 8 ∧ ¬ sel = 16 := by simpa using hs
          obtain ⟨n1, n2, n4, n8, n16⟩ := hs'
          simp only [decodeUnpack, if_neg n1, if_neg n2, if_neg n4, if_neg n8, if_neg n16]
      · rw [if_neg h2]
        by_cases h3 : d.w0.toNat % 16 = 3
        · rw [if_pos h3, Descriptor.firstError_helper hr h3]
          generalize d.w0.toNat / 256 % 256 = sel
          match sel with
          | 0 | 1 | 2 | 3 =>
            by_cases hb : d.w2 = d.w1 <;> by_cases hc : d.w3 = d.w1 <;>
              simp [decodeHelper, Instr.check, Machine.validateHelper, Machine.validateHelper3, hb, hc]
          | n + 4 => rw [if_pos (by omega)]; rfl
        · rw [if_neg h3]
          simp [Descriptor.firstError, hr, h1, h2, h3]
  · rw [if_neg hr]
    simp [Descriptor.firstError, hr]

/-- A command that fits is checked at acceptance by the one order of R196. -/
theorem encode_firstError {i : Instr} (h : i.WellFormed) : (encode i).firstError = i.check i.latch := by
  have hd : decode (encode i) = .ok i := by
    rw [decode_of_rsv (encode_rsv i), encode_latch, decodeLatch_latch h]
  rw [decode_firstError, hd, encode_latch]

theorem valid_iff {i : Instr} : i.Valid ↔ i.WellFormed ∧ i.check i.latch = none :=
  and_congr_right fun h => by rw [encode_firstError h]

end Sys2Proof
end

