-- ==== Sys2Proof/Laws/Running.lean ====
section
/-! SUPPORT. What holds while a command runs: the facts its checks established, the byte each step writes, and that the
start, every byte step and every HOST action keep `Running`. -/

namespace Sys2Proof.Machine

/-! ## Arithmetic -/

theorem addByte_eq (x y : Byte) : addByte x y = x + y := by
  apply BitVec.eq_of_toNat_eq
  simp [addByte, BitVec.toNat_add]

theorem subByte_eq (x y : Byte) : subByte x y = x - y := by
  apply BitVec.eq_of_toNat_eq
  have hx := x.isLt
  have hy := y.isLt
  simp only [subByte, BitVec.toNat_ofInt, BitVec.toNat_sub]
  omega

@[simp] theorem addByte_zero (x : Byte) : addByte x 0 = x := by rw [addByte_eq]; simp

/-! ## Elements of a row -/

@[simp] theorem rowByte_ofNat (m : List Host.Cell) (k : Nat) : rowByte m (k : Int) = (Memory.read m k).getD 0 := by
  simp [rowByte, Int.not_lt.2 (Int.natCast_nonneg k)]

theorem rowByte_neg (m : List Host.Cell) {k : Int} (h : k < 0) : rowByte m k = 0 := by simp [rowByte, h]

theorem rowByte_of_read {m : List Host.Cell} {k : Nat} {x : Byte} (h : Memory.read m k = some x) :
    rowByte m (k : Int) = x := by simp [h]

/-- Elements before an index agree when the listed elements below it agree. -/
theorem rowByte_congr {m m' : List Host.Cell} {n : Nat} (h : ∀ k < n, Memory.read m' k = Memory.read m k) {k : Int}
    (hk : k < n) : rowByte m' k = rowByte m k := by
  by_cases h0 : k < 0
  · rw [rowByte_neg _ h0, rowByte_neg _ h0]
  · rw [rowByte, rowByte, if_neg h0, if_neg h0, h k.toNat (by omega)]

/-! ## What the checks of a command established -/

theorem validateUnfilter_none {b : Bool} {l : Latch} (h : validateUnfilter b l = none) :
    0 < l.bpp.toInt ∧ l.lenB = l.lenA ∧ (b = true → l.lenA ≠ 0#32) := by
  unfold validateUnfilter at h
  split_ifs at h with h1 h2 h3
  exact ⟨by omega, by simpa using h2, fun hb h0 => h3 ⟨hb, h0⟩⟩

theorem validateUnpack16_none {l : Latch} (h : validateUnpack16 l = none) : l.lenA.toNat % 2 = 0 := by
  unfold validateUnpack16 at h
  split_ifs at h
  omega

theorem validateHelper_none {l : Latch} (h : validateHelper l = none) : l.lenB = l.lenA := by
  unfold validateHelper at h
  split_ifs at h with h1
  simpa using h1

theorem validateHelper3_none {l : Latch} (h : validateHelper3 l = none) : l.lenB = l.lenA ∧ l.lenC = l.lenA := by
  unfold validateHelper3 at h
  split_ifs at h with h1 h2
  exact ⟨by simpa using h1, by simpa using h2⟩

namespace Running

variable {i : Instr} {s t : State}

theorem latch_eq (h : Running i s) : s.latch = i.latch := (decodeLatch_ok h.holds).1.symm

theorem wellFormed (h : Running i s) : i.WellFormed := (decodeLatch_ok h.holds).2

theorem check_none (h : Running i s) : i.check i.latch = none := by
  rw [← encode_firstError h.wellFormed]; exact h.valid

theorem operands_eq (h : Running i s) : s.latch.operands = i.operands := (decodeLatch_fields h.holds).2.2.symm

theorem bpp_eq (h : Running i s) : s.latch.bpp.toInt = i.operands.bpp := congrArg Operands.bpp h.operands_eq

theorem lenA_eq (h : Running i s) : s.latch.lenA.toNat = i.operands.lenA := congrArg Operands.lenA h.operands_eq

theorem stride_eq (h : Running i s) : (stride s : Nat) = i.operands.bpp.toNat := by rw [stride, h.bpp_eq]

/-- An engine command with predictor state has a positive stride and a non-empty row. -/
theorem usesLeft_facts (h : Running i s) (hu : i.usesLeft = true) :
    0 < i.operands.bpp ∧ s.latch.lenB = s.latch.lenA ∧ 0 < stride s := by
  have hc : validateUnfilter true i.latch = none := by
    have := h.check_none
    cases i <;> first | exact this | cases hu
  obtain ⟨h1, h2, -⟩ := validateUnfilter_none hc
  rw [← h.latch_eq] at h1 h2
  exact ⟨h.bpp_eq ▸ h1, h2, by rw [stride]; omega⟩

/-- The left neighbour the step reads is the byte of OUT bpp positions back (10_state R26). -/
theorem readLeft_eq (h : Running i s) (hu : i.usesLeft = true) :
    readLeft s = .ok (rowByte s.out ((s.idx : Int) - i.operands.bpp)) := by
  obtain ⟨hb, -, hs⟩ := h.usesLeft_facts hu
  have hst : ((stride s : Nat) : Int) = i.operands.bpp := by rw [h.stride_eq]; omega
  have hj : strideIndex s < stride s := Nat.mod_lt _ hs
  rw [readLeft_ok, h.leftValues hu _ hj, Option.some.injEq, lastInGroup, ← hst]
  have hdm := Nat.div_add_mod s.idx (stride s)
  have hsi : strideIndex s = s.idx % stride s := rfl
  by_cases hi : stride s ≤ s.idx
  · have hq : 1 ≤ s.idx / stride s := Nat.div_pos hi hs
    obtain ⟨q, hqe⟩ : ∃ q, s.idx / stride s = q + 1 := ⟨s.idx / stride s - 1, by omega⟩
    rw [hqe, Nat.mul_add, Nat.mul_one] at hdm
    have hpos : s.idx - 1 - strideIndex s = (stride s - 1) + stride s * q := by omega
    rw [if_pos (by omega), hpos, Nat.add_mul_div_left _ _ hs, Nat.div_eq_of_lt (by omega), Nat.zero_add]
    congr 1
    have : strideIndex s + stride s * q + stride s = s.idx := by omega
    omega
  · have hlt : s.idx % stride s = s.idx := Nat.mod_eq_of_lt (by omega)
    rw [if_neg (by omega), rowByte_neg _ (by omega)]

theorem left_value (h : Running i s) (hu : i.usesLeft = true) {a : Byte} (ha : readLeft s = .ok a) :
    a = rowByte s.out ((s.idx : Int) - i.operands.bpp) := by
  rw [h.readLeft_eq hu] at ha
  exact (Except.ok.inj ha).symm

theorem upperLeft_value (h : Running i s) (hu : i.usesLeft = true) {c : Byte} (hc : readUpperLeft s = .ok c) :
    c = rowByte s.spaceB ((s.idx : Int) - i.operands.bpp) := by
  obtain ⟨hb, -, -⟩ := h.usesLeft_facts hu
  have hst : ((stride s : Nat) : Int) = i.operands.bpp := by rw [h.stride_eq]; omega
  rw [readUpperLeft_ok] at hc
  rw [← hst]
  split_ifs at hc with hi
  · rw [← Nat.cast_sub hi]
    exact (rowByte_of_read (readOperand_ok.1 hc).2).symm
  · rw [hc, rowByte_neg _ (by omega)]

end Running

theorem readOperand_value {s : State} {k : Nat} {x : Byte} {sp : OperandSpace} (h : readOperand sp k s = .ok x) :
    x = rowByte (operandMemory s sp) (k : Int) := (rowByte_of_read (readOperand_ok.1 h).2).symm

/-! ## The byte and the samples each step writes -/

/-- A byte step of a running command writes the element of the closed form. -/
theorem Running.byteStep_out {i : Instr} {s t : State} (hR : Running i s) (ho : i.writesOut = true)
    (h : i.byteStep s = .next t) :
    t = emitByte (outElement i s s.idx) (rollLeft i (outElement i s s.idx) s) := by
  cases i with
  | unfNone o =>
    obtain ⟨x, hx, h⟩ := withByte_next h
    cases h
    rw [readOperand_value hx, addByte_zero]; rfl
  | unfSub o =>
    obtain ⟨x, hx, h⟩ := withByte_next h
    obtain ⟨a, ha, h⟩ := withByte_next h
    cases h
    rw [readOperand_value hx, hR.left_value rfl ha, addByte_eq]; rfl
  | unfUp o =>
    obtain ⟨x, hx, h⟩ := withByte_next h
    obtain ⟨b, hb, h⟩ := withByte_next h
    cases h
    rw [readOperand_value hx, readOperand_value hb, addByte_eq]; rfl
  | unfAvg o =>
    obtain ⟨x, hx, h⟩ := withByte_next h
    obtain ⟨a, ha, h⟩ := withByte_next h
    obtain ⟨b, hb, h⟩ := withByte_next h
    cases h
    rw [readOperand_value hx, hR.left_value rfl ha, readOperand_value hb, addByte_eq]; rfl
  | unfPaeth o =>
    obtain ⟨x, hx, h⟩ := withByte_next h
    obtain ⟨a, ha, h⟩ := withByte_next h
    obtain ⟨b, hb, h⟩ := withByte_next h
    obtain ⟨c, hc, h⟩ := withByte_next h
    cases h
    rw [readOperand_value hx, hR.left_value rfl ha, readOperand_value hb, hR.upperLeft_value rfl hc, addByte_eq]; rfl
  | addb o =>
    obtain ⟨a, ha, h⟩ := withByte_next h
    obtain ⟨b, hb, h⟩ := withByte_next h
    cases h
    rw [readOperand_value ha, readOperand_value hb, addByte_eq]; rfl
  | subb o =>
    obtain ⟨a, ha, h⟩ := withByte_next h
    obtain ⟨b, hb, h⟩ := withByte_next h
    cases h
    rw [readOperand_value ha, readOperand_value hb, subByte_eq]; rfl
  | avgb o =>
    obtain ⟨a, ha, h⟩ := withByte_next h
    obtain ⟨b, hb, h⟩ := withByte_next h
    cases h
    rw [readOperand_value ha, readOperand_value hb]; rfl
  | paethb o =>
    obtain ⟨a, ha, h⟩ := withByte_next h
    obtain ⟨b, hb, h⟩ := withByte_next h
    obtain ⟨c, hc, h⟩ := withByte_next h
    cases h
    rw [readOperand_value ha, readOperand_value hb, readOperand_value hc]; rfl
  | unp1 o => cases ho
  | unp2 o => cases ho
  | unp4 o => cases ho
  | unp8 o => cases ho
  | unp16 o => cases ho

theorem subByteSample_eq (d : Nat) (v : Byte) (k : Nat) :
    subByteSample d v k = BitVec.ofNat 16 (v.toNat / 2 ^ (8 - d * (k + 1)) % 2 ^ d) := by
  rw [subByteSample, Nat.and_two_pow_sub_one_eq_mod, Nat.shiftRight_eq_div_pow]

/-- The samples a sub-byte step writes are those of the closed form. -/
theorem subByteSamples_get {d n : Nat} {s : State} {v : Byte} (hn : 8 / d = n) (hpos : 0 < n)
    (hv : v = rowByte s.spaceA (s.idx : Int)) {m : Nat} (hm : m < n) :
    (subByteSamples d v)[m]? = some (packedSample d s (s.idx * n + m)) := by
  have h1 : (s.idx * n + m) / n = s.idx := by
    rw [Nat.mul_comm, Nat.mul_add_div hpos, Nat.div_eq_of_lt hm, Nat.add_zero]
  have h2 : (s.idx * n + m) % n = m := by
    rw [Nat.mul_comm, Nat.mul_add_mod, Nat.mod_eq_of_lt hm]
  rw [subByteSamples, hn, List.getElem?_map, List.getElem?_range hm, Option.map_some, subByteSample_eq, packedSample, hn,
    h1, h2, hv]

theorem pairSample_eq (hi lo : Byte) : pairSample hi lo = BitVec.ofNat 16 (hi.toNat * 256 + lo.toNat) := by
  rw [pairSample, ← Nat.shiftLeft_add_eq_or_of_lt (by exact lo.isLt), Nat.shiftLeft_eq]

/-- A byte step of a running UNP command writes the samples of the closed form. -/
theorem Running.byteStep_smp {i : Instr} {s t : State} (hR : Running i s) (ho : i.writesOut = false)
    (h : i.byteStep s = .next t) :
    ∃ xs : List Sample, xs.length = i.resultCount i.indexStep ∧
      (∀ m < i.resultCount i.indexStep, xs[m]? = some (sampleElement i s (i.resultCount s.idx + m))) ∧
      t = emitSamples (i.resultCount s.idx) xs i.indexStep s := by
  cases i with
  | unp1 o =>
    obtain ⟨v, hv, h⟩ := withByte_next h
    exact ⟨_, rfl, fun m hm => subByteSamples_get (n := 8) rfl (by omega) (readOperand_value hv) hm,
      (Host.Outcome.next.inj h).symm⟩
  | unp2 o =>
    obtain ⟨v, hv, h⟩ := withByte_next h
    exact ⟨_, rfl, fun m hm => subByteSamples_get (n := 4) rfl (by omega) (readOperand_value hv) hm,
      (Host.Outcome.next.inj h).symm⟩
  | unp4 o =>
    obtain ⟨v, hv, h⟩ := withByte_next h
    exact ⟨_, rfl, fun m hm => subByteSamples_get (n := 2) rfl (by omega) (readOperand_value hv) hm,
      (Host.Outcome.next.inj h).symm⟩
  | unp8 o =>
    obtain ⟨v, hv, h⟩ := withByte_next h
    refine ⟨_, rfl, fun m hm => ?_, (Host.Outcome.next.inj h).symm⟩
    obtain rfl : m = 0 := by simpa [Instr.resultCount, Instr.indexStep] using hm
    have hlt := v.isLt
    have e : v = rowByte s.spaceA (s.idx : Int) := readOperand_value hv
    simp only [List.getElem?_cons_zero, byteSample, sampleElement, packedSample, Instr.resultCount, Nat.add_zero,
      Nat.div_self (show 0 < 8 by omega), Nat.div_one, Nat.mod_one, Nat.zero_add, Nat.mul_one, Nat.sub_self, pow_zero,
      ← e]
    rw [Nat.mod_eq_of_lt hlt]
  | unp16 o =>
    obtain ⟨hi, hhi, h⟩ := withByte_next h
    obtain ⟨lo, hlo, h⟩ := withByte_next h
    refine ⟨[pairSample hi lo], by simp [Instr.resultCount, Instr.indexStep], fun m hm => ?_,
      (Host.Outcome.next.inj h).symm⟩
    obtain rfl : m = 0 := by simpa [Instr.resultCount, Instr.indexStep] using hm
    have ha : s.idx % 2 = 0 := hR.aligned
    have e1 : 2 * (s.idx / 2) = s.idx := by omega
    have h1 : hi = rowByte s.spaceA (s.idx : Int) := readOperand_value hhi
    have h2 : lo = rowByte s.spaceA ((s.idx + 1 : Nat) : Int) := readOperand_value hlo
    simp only [List.getElem?_cons_zero, sampleElement, Instr.resultCount, Nat.add_zero, e1, ← h1, ← h2, pairSample_eq]
  | unfNone o => cases ho
  | unfSub o => cases ho
  | unfUp o => cases ho
  | unfAvg o => cases ho
  | unfPaeth o => cases ho
  | addb o => cases ho
  | subb o => cases ho
  | avgb o => cases ho
  | paethb o => cases ho

end Sys2Proof.Machine
end

