-- ==== Sys2Proof/Laws/Keep.lean ====
section
/-! SUPPORT. Running is established by the start of a valid command and kept by each of its byte steps; the HOST's
actions keep it where they answer a next state. -/

namespace Sys2Proof.Machine

/-! ## The closed forms depend only on what the command reads -/

/-- The closed form of an element of OUT depends on the operand spaces the command uses and on the elements of OUT below
it. -/
theorem outElement_congr {i : Instr} {s t : State} {n k : Nat} (hb : i.usesLeft = true → 0 < i.operands.bpp)
    (ha : t.spaceA = s.spaceA) (hB : i.opcField ≠ 2#4 → t.spaceB = s.spaceB)
    (hC : i.opcField = 3#4 ∧ i.selField = 3#8 → t.spaceC = s.spaceC)
    (ho : ∀ k < n, Memory.read t.out k = Memory.read s.out k) (hk : k ≤ n) :
    outElement i t k = outElement i s k := by
  cases i with
  | unfNone o => simp only [outElement, ha]
  | unfSub o =>
    have := hb rfl
    simp only [Instr.operands] at this
    simp only [outElement, ha, rowByte_congr ho (show (k : Int) - o.bpp < n by omega)]
  | unfUp o => simp only [outElement, ha, hB (by simp [Instr.opcField])]
  | unfAvg o =>
    have := hb rfl
    simp only [Instr.operands] at this
    simp only [outElement, ha, hB (by simp [Instr.opcField]), rowByte_congr ho (show (k : Int) - o.bpp < n by omega)]
  | unfPaeth o =>
    have := hb rfl
    simp only [Instr.operands] at this
    simp only [outElement, ha, hB (by simp [Instr.opcField]), rowByte_congr ho (show (k : Int) - o.bpp < n by omega)]
  | addb o => simp only [outElement, ha, hB (by simp [Instr.opcField])]
  | subb o => simp only [outElement, ha, hB (by simp [Instr.opcField])]
  | avgb o => simp only [outElement, ha, hB (by simp [Instr.opcField])]
  | paethb o => simp only [outElement, ha, hB (by simp [Instr.opcField]), hC ⟨rfl, rfl⟩]
  | unp1 o => rfl
  | unp2 o => rfl
  | unp4 o => rfl
  | unp8 o => rfl
  | unp16 o => rfl

/-- The closed form of a sample depends on operand A alone. -/
theorem sampleElement_congr (i : Instr) {s t : State} (ha : t.spaceA = s.spaceA) (k : Nat) :
    sampleElement i t k = sampleElement i s k := by
  cases i <;> simp only [sampleElement, packedSample, ha]

theorem resultCount_out {i : Instr} (ho : i.writesOut = true) (n : Nat) : i.resultCount n = n := by
  cases i <;> first | rfl | cases ho

theorem indexStep_out {i : Instr} (ho : i.writesOut = true) : i.indexStep = 1 := by
  cases i <;> first | rfl | cases ho

theorem usesLeft_writesOut {i : Instr} (hu : i.usesLeft = true) : i.writesOut = true := by
  cases i <;> first | rfl | cases hu

/-- The results a step adds are the results of its index step. -/
theorem resultCount_step (i : Instr) {n : Nat} (hn : n % i.indexStep = 0) :
    i.resultCount (n + i.indexStep) = i.resultCount n + i.resultCount i.indexStep := by
  cases i <;> simp only [Instr.resultCount, Instr.indexStep] at * <;> omega

theorem indexStep_pos (i : Instr) : 0 < i.indexStep := by
  cases i <;> simp [Instr.indexStep]

/-- LEN_A of a valid command is a whole number of steps. -/
theorem lenA_aligned {i : Instr} (h : i.check i.latch = none) : i.latch.lenA.toNat % i.indexStep = 0 := by
  cases i with
  | unp16 o => exact validateUnpack16_none h
  | _ => exact Nat.mod_one _

/-! ## The start -/

@[simp] theorem start_phase (i : Instr) (s : State) : (i.start s).phase = .run := by
  unfold Instr.start; split_ifs <;> rfl

@[simp] theorem start_latch (i : Instr) (s : State) : (i.start s).latch = i.latch := by
  unfold Instr.start; split_ifs <;> rfl

@[simp] theorem start_idx (i : Instr) (s : State) : (i.start s).idx = 0 := by
  unfold Instr.start; split_ifs <;> rfl

@[simp] theorem start_spaceA (i : Instr) (s : State) : (i.start s).spaceA = s.spaceA := by
  unfold Instr.start; split_ifs <;> rfl

@[simp] theorem start_spaceB (i : Instr) (s : State) : (i.start s).spaceB = s.spaceB := by
  unfold Instr.start; split_ifs <;> rfl

@[simp] theorem start_spaceC (i : Instr) (s : State) : (i.start s).spaceC = s.spaceC := by
  unfold Instr.start; split_ifs <;> rfl

@[simp] theorem start_responses (i : Instr) (s : State) : (i.start s).responses = s.responses := by
  unfold Instr.start; split_ifs <;> rfl

@[simp] theorem start_commands (i : Instr) (s : State) : (i.start s).commands = s.commands := by
  unfold Instr.start; split_ifs <;> rfl

@[simp] theorem start_rst (i : Instr) (s : State) : (i.start s).rst = s.rst := by
  unfold Instr.start; split_ifs <;> rfl

@[simp] theorem start_script (i : Instr) (s : State) : (i.start s).script = s.script := by
  unfold Instr.start; split_ifs <;> rfl

@[simp] theorem start_received (i : Instr) (s : State) : (i.start s).received = s.received := by
  unfold Instr.start; split_ifs <;> rfl

theorem start_out {i : Instr} (s : State) :
    (i.start s).out = if i.writesOut = true then [] else s.out := by
  cases i <;> rfl

theorem start_smp {i : Instr} (s : State) :
    (i.start s).smp = if i.writesOut = true then s.smp else [] := by
  cases i <;> rfl

theorem start_outReady {i : Instr} (s : State) :
    (i.start s).outReady = if i.writesOut = true then none else s.outReady := by
  cases i <;> rfl

theorem start_left {i : Instr} (s : State) :
    (i.start s).left = if i.usesLeft = true then List.replicate i.latch.bpp.toInt.toNat 0 else s.left := by
  cases i <;> rfl

/-- The start of a valid command establishes `Running`. -/
theorem running_start {i : Instr} {s : State} (hw : i.WellFormed) (hc : i.check i.latch = none) :
    Running i (i.start s) where
  holds := by rw [start_latch]; exact decodeLatch_latch hw
  valid := by rw [encode_firstError hw]; exact hc
  bounded := by rw [start_idx]; omega
  aligned := by rw [start_idx]; exact Nat.zero_mod _
  outPrefix ho := by rw [start_out, if_pos ho, start_idx, resultCount_out ho]; rfl
  outValues ho k hk := by rw [start_idx, resultCount_out ho] at hk; omega
  outBusy ho := by rw [start_outReady, if_pos ho]
  smpPrefix ho := by
    rw [start_smp, if_neg (by simp [ho]), start_idx]
    have : i.resultCount 0 = 0 := by cases i <;> rfl
    rw [this]; rfl
  smpValues ho k hk := by
    have : i.resultCount 0 = 0 := by cases i <;> rfl
    rw [start_idx, this] at hk; omega
  leftSize hu := by rw [start_left, if_pos hu, List.length_replicate, stride, start_latch]
  leftValues hu r hr := by
    rw [stride, start_latch] at hr
    rw [start_left, if_pos hu, List.getElem?_replicate, if_pos hr, lastInGroup, start_idx, if_neg (by omega)]

/-! ## A byte step -/

@[simp] theorem rollLeft_phase (i : Instr) (y : Byte) (s : State) : (rollLeft i y s).phase = s.phase := by
  unfold rollLeft; split_ifs <;> rfl

@[simp] theorem rollLeft_latch (i : Instr) (y : Byte) (s : State) : (rollLeft i y s).latch = s.latch := by
  unfold rollLeft; split_ifs <;> rfl

@[simp] theorem rollLeft_idx (i : Instr) (y : Byte) (s : State) : (rollLeft i y s).idx = s.idx := by
  unfold rollLeft; split_ifs <;> rfl

@[simp] theorem rollLeft_spaceA (i : Instr) (y : Byte) (s : State) : (rollLeft i y s).spaceA = s.spaceA := by
  unfold rollLeft; split_ifs <;> rfl

@[simp] theorem rollLeft_spaceB (i : Instr) (y : Byte) (s : State) : (rollLeft i y s).spaceB = s.spaceB := by
  unfold rollLeft; split_ifs <;> rfl

@[simp] theorem rollLeft_spaceC (i : Instr) (y : Byte) (s : State) : (rollLeft i y s).spaceC = s.spaceC := by
  unfold rollLeft; split_ifs <;> rfl

@[simp] theorem rollLeft_out (i : Instr) (y : Byte) (s : State) : (rollLeft i y s).out = s.out := by
  unfold rollLeft; split_ifs <;> rfl

@[simp] theorem rollLeft_smp (i : Instr) (y : Byte) (s : State) : (rollLeft i y s).smp = s.smp := by
  unfold rollLeft; split_ifs <;> rfl

@[simp] theorem rollLeft_responses (i : Instr) (y : Byte) (s : State) : (rollLeft i y s).responses = s.responses := by
  unfold rollLeft; split_ifs <;> rfl

@[simp] theorem rollLeft_commands (i : Instr) (y : Byte) (s : State) : (rollLeft i y s).commands = s.commands := by
  unfold rollLeft; split_ifs <;> rfl

@[simp] theorem rollLeft_rst (i : Instr) (y : Byte) (s : State) : (rollLeft i y s).rst = s.rst := by
  unfold rollLeft; split_ifs <;> rfl

@[simp] theorem rollLeft_script (i : Instr) (y : Byte) (s : State) : (rollLeft i y s).script = s.script := by
  unfold rollLeft; split_ifs <;> rfl

@[simp] theorem rollLeft_received (i : Instr) (y : Byte) (s : State) : (rollLeft i y s).received = s.received := by
  unfold rollLeft; split_ifs <;> rfl

@[simp] theorem rollLeft_outReady (i : Instr) (y : Byte) (s : State) : (rollLeft i y s).outReady = s.outReady := by
  unfold rollLeft; split_ifs <;> rfl

theorem rollLeft_left {i : Instr} (y : Byte) (s : State) :
    (rollLeft i y s).left = if i.usesLeft = true then s.left.set (strideIndex s) y else s.left := by
  unfold rollLeft; split_ifs <;> rfl

/-- The largest index below `n + 1` in group `r`: `n` itself when `n` is in the group, else the one below `n`. -/
theorem group_index_step {n r d : Nat} (hd : 0 < d) (hr : r < d) (hrn : r < n + 1) :
    r + d * ((n + 1 - 1 - r) / d) = if r = n % d then n else r + d * ((n - 1 - r) / d) := by
  have hdm := Nat.div_add_mod n d
  by_cases h : r = n % d
  · rw [if_pos h]
    have : n + 1 - 1 - r = d * (n / d) := by omega
    rw [this, Nat.mul_div_cancel_left _ hd]; omega
  · rw [if_neg h]
    have hlt : r < n := by
      rcases Nat.lt_or_ge r n with h' | h'
      · exact h'
      · exact absurd (by rw [show n = r by omega, Nat.mod_eq_of_lt hr]) h
    have hne : (n - r) % d ≠ 0 := by
      intro h0
      apply h
      have : n % d = (r + (n - r)) % d := by rw [show r + (n - r) = n by omega]
      rw [this, Nat.add_mod, h0, Nat.add_zero, Nat.mod_mod, Nat.mod_eq_of_lt hr]
    have hdm' := Nat.div_add_mod (n - r) d
    have hml := Nat.mod_lt (n - r) hd
    have : (n - 1 - r) / d = (n - r) / d := by
      have e : n - 1 - r = ((n - r) % d - 1) + d * ((n - r) / d) := by omega
      rw [e, Nat.add_mul_div_left _ _ hd, Nat.div_eq_of_lt (by omega), Nat.zero_add]
    rw [show n + 1 - 1 - r = n - r by omega, this]

/-- Every byte step of a running command that answers a next state keeps `Running`. -/
theorem running_byteStep {i : Instr} {s t : State} (hR : Running i s) (hlt : s.idx < s.latch.lenA.toNat)
    (h : i.byteStep s = .next t) : Running i t := by
  cases ho : i.writesOut with
  | true =>
    have hc : ∀ n, i.resultCount n = n := resultCount_out ho
    obtain rfl := hR.byteStep_out ho h
    generalize hy : outElement i s s.idx = y
    have hread : ∀ k < s.idx, Memory.read (emitByte y (rollLeft i y s)).out k = Memory.read s.out k := fun k hk => by
      rw [emitByte_out, rollLeft_out, rollLeft_idx, memory_read_write_other _ _ (by omega)]
    have hel : ∀ k ≤ s.idx, outElement i (emitByte y (rollLeft i y s)) k = outElement i s k := fun k hk =>
      outElement_congr (fun hu => (hR.usesLeft_facts hu).1) (by simp) (fun _ => by simp) (fun _ => by simp) hread hk
    have hnew : Memory.read (emitByte y (rollLeft i y s)).out s.idx = some y := by simp
    refine
      { holds := by simpa using hR.holds
        valid := hR.valid
        bounded := by simp only [emitByte_idx, emitByte_latch, rollLeft_idx, rollLeft_latch]; omega
        aligned := by rw [indexStep_out ho]; exact Nat.mod_one _
        outPrefix := fun _ => ?_
        outValues := fun _ k hk => ?_
        outBusy := fun _ => by simpa using hR.outBusy ho
        smpPrefix := fun h' => by rw [ho] at h'; cases h'
        smpValues := fun h' => by rw [ho] at h'; cases h'
        leftSize := fun hu => ?_
        leftValues := fun hu r hr => ?_ }
    · have := hR.outPrefix ho
      rw [hc] at this ⊢
      simpa using writtenPrefix_write y this
    · rw [hc, emitByte_idx, rollLeft_idx] at hk
      rcases Nat.lt_succ_iff_lt_or_eq.1 hk with hk | rfl
      · rw [hread k hk, hel k (by omega)]
        exact hR.outValues ho k (by rwa [hc])
      · rw [hnew, hel _ (Nat.le_refl _), hy]
    · have := hR.leftSize hu
      simpa [rollLeft_left, hu, stride] using this
    · obtain ⟨-, -, hs⟩ := hR.usesLeft_facts hu
      have hst : stride (emitByte y (rollLeft i y s)) = stride s := by simp [stride]
      rw [hst] at hr
      have hv := hR.leftValues hu r hr
      have hlen := hR.leftSize hu
      rw [emitByte_left, rollLeft_left, if_pos hu, List.getElem?_set, lastInGroup, hst]
      simp only [emitByte_idx, rollLeft_idx]
      have hsi : strideIndex s = s.idx % stride s := rfl
      have hjle : s.idx % stride s ≤ s.idx := Nat.mod_le _ _
      by_cases hj : strideIndex s = r
      · rw [if_pos hj, if_pos (by omega), if_pos (by omega), group_index_step hs hr (by omega), if_pos (by omega),
          rowByte_ofNat, hnew]; rfl
      · rw [if_neg hj, hv, lastInGroup]
        by_cases hri : r < s.idx
        · rw [if_pos hri, if_pos (by omega), group_index_step hs hr (by omega), if_neg (by omega)]
          have hk : r + stride s * ((s.idx - 1 - r) / stride s) < s.idx := by
            have := Nat.mul_div_le (s.idx - 1 - r) (stride s); omega
          rw [rowByte_ofNat, rowByte_ofNat, hread _ hk]
        · have : r ≠ s.idx := by
            rintro rfl
            exact hj (by rw [hsi, Nat.mod_eq_of_lt hr])
          rw [if_neg hri, if_neg (by omega)]
  | false =>
    obtain ⟨xs, hlen, hget, rfl⟩ := hR.byteStep_smp ho h
    have hcount := resultCount_step i hR.aligned
    have hla := lenA_aligned hR.check_none
    rw [← hR.latch_eq] at hla
    have hel : ∀ k, sampleElement i (emitSamples (i.resultCount s.idx) xs i.indexStep s) k = sampleElement i s k :=
      fun k => sampleElement_congr i (by simp) k
    refine
      { holds := by simpa using hR.holds
        valid := hR.valid
        bounded := ?_
        aligned := ?_
        outPrefix := fun h' => by rw [ho] at h'; cases h'
        outValues := fun h' => by rw [ho] at h'; cases h'
        outBusy := fun h' => by rw [ho] at h'; cases h'
        smpPrefix := fun _ => ?_
        smpValues := fun _ k hk => ?_
        leftSize := fun hu => by rw [usesLeft_writesOut hu] at ho; cases ho
        leftValues := fun hu => by rw [usesLeft_writesOut hu] at ho; cases ho }
    · simp only [emitSamples_idx, emitSamples_latch]
      have h1 := hR.aligned
      have hp := indexStep_pos i
      have e1 := Nat.div_add_mod s.idx i.indexStep
      have e2 := Nat.div_add_mod s.latch.lenA.toNat i.indexStep
      rw [h1] at e1
      rw [hla] at e2
      have hq : s.idx / i.indexStep < s.latch.lenA.toNat / i.indexStep := by
        by_contra hge
        have := Nat.mul_le_mul_left i.indexStep (Nat.not_lt.1 hge)
        omega
      have := Nat.mul_le_mul_left i.indexStep (Nat.succ_le_of_lt hq)
      rw [Nat.mul_succ] at this
      omega
    · rw [emitSamples_idx, Nat.add_mod_right]; exact hR.aligned
    · rw [emitSamples_idx, hcount, emitSamples_smp, ← hlen]
      exact writtenPrefix_writeFrom xs (hR.smpPrefix ho)
    · rw [emitSamples_idx, hcount] at hk
      rw [emitSamples_smp, memory_read_writeFrom, hel, hlen]
      by_cases hk' : k < i.resultCount s.idx
      · rw [if_neg (by omega)]
        exact hR.smpValues ho k hk'
      · rw [if_pos (by omega), hget _ (by omega), show i.resultCount s.idx + (k - i.resultCount s.idx) = k by omega]

/-! ## Steps that do not touch the running command -/

/-- `Running` depends only on the command's own state and the spaces the command uses. -/
theorem running_congr {i : Instr} {s t : State} (hR : Running i s) (hl : t.latch = s.latch) (hi : t.idx = s.idx)
    (hleft : t.left = s.left) (hout : t.out = s.out) (hsmp : t.smp = s.smp) (hready : t.outReady = s.outReady)
    (hA : t.spaceA = s.spaceA) (hB : usesSpace s.latch .b = true → t.spaceB = s.spaceB)
    (hC : usesSpace s.latch .c = true → t.spaceC = s.spaceC) : Running i t := by
  obtain ⟨ho, hs, -⟩ := decodeLatch_fields hR.holds
  have hel : ∀ k, outElement i t k = outElement i s k := fun k =>
    outElement_congr (n := k) (fun hu => (hR.usesLeft_facts hu).1) hA
      (fun h => hB (by simpa [usesSpace, ← ho] using h)) (fun h => hC (by simpa [usesSpace, ← ho, ← hs] using h))
      (fun k _ => by rw [hout]) (Nat.le_refl _)
  have hlast : ∀ r, lastInGroup t r = lastInGroup s r := fun r => by simp only [lastInGroup, stride, hi, hl, hout]
  have hst : stride t = stride s := by rw [stride, stride, hl]
  exact
    { holds := by rw [hl]; exact hR.holds
      valid := hR.valid
      bounded := by rw [hl, hi]; exact hR.bounded
      aligned := by rw [hi]; exact hR.aligned
      outPrefix := fun h => by rw [hout, hi]; exact hR.outPrefix h
      outValues := fun h k hk => by rw [hi] at hk; rw [hout, hel]; exact hR.outValues h k hk
      outBusy := fun h => by rw [hready]; exact hR.outBusy h
      smpPrefix := fun h => by rw [hsmp, hi]; exact hR.smpPrefix h
      smpValues := fun h k hk => by
        rw [hi] at hk; rw [hsmp, sampleElement_congr i hA]; exact hR.smpValues h k hk
      leftSize := fun hu => by rw [hleft, hst]; exact hR.leftSize hu
      leftValues := fun hu r hr => by rw [hst] at hr; rw [hleft, hlast]; exact hR.leftValues hu r hr }

end Sys2Proof.Machine
end

