-- ==== Sys2Proof/Laws/PerInstr.lean ====
section
/-! SUPPORT. The per-instruction family `OpcodeRow`: the first word of every command is its row of 30_encoding R95 with BPP
in the upper half, which leaves no other bit. -/

namespace Sys2Proof.Laws

/-- The `W0 match` value of each command's row (30_encoding R95). -/
def rowMatch : Instr → Nat
  | .unfNone _ => 0x00000001
  | .unfSub _ => 0x00000101
  | .unfUp _ => 0x00000201
  | .unfAvg _ => 0x00000301
  | .unfPaeth _ => 0x00000401
  | .unp1 _ => 0x00000102
  | .unp2 _ => 0x00000202
  | .unp4 _ => 0x00000402
  | .unp8 _ => 0x00000802
  | .unp16 _ => 0x00001002
  | .addb _ => 0x00000003
  | .subb _ => 0x00000103
  | .avgb _ => 0x00000203
  | .paethb _ => 0x00000303

/-- W0 is the row's match value plus the stride field: mask and match together with BPP determine the word. -/
def OpcodeRow.Statement (i : Instr) : Prop :=
  (encode i).w0.toNat = rowMatch i + (i.operands.bpp % 65536).toNat * 65536

theorem encode_w0_toNat (i : Instr) :
    (encode i).w0.toNat = i.opcField.toNat + i.selField.toNat * 256 + (i.operands.bpp % 65536).toNat * 65536 := by
  have hb : i.latch.bpp.toNat = (i.operands.bpp % 65536).toNat := BitVec.toNat_ofInt _
  rw [encode, Latch.descriptor_w0_toNat, hb]
  rfl

theorem OpcodeRow.unfNone (o : Operands) : OpcodeRow.Statement (.unfNone o) := by
  simp [OpcodeRow.Statement, encode_w0_toNat, rowMatch, Instr.opcField, Instr.selField]
theorem OpcodeRow.unfSub (o : Operands) : OpcodeRow.Statement (.unfSub o) := by
  simp [OpcodeRow.Statement, encode_w0_toNat, rowMatch, Instr.opcField, Instr.selField]
theorem OpcodeRow.unfUp (o : Operands) : OpcodeRow.Statement (.unfUp o) := by
  simp [OpcodeRow.Statement, encode_w0_toNat, rowMatch, Instr.opcField, Instr.selField]
theorem OpcodeRow.unfAvg (o : Operands) : OpcodeRow.Statement (.unfAvg o) := by
  simp [OpcodeRow.Statement, encode_w0_toNat, rowMatch, Instr.opcField, Instr.selField]
theorem OpcodeRow.unfPaeth (o : Operands) : OpcodeRow.Statement (.unfPaeth o) := by
  simp [OpcodeRow.Statement, encode_w0_toNat, rowMatch, Instr.opcField, Instr.selField]
theorem OpcodeRow.unp1 (o : Operands) : OpcodeRow.Statement (.unp1 o) := by
  simp [OpcodeRow.Statement, encode_w0_toNat, rowMatch, Instr.opcField, Instr.selField]
theorem OpcodeRow.unp2 (o : Operands) : OpcodeRow.Statement (.unp2 o) := by
  simp [OpcodeRow.Statement, encode_w0_toNat, rowMatch, Instr.opcField, Instr.selField]
theorem OpcodeRow.unp4 (o : Operands) : OpcodeRow.Statement (.unp4 o) := by
  simp [OpcodeRow.Statement, encode_w0_toNat, rowMatch, Instr.opcField, Instr.selField]
theorem OpcodeRow.unp8 (o : Operands) : OpcodeRow.Statement (.unp8 o) := by
  simp [OpcodeRow.Statement, encode_w0_toNat, rowMatch, Instr.opcField, Instr.selField]
theorem OpcodeRow.unp16 (o : Operands) : OpcodeRow.Statement (.unp16 o) := by
  simp [OpcodeRow.Statement, encode_w0_toNat, rowMatch, Instr.opcField, Instr.selField]
theorem OpcodeRow.addb (o : Operands) : OpcodeRow.Statement (.addb o) := by
  simp [OpcodeRow.Statement, encode_w0_toNat, rowMatch, Instr.opcField, Instr.selField]
theorem OpcodeRow.subb (o : Operands) : OpcodeRow.Statement (.subb o) := by
  simp [OpcodeRow.Statement, encode_w0_toNat, rowMatch, Instr.opcField, Instr.selField]
theorem OpcodeRow.avgb (o : Operands) : OpcodeRow.Statement (.avgb o) := by
  simp [OpcodeRow.Statement, encode_w0_toNat, rowMatch, Instr.opcField, Instr.selField]
theorem OpcodeRow.paethb (o : Operands) : OpcodeRow.Statement (.paethb o) := by
  simp [OpcodeRow.Statement, encode_w0_toNat, rowMatch, Instr.opcField, Instr.selField]

end Sys2Proof.Laws
end

