-- ==== Sys2Proof/Laws/Run.lean ====
section
/-! SUPPORT. Whole commands: what each kind of step leaves as it was, that a supplied command never stops, and that a run
from presentation to response ends in the completion of the command with `Running` at `i = LEN_A`. -/

namespace Sys2Proof.Machine

/-! ## Frames -/

/-- What a byte step of command i leaves as it was. -/
structure StepFrame (i : Instr) (s t : State) : Prop where
  phase : t.phase = s.phase
  latch : t.latch = s.latch
  spaceA : t.spaceA = s.spaceA
  spaceB : t.spaceB = s.spaceB
  spaceC : t.spaceC = s.spaceC
  responses : t.responses = s.responses
  commands : t.commands = s.commands
  rst : t.rst = s.rst
  script : t.script = s.script
  received : t.received = s.received
  outReady : t.outReady = s.outReady
  smp : i.writesOut = true → t.smp = s.smp
  out : i.writesOut = false → t.out = s.out
  left : i.usesLeft = false → t.left = s.left

namespace StepFrame

theorem refl (i : Instr) (s : State) : StepFrame i s s :=
  ⟨rfl, rfl, rfl, rfl, rfl, rfl, rfl, rfl, rfl, rfl, rfl, fun _ => rfl, fun _ => rfl, fun _ => rfl⟩

theorem trans {i : Instr} {s t u : State} (h : StepFrame i s t) (h' : StepFrame i t u) : StepFrame i s u :=
  ⟨h'.phase.trans h.phase, h'.latch.trans h.latch, h'.spaceA.trans h.spaceA, h'.spaceB.trans h.spaceB,
    h'.spaceC.trans h.spaceC, h'.responses.trans h.responses, h'.commands.trans h.commands, h'.rst.trans h.rst,
    h'.script.trans h.script, h'.received.trans h.received, h'.outReady.trans h.outReady,
    fun ho => (h'.smp ho).trans (h.smp ho), fun ho => (h'.out ho).trans (h.out ho),
    fun hu => (h'.left hu).trans (h.left hu)⟩

end StepFrame

/-- The frame and the new index of every byte step. -/
theorem byteStep_frame {i : Instr} {s t : State} (h : i.byteStep s = .next t) :
    StepFrame i s t ∧ t.idx = s.idx + i.indexStep := by
  cases ho : i.writesOut with
  | true =>
    obtain ⟨y, rfl⟩ := byteStep_out_next ho h
    refine ⟨⟨by simp, by simp, by simp, by simp, by simp, by simp, by simp, by simp, by simp, by simp, by simp,
      fun _ => by simp, fun h' => by (rw [ho] at h'; cases h'), fun hu => ?_⟩, by simp [indexStep_out ho]⟩
    rw [emitByte_left, rollLeft_left, if_neg (by simp [hu])]
  | false =>
    obtain ⟨xs, -, rfl⟩ := byteStep_smp_next ho h
    exact ⟨⟨rfl, rfl, rfl, rfl, rfl, rfl, rfl, rfl, rfl, rfl, rfl, fun h' => by (rw [ho] at h'; cases h'),
      fun _ => rfl, fun _ => rfl⟩, rfl⟩

/-! ## A supplied command never stops -/

theorem readOperand_supplied {s : State} {sp : OperandSpace} {k n : Nat} (hk : k < n)
    (hn : operandLength s.latch sp = n) (h : Supplied (operandMemory s sp) n) :
    ∃ x, readOperand sp k s = .ok x := by
  obtain ⟨x, hx⟩ := Option.isSome_iff_exists.1 (h k hk)
  exact ⟨x, readOperand_ok.2 ⟨by omega, hx⟩⟩

theorem readUpperLeft_supplied {s : State} {n : Nat} (hk : s.idx < n) (hn : s.latch.lenB.toNat = n)
    (h : Supplied s.spaceB n) : ∃ x, readUpperLeft s = .ok x := by
  by_cases hi : stride s ≤ s.idx
  · obtain ⟨x, hx⟩ := readOperand_supplied (sp := .b) (k := s.idx - stride s) (s := s) (by omega) hn h
    exact ⟨x, readUpperLeft_ok.2 (by rw [if_pos hi]; exact hx)⟩
  · exact ⟨0, readUpperLeft_ok.2 (by rw [if_neg hi])⟩

/-- The byte step of a running command whose operands the HOST has supplied answers a next state. -/
theorem byteStep_supplied {i : Instr} {s : State} (hR : Running i s) (hlt : s.idx < s.latch.lenA.toNat)
    (hs : OperandsSupplied i s) : ∃ t, i.byteStep s = .next t := by
  have hA := hR.lenA_eq
  have hc := hR.check_none
  have hl := hR.latch_eq
  cases i with
  | unfNone o =>
    obtain ⟨x, hx⟩ := readOperand_supplied (sp := .a) (s := s) (hA ▸ hlt) hA hs
    exact ⟨_, by simp only [Instr.byteStep, unfNoneStep, hx, withByte_ok]; rfl⟩
  | unfSub o =>
    obtain ⟨x, hx⟩ := readOperand_supplied (sp := .a) (s := s) (hA ▸ hlt) hA hs
    exact ⟨_, by simp only [Instr.byteStep, unfSubStep, hx, hR.readLeft_eq rfl, withByte_ok]; rfl⟩
  | unfUp o =>
    have hB : s.latch.lenB = s.latch.lenA := by rw [hl]; exact (validateUnfilter_none hc).2.1
    obtain ⟨x, hx⟩ := readOperand_supplied (sp := .a) (s := s) (hA ▸ hlt) hA hs.1
    obtain ⟨b, hb⟩ := readOperand_supplied (sp := .b) (s := s) (hA ▸ hlt) (by rw [operandLength, hB, hA]; rfl) hs.2
    exact ⟨_, by simp only [Instr.byteStep, unfUpStep, hx, hb, withByte_ok]; rfl⟩
  | unfAvg o =>
    have hB := (hR.usesLeft_facts rfl).2.1
    obtain ⟨x, hx⟩ := readOperand_supplied (sp := .a) (s := s) (hA ▸ hlt) hA hs.1
    obtain ⟨b, hb⟩ := readOperand_supplied (sp := .b) (s := s) (hA ▸ hlt) (by rw [operandLength, hB, hA]; rfl) hs.2
    exact ⟨_, by simp only [Instr.byteStep, unfAvgStep, hx, hb, hR.readLeft_eq rfl, withByte_ok]; rfl⟩
  | unfPaeth o =>
    have hB := (hR.usesLeft_facts rfl).2.1
    obtain ⟨x, hx⟩ := readOperand_supplied (sp := .a) (s := s) (hA ▸ hlt) hA hs.1
    obtain ⟨b, hb⟩ := readOperand_supplied (sp := .b) (s := s) (hA ▸ hlt) (by rw [operandLength, hB, hA]; rfl) hs.2
    obtain ⟨c, hc⟩ := readUpperLeft_supplied (s := s) (hA ▸ hlt) (by rw [hB, hA]; rfl) hs.2
    exact ⟨_, by simp only [Instr.byteStep, unfPaethStep, hx, hb, hc, hR.readLeft_eq rfl, withByte_ok]; rfl⟩
  | unp1 o =>
    obtain ⟨x, hx⟩ := readOperand_supplied (sp := .a) (s := s) (hA ▸ hlt) hA hs
    exact ⟨_, by simp only [Instr.byteStep, unpackSubByteStep, hx, withByte_ok]; rfl⟩
  | unp2 o =>
    obtain ⟨x, hx⟩ := readOperand_supplied (sp := .a) (s := s) (hA ▸ hlt) hA hs
    exact ⟨_, by simp only [Instr.byteStep, unpackSubByteStep, hx, withByte_ok]; rfl⟩
  | unp4 o =>
    obtain ⟨x, hx⟩ := readOperand_supplied (sp := .a) (s := s) (hA ▸ hlt) hA hs
    exact ⟨_, by simp only [Instr.byteStep, unpackSubByteStep, hx, withByte_ok]; rfl⟩
  | unp8 o =>
    obtain ⟨x, hx⟩ := readOperand_supplied (sp := .a) (s := s) (hA ▸ hlt) hA hs
    exact ⟨_, by simp only [Instr.byteStep, unpackByteStep, hx, withByte_ok]; rfl⟩
  | unp16 o =>
    have hev : s.latch.lenA.toNat % 2 = 0 := by rw [hl]; exact validateUnpack16_none hc
    have hal : s.idx % 2 = 0 := hR.aligned
    obtain ⟨x, hx⟩ := readOperand_supplied (sp := .a) (s := s) (hA ▸ hlt) hA hs
    obtain ⟨y, hy⟩ := readOperand_supplied (sp := .a) (s := s) (k := s.idx + 1) (by omega) hA hs
    exact ⟨_, by simp only [Instr.byteStep, unpackPairStep, hx, hy, withByte_ok]; rfl⟩
  | addb o =>
    have hB : s.latch.lenB = s.latch.lenA := by rw [hl]; exact validateHelper_none hc
    obtain ⟨x, hx⟩ := readOperand_supplied (sp := .a) (s := s) (hA ▸ hlt) hA hs.1
    obtain ⟨b, hb⟩ := readOperand_supplied (sp := .b) (s := s) (hA ▸ hlt) (by rw [operandLength, hB, hA]; rfl) hs.2
    exact ⟨_, by simp only [Instr.byteStep, helperStep, hx, hb, withByte_ok]; rfl⟩
  | subb o =>
    have hB : s.latch.lenB = s.latch.lenA := by rw [hl]; exact validateHelper_none hc
    obtain ⟨x, hx⟩ := readOperand_supplied (sp := .a) (s := s) (hA ▸ hlt) hA hs.1
    obtain ⟨b, hb⟩ := readOperand_supplied (sp := .b) (s := s) (hA ▸ hlt) (by rw [operandLength, hB, hA]; rfl) hs.2
    exact ⟨_, by simp only [Instr.byteStep, helperStep, hx, hb, withByte_ok]; rfl⟩
  | avgb o =>
    have hB : s.latch.lenB = s.latch.lenA := by rw [hl]; exact validateHelper_none hc
    obtain ⟨x, hx⟩ := readOperand_supplied (sp := .a) (s := s) (hA ▸ hlt) hA hs.1
    obtain ⟨b, hb⟩ := readOperand_supplied (sp := .b) (s := s) (hA ▸ hlt) (by rw [operandLength, hB, hA]; rfl) hs.2
    exact ⟨_, by simp only [Instr.byteStep, helperStep, hx, hb, withByte_ok]; rfl⟩
  | paethb o =>
    obtain ⟨h1, h2⟩ := validateHelper3_none hc
    have hB : s.latch.lenB = s.latch.lenA := by rw [hl]; exact h1
    have hC : s.latch.lenC = s.latch.lenA := by rw [hl]; exact h2
    obtain ⟨x, hx⟩ := readOperand_supplied (sp := .a) (s := s) (hA ▸ hlt) hA hs.1
    obtain ⟨b, hb⟩ := readOperand_supplied (sp := .b) (s := s) (hA ▸ hlt) (by rw [operandLength, hB, hA]; rfl) hs.2.1
    obtain ⟨c, hc⟩ := readOperand_supplied (sp := .c) (s := s) (hA ▸ hlt) (by rw [operandLength, hC, hA]; rfl) hs.2.2
    exact ⟨_, by simp only [Instr.byteStep, helperPaethStep, hx, hb, hc, withByte_ok]; rfl⟩

theorem operandsSupplied_congr {i : Instr} {s t : State} (hA : t.spaceA = s.spaceA) (hB : t.spaceB = s.spaceB)
    (hC : t.spaceC = s.spaceC) (h : OperandsSupplied i s) : OperandsSupplied i t := by
  unfold OperandsSupplied at *
  rw [hA, hB, hC]; exact h

/-! ## Runs of the byte steps -/

theorem run_succ (n : Nat) (s : State) :
    run (n + 1) s = match step s with
      | .next t => run n t
      | .fault r => .fault r
      | .refused r => .refused r := rfl

theorem run_succ_next {n : Nat} {s t : State} (h : step s = .next t) :
    run (n + 1) s = run n t := by rw [run_succ, h]

/-- A run that answers a next state has a first step that does. -/
theorem run_succ_inv {n : Nat} {s u : State} (h : run (n + 1) s = .next u) :
    ∃ t, step s = .next t ∧ run n t = .next u := by
  rw [run_succ] at h
  cases hs : step s with
  | next t => rw [hs] at h; exact ⟨t, rfl, h⟩
  | fault r => rw [hs] at h; cases h
  | refused r => rw [hs] at h; cases h

/-- A run that answers a next state does so one step earlier. -/
theorem run_pred (n : Nat) : ∀ {v w : State}, run (n + 1) v = .next w → ∃ u, run n v = .next u := by
  induction n with
  | zero => exact fun {v w} _ => ⟨v, rfl⟩
  | succ n ih =>
    intro v w hvw
    obtain ⟨x, hx, hxw⟩ := run_succ_inv hvw
    obtain ⟨y, hy⟩ := ih hxw
    exact ⟨y, by rw [run_succ_next hx]; exact hy⟩

theorem run_add (n m : Nat) (s t : State) (h : run n s = .next t) :
    run (n + m) s = run m t := by
  induction n generalizing s with
  | zero => cases h; rw [Nat.zero_add]
  | succ n ih =>
    obtain ⟨u, hu, h⟩ := run_succ_inv h
    rw [Nat.succ_add, run_succ_next hu, ih u h]

/-- The step of a quiet running command. -/
theorem step_running {i : Instr} {s : State} (hR : Running i s) (hq : Quiet s) (hp : s.phase = .run) :
    step s = exec i s := by
  rw [step_quiet hq.1, coreStep_latched hq.2 hp hR.holds]

/-- n byte steps of a running command: where they go on, they keep `Running` and advance the index n times. -/
theorem run_byteSteps {i : Instr} (n : Nat) {s u : State} (hR : Running i s) (hq : Quiet s) (hp : s.phase = .run)
    (hn : s.idx + n * i.indexStep ≤ s.latch.lenA.toNat) (h : run n s = .next u) :
    Running i u ∧ u.idx = s.idx + n * i.indexStep ∧ StepFrame i s u := by
  induction n generalizing s with
  | zero => cases h; exact ⟨hR, by omega, .refl _ _⟩
  | succ n ih =>
    obtain ⟨t, ht, h⟩ := run_succ_inv h
    have hpos := indexStep_pos i
    rw [Nat.succ_mul] at hn
    have hlt : s.idx < s.latch.lenA.toNat := by omega
    rw [step_running hR hq hp, exec_run_step hp hR.latch_eq hlt] at ht
    obtain ⟨hf, hi⟩ := byteStep_frame ht
    have hRt := running_byteStep hR hlt ht
    obtain ⟨h1, h2, h3⟩ := ih hRt ⟨hf.script.trans hq.1, hf.rst.trans hq.2⟩ (hf.phase.trans hp)
      (by rw [hf.latch, hi]; omega) h
    exact ⟨h1, by rw [h2, hi, Nat.succ_mul]; omega, hf.trans h3⟩

/-- n byte steps of a running command whose operands are supplied go on. -/
theorem run_byteSteps_next {i : Instr} (n : Nat) {s : State} (hR : Running i s) (hq : Quiet s) (hp : s.phase = .run)
    (hn : s.idx + n * i.indexStep ≤ s.latch.lenA.toNat) (hs : OperandsSupplied i s) :
    ∃ u, run n s = .next u := by
  induction n generalizing s with
  | zero => exact ⟨s, rfl⟩
  | succ n ih =>
    have hpos := indexStep_pos i
    rw [Nat.succ_mul] at hn
    have hlt : s.idx < s.latch.lenA.toNat := by omega
    obtain ⟨t, ht⟩ := byteStep_supplied hR hlt hs
    obtain ⟨hf, hi⟩ := byteStep_frame ht
    obtain ⟨u, hu⟩ := ih (running_byteStep hR hlt ht) ⟨hf.script.trans hq.1, hf.rst.trans hq.2⟩ (hf.phase.trans hp)
      (by rw [hf.latch, hi]; omega) (operandsSupplied_congr hf.spaceA hf.spaceB hf.spaceC hs)
    refine ⟨u, ?_⟩
    rw [run_succ_next (t := t) (by rw [step_running hR hq hp, exec_run_step hp hR.latch_eq hlt]; exact ht), hu]

/-- How many byte steps a running command has left, exactly. -/
theorem stepsLeft {i : Instr} {s : State} (hR : Running i s) :
    s.idx + (s.latch.lenA.toNat - s.idx) / i.indexStep * i.indexStep = s.latch.lenA.toNat := by
  have hla := lenA_aligned hR.check_none
  rw [← hR.latch_eq] at hla
  have hi := hR.aligned
  have hb := hR.bounded
  have : (s.latch.lenA.toNat - s.idx) % i.indexStep = 0 := by
    rw [Nat.sub_mod_eq_zero_of_mod_eq (by rw [hla, hi])]
  have := Nat.div_add_mod (s.latch.lenA.toNat - s.idx) i.indexStep
  rw [Nat.mul_comm]
  omega

/-! ## Whole commands -/

/-- The step that accepts a presented command. -/
theorem step_presented {i : Instr} {s : State} (hw : i.WellFormed) (h : Presented i s) :
    step s = exec i { s with commands := s.commands.tail } := by
  obtain ⟨⟨hscript, hrst⟩, hp, hc⟩ := h
  obtain ⟨rest, hrest⟩ : ∃ rest, s.commands = encode i :: rest := by
    cases hcs : s.commands with
    | nil => rw [hcs] at hc; cases hc
    | cons d rest => rw [hcs] at hc; exact ⟨rest, by rw [Option.some.inj hc]⟩
  have hd : decode (encode i) = .ok i := by
    rw [decode_of_rsv (encode_rsv i), encode_latch, decodeLatch_latch hw]
  rw [step_quiet hscript, coreStep_accept hrst hp hrest hd, hrest]; rfl

theorem failsWith_of_check {i : Instr} {s : State} {k : ErrorKind} (hw : i.WellFormed) (h : Presented i s)
    (hc : i.check i.latch = some k) : FailsWith s k := by
  rw [FailsWith, step_presented hw h, exec_idle_error (s := { s with commands := s.commands.tail }) h.2.1 hc]; rfl

theorem step_presented_valid {i : Instr} {s : State} (hv : i.Valid) (h : Presented i s) :
    step s = .next (i.start { s with commands := s.commands.tail }) := by
  rw [step_presented hv.1 h, exec_idle_start (s := { s with commands := s.commands.tail }) h.2.1 (valid_iff.1 hv).2]

/-- What a whole command ends in. -/
structure Completed (i : Instr) (s t : State) : Prop where
  valid : i.Valid
  elsewhere : SameElsewhere s t
  latch : t.latch = i.latch
  out : i.writesOut = true → WrittenPrefix t.out i.operands.lenA ∧
    ∀ k < i.operands.lenA, Memory.read t.out k = some (outElement i t k)
  smp : i.writesOut = false → WrittenPrefix t.smp (i.resultCount i.operands.lenA) ∧
    ∀ k < i.resultCount i.operands.lenA, Memory.read t.smp k = some (sampleElement i t k)
  otherSmp : i.writesOut = true → t.smp = s.smp
  otherOut : i.writesOut = false → t.out = s.out
  left : i.usesLeft = false → t.left = s.left

theorem finish_eq (i : Instr) (s : State) :
    i.finish s = { s with
      phase := .idle, responses := s.responses ++ [statusWord .ok]
      outReady := if i.writesOut = true then some (s.received.length + s.responses.length + 1) else s.outReady } := by
  unfold Instr.finish
  cases i.writesOut <;> rfl

theorem byteSteps_mul {i : Instr} (h : i.Valid) : i.byteSteps * i.indexStep = i.operands.lenA := by
  have hla := lenA_aligned (valid_iff.1 h).2
  have hl : i.latch.lenA.toNat = i.operands.lenA := congrArg Operands.lenA (Instr.latch_operands h.1)
  rw [hl] at hla
  rw [Instr.byteSteps, Nat.mul_comm]
  have := Nat.div_add_mod i.operands.lenA i.indexStep
  omega

/-- The run of a valid presented command over its byte steps, and the completion after it. -/
theorem run_valid {i : Instr} {s u : State} (hv : i.Valid) (h : Presented i s)
    (hu : run i.byteSteps (i.start { s with commands := s.commands.tail }) = .next u) :
    Running i u ∧ u.idx = u.latch.lenA.toNat ∧
      StepFrame i (i.start { s with commands := s.commands.tail }) u ∧
      run (i.byteSteps + 2) s = .next (i.finish u) := by
  obtain ⟨⟨hscript, hrst⟩, hp, hc⟩ := h
  have hst := running_start (s := { s with commands := s.commands.tail }) hv.1 (valid_iff.1 hv).2
  have hlen : (i.start { s with commands := s.commands.tail }).latch.lenA.toNat = i.operands.lenA := hst.lenA_eq
  obtain ⟨hR, hi, hf⟩ := run_byteSteps i.byteSteps hst ⟨by simpa using hscript, by simpa using hrst⟩ (by simp)
    (by rw [start_idx, hlen, byteSteps_mul hv]; omega) hu
  rw [start_idx, byteSteps_mul hv, Nat.zero_add] at hi
  have hend : u.idx = u.latch.lenA.toNat := by rw [hi, hR.lenA_eq]
  refine ⟨hR, hend, hf, ?_⟩
  rw [run_succ_next (step_presented_valid hv ⟨⟨hscript, hrst⟩, hp, hc⟩), run_add _ 1 _ u hu]
  have hpu : u.phase = .run := by rw [hf.phase, start_phase]
  rw [run_succ_next (t := i.finish u)]
  · rfl
  · rw [step_running hR ⟨by rw [hf.script]; simpa using hscript, by rw [hf.rst]; simpa using hrst⟩ hpu,
      exec_run_finish hpu hR.latch_eq hend]

/-- The state a whole command ends in, from the state after its byte steps. -/
theorem completed_finish {i : Instr} {s u : State} (hv : i.Valid) (hR : Running i u)
    (hend : u.idx = u.latch.lenA.toNat) (hf : StepFrame i (i.start { s with commands := s.commands.tail }) u) :
    Completed i s (i.finish u) ∧ (i.finish u).phase = .idle ∧
      (i.finish u).responses = s.responses ++ [statusWord .ok] := by
  have hidx : u.idx = i.operands.lenA := by rw [hend, hR.lenA_eq]
  rw [finish_eq]
  refine ⟨?_, rfl, by simp only [hf.responses, start_responses]⟩
  have hel : ∀ k, outElement i { u with
      phase := .idle, responses := u.responses ++ [statusWord .ok]
      outReady := if i.writesOut = true then some (u.received.length + u.responses.length + 1) else u.outReady } k =
      outElement i u k := fun k => by cases i <;> rfl
  have hsl : ∀ k, sampleElement i { u with
      phase := .idle, responses := u.responses ++ [statusWord .ok]
      outReady := if i.writesOut = true then some (u.received.length + u.responses.length + 1) else u.outReady } k =
      sampleElement i u k := fun k => by cases i <;> rfl
  exact
    { valid := hv
      elsewhere := ⟨by simp [hf.spaceA], by simp [hf.spaceB], by simp [hf.spaceC], by simp [hf.commands],
        by simp [hf.rst], by simp [hf.script], by simp [hf.received]⟩
      latch := hR.latch_eq
      out := fun ho => by
        have h1 := hR.outPrefix ho
        have h2 := hR.outValues ho
        rw [resultCount_out ho, hidx] at h1 h2
        exact ⟨h1, fun k hk => by rw [hel]; exact h2 k hk⟩
      smp := fun ho => by
        have h1 := hR.smpPrefix ho
        have h2 := hR.smpValues ho
        rw [hidx] at h1 h2
        exact ⟨h1, fun k hk => by rw [hsl]; exact h2 k hk⟩
      otherSmp := fun ho => by simp only [hf.smp ho, start_smp, if_pos ho]
      otherOut := fun ho => by simp only [hf.out ho, start_out]; rw [if_neg (by simp [ho])]
      left := fun hu => by simp only [hf.left hu, start_left]; rw [if_neg (by simp [hu])] }

/-- A valid presented command whose operands are supplied completes. -/
theorem completes_of_supplied {i : Instr} {s : State} (hv : i.Valid) (h : Presented i s) (hs : OperandsSupplied i s) :
    ∃ t, Completes i s t ∧ Completed i s t := by
  have hst := running_start (s := { s with commands := s.commands.tail }) hv.1 (valid_iff.1 hv).2
  obtain ⟨u, hu⟩ := run_byteSteps_next i.byteSteps hst ⟨by simpa using h.1.1, by simpa using h.1.2⟩ (by simp)
    (by rw [start_idx, hst.lenA_eq, byteSteps_mul hv]; omega)
    (operandsSupplied_congr (s := s) (by simp) (by simp) (by simp) hs)
  obtain ⟨hR, hend, hf, hrun⟩ := run_valid hv h hu
  obtain ⟨hc, hp, hr⟩ := completed_finish hv hR hend hf
  exact ⟨i.finish u, ⟨h, hrun, hp, hr⟩, hc⟩

/-! ## What a completed run must have been -/

/-- Responses are only added to by a core left to itself. -/
theorem step_responses {s t : State} (hq : s.script = []) (h : step s = .next t) :
    t.script = [] ∧ ∃ ws, t.responses = s.responses ++ ws := by
  rw [step_quiet hq] at h
  have hexec : ∀ {i : Instr} {s t : State}, s.script = [] → exec i s = .next t →
      t.script = [] ∧ ∃ ws, t.responses = s.responses ++ ws := by
    intro i s t hq h
    rcases exec_next_cases h with ⟨k, -, -, rfl⟩ | ⟨-, -, rfl⟩ | ⟨-, -, -, h⟩ | ⟨-, -, -, rfl⟩ | ⟨-, -, rfl⟩
    · exact ⟨hq, [statusWord (.error k)], rfl⟩
    · exact ⟨by simpa using hq, [], by simp⟩
    · obtain ⟨hf, -⟩ := byteStep_frame h
      exact ⟨hf.script.trans hq, [], by simp [hf.responses]⟩
    · rw [finish_eq]; exact ⟨hq, [statusWord .ok], rfl⟩
    · exact ⟨hq, [], by simp⟩
  rcases coreStep_next_cases h with ⟨-, rfl⟩ | ⟨-, -, -, rfl⟩ | ⟨d, rest, k, -, -, -, -, rfl⟩ |
    ⟨d, rest, i, -, -, -, -, h⟩ | ⟨i, -, -, -, h⟩
  · exact ⟨hq, [], by simp⟩
  · exact ⟨hq, [], by simp⟩
  · exact ⟨hq, [statusWord (.error k)], rfl⟩
  · exact hexec (s := { s with commands := rest }) hq h
  · exact hexec hq h

theorem run_responses (n : Nat) {s t : State} (hq : s.script = []) (h : run n s = .next t) :
    ∃ ws, t.responses = s.responses ++ ws := by
  induction n generalizing s with
  | zero => cases h; exact ⟨[], by simp⟩
  | succ n ih =>
    obtain ⟨u, hu, h⟩ := run_succ_inv h
    obtain ⟨hqu, ws, hws⟩ := step_responses hq hu
    obtain ⟨vs, hvs⟩ := ih hqu h
    exact ⟨ws ++ vs, by rw [hvs, hws, List.append_assoc]⟩

theorem statusWord_error_ne_ok (k : ErrorKind) : statusWord (.error k) ≠ statusWord .ok := by
  cases k <;> decide

/-- A run that completed with OK was that of a valid command, and ends as the command ends. -/
theorem completed_of_completes {i : Instr} {s t : State} (hw : i.WellFormed) (h : Completes i s t) : Completed i s t := by
  obtain ⟨hP, hrun, hp, hr⟩ := h
  cases hc : i.check i.latch with
  | some k =>
    exfalso
    have hf := failsWith_of_check hw hP hc
    rw [FailsWith] at hf
    rw [run_succ_next hf] at hrun
    obtain ⟨ws, hws⟩ := run_responses _ (by exact hP.1.1) hrun
    rw [hr] at hws
    simp only [List.append_assoc, List.append_cancel_left_eq, List.cons_append, List.nil_append] at hws
    exact statusWord_error_ne_ok k (List.cons.inj hws).1.symm
  | none =>
    have hv : i.Valid := valid_iff.2 ⟨hw, hc⟩
    have hsplit := hrun
    rw [run_succ_next (step_presented_valid hv hP)] at hsplit
    obtain ⟨u, hu⟩ := run_pred _ hsplit
    obtain ⟨hR, hend, hf, hrun'⟩ := run_valid hv hP hu
    rw [hrun] at hrun'
    cases hrun'
    exact (completed_finish hv hR hend hf).1

/-! ## What a completed run has read -/

/-- The operand elements command i reads at index k are listed. -/
def ReadsAt (i : Instr) (s : State) (k : Nat) : Prop :=
  (Memory.read s.spaceA k).isSome = true ∧
  (i.opcField = 1#4 → i.selField ≠ 0#8 → i.selField ≠ 1#8 → (Memory.read s.spaceB k).isSome = true) ∧
  (i.opcField = 3#4 → (Memory.read s.spaceB k).isSome = true) ∧
  (i.opcField = 3#4 → i.selField = 3#8 → (Memory.read s.spaceC k).isSome = true)

theorem read_some {s : State} {sp : OperandSpace} {k : Nat} {x : Byte} (h : readOperand sp k s = .ok x) :
    (Memory.read (operandMemory s sp) k).isSome = true := by rw [(readOperand_ok.1 h).2]; rfl

theorem byteStep_reads {i : Instr} {s t : State} (h : i.byteStep s = .next t) (k : Nat) (h1 : s.idx ≤ k)
    (h2 : k < s.idx + i.indexStep) : ReadsAt i s k := by
  have hk : i.indexStep = 1 → k = s.idx := fun e => by omega
  cases i <;> simp only [Instr.byteStep] at h
  case unp16 o =>
    obtain ⟨x, hx, h⟩ := withByte_next h
    obtain ⟨y, hy, -⟩ := withByte_next h
    have : k = s.idx ∨ k = s.idx + 1 := by simp only [Instr.indexStep] at h2; omega
    refine ⟨?_, by simp [Instr.opcField], by simp [Instr.opcField], by simp [Instr.opcField]⟩
    rcases this with rfl | rfl
    · exact read_some hx
    · exact read_some hy
  all_goals obtain rfl := hk rfl
  all_goals (obtain ⟨x, hx, h⟩ := withByte_next h; refine ⟨read_some hx, ?_, ?_, ?_⟩ <;> simp [Instr.opcField, Instr.selField])
  case unfUp.refine_1 o => obtain ⟨b, hb, h⟩ := withByte_next h; exact read_some hb
  case unfAvg.refine_1 o =>
    obtain ⟨a, ha, h⟩ := withByte_next h; obtain ⟨b, hb, h⟩ := withByte_next h; exact read_some hb
  case unfPaeth.refine_1 o =>
    obtain ⟨a, ha, h⟩ := withByte_next h; obtain ⟨b, hb, h⟩ := withByte_next h; exact read_some hb
  case addb.refine_2 o => obtain ⟨b, hb, h⟩ := withByte_next h; exact read_some hb
  case subb.refine_2 o => obtain ⟨b, hb, h⟩ := withByte_next h; exact read_some hb
  case avgb.refine_2 o => obtain ⟨b, hb, h⟩ := withByte_next h; exact read_some hb
  case paethb.refine_2 o => obtain ⟨b, hb, h⟩ := withByte_next h; exact read_some hb
  case paethb.refine_3 o =>
    obtain ⟨b, hb, h⟩ := withByte_next h; obtain ⟨c, hc, h⟩ := withByte_next h; exact read_some hc

theorem readsAt_congr {i : Instr} {s t : State} {k : Nat} (hA : t.spaceA = s.spaceA) (hB : t.spaceB = s.spaceB)
    (hC : t.spaceC = s.spaceC) : ReadsAt i t k ↔ ReadsAt i s k := by
  unfold ReadsAt; rw [hA, hB, hC]

/-- A run of byte steps that went on has read every index it passed. -/
theorem run_reads {i : Instr} (n : Nat) {s u : State} (hR : Running i s) (hq : Quiet s) (hp : s.phase = .run)
    (hn : s.idx + n * i.indexStep ≤ s.latch.lenA.toNat) (h : run n s = .next u) :
    ∀ k, s.idx ≤ k → k < s.idx + n * i.indexStep → ReadsAt i s k := by
  induction n generalizing s with
  | zero => intro k h1 h2; omega
  | succ n ih =>
    obtain ⟨t, ht, h⟩ := run_succ_inv h
    have hpos := indexStep_pos i
    rw [Nat.succ_mul] at hn ⊢
    have hlt : s.idx < s.latch.lenA.toNat := by omega
    rw [step_running hR hq hp, exec_run_step hp hR.latch_eq hlt] at ht
    obtain ⟨hf, hi⟩ := byteStep_frame ht
    intro k h1 h2
    by_cases hk : k < s.idx + i.indexStep
    · exact byteStep_reads ht k h1 hk
    · rw [← readsAt_congr hf.spaceA hf.spaceB hf.spaceC]
      exact ih (running_byteStep hR hlt ht) ⟨hf.script.trans hq.1, hf.rst.trans hq.2⟩ (hf.phase.trans hp)
        (by rw [hf.latch, hi]; omega) h k (by omega) (by omega)

theorem supplied_of_readsAt {i : Instr} {s : State} (h : ∀ k < i.operands.lenA, ReadsAt i s k) : OperandsSupplied i s := by
  have hA : Supplied s.spaceA i.operands.lenA := fun k hk => (h k hk).1
  cases i
  case unfNone | unfSub | unp1 | unp2 | unp4 | unp8 | unp16 => exact hA
  case unfUp | unfAvg | unfPaeth =>
    exact ⟨hA, fun k hk => (h k hk).2.1 rfl (by simp [Instr.selField]) (by simp [Instr.selField])⟩
  case addb | subb | avgb => exact ⟨hA, fun k hk => (h k hk).2.2.1 rfl⟩
  case paethb => exact ⟨hA, fun k hk => (h k hk).2.2.1 rfl, fun k hk => (h k hk).2.2.2 rfl rfl⟩

/-- A command that completed had its operands supplied. -/
theorem supplied_of_completes {i : Instr} {s t : State} (hw : i.WellFormed) (h : Completes i s t) :
    OperandsSupplied i s := by
  have hv := (completed_of_completes hw h).valid
  obtain ⟨hP, hrun, -, -⟩ := h
  rw [run_succ_next (step_presented_valid hv hP)] at hrun
  obtain ⟨u, hu⟩ := run_pred _ hrun
  have hst := running_start (s := { s with commands := s.commands.tail }) hv.1 (valid_iff.1 hv).2
  have hr := run_reads i.byteSteps hst ⟨by simpa using hP.1.1, by simpa using hP.1.2⟩ (by simp)
    (by rw [start_idx, hst.lenA_eq, byteSteps_mul hv]; omega) hu
  rw [start_idx, byteSteps_mul hv, Nat.zero_add] at hr
  exact supplied_of_readsAt fun k hk => (readsAt_congr (by simp) (by simp) (by simp)).1 (hr k (Nat.zero_le k) hk)

end Sys2Proof.Machine
end

