-- ==== Sys2Proof/Tests/Slice0.lean ====
section
/-! SUPPORT. Tests of the model: ill-formed commands, words written out from 30_encoding R95, single steps whose expected
results are the examples of the spec, and for every statement with hypotheses a witness that meets them, clause by clause. -/

namespace Sys2Proof.Tests

open Sys2Proof.Machine

/-! ## Helpers -/

/-- Out of reset, the operand spaces filled and the command presented. -/
def ready (i : Instr) (a b c : List Byte) : State :=
  { State.reset with
    spaceA := Memory.ofList a, spaceB := Memory.ofList b, spaceC := Memory.ofList c, commands := [encode i] }

/-- A command in progress at index n, with its predictor entries and what it has written. -/
def during (i : Instr) (n : Nat) (left a b c out : List Byte) (smp : List Sample) : State :=
  { State.reset with
    phase := .run, latch := i.latch, idx := n, left := left, spaceA := Memory.ofList a, spaceB := Memory.ofList b
    spaceC := Memory.ofList c, out := Memory.ofList out, smp := Memory.ofList smp }

/-- A HOST with one pending action and nothing after it. -/
def pending (act : HostAction) : State := { State.reset with script := [act] }

/-- OUT at an index, the predictor entries and the index after a step that goes on. -/
def outAfter (k : Nat) : Host.Outcome State Fault Refusal → Option (Option Byte × List Byte × Nat)
  | .next t => some (Memory.read t.out k, t.left, t.idx)
  | .fault _ => none
  | .refused _ => none

/-- SMP from an index on, and the index, after a step that goes on. -/
def smpAfter (k n : Nat) : Host.Outcome State Fault Refusal → Option (List (Option Sample) × Nat)
  | .next t => some ((List.range n).map fun m => Memory.read t.smp (k + m), t.idx)
  | .fault _ => none
  | .refused _ => none

/-- The responses and the phase after a step that goes on. -/
def responsesAfter : Host.Outcome State Fault Refusal → Option (List Word × Phase)
  | .next t => some (t.responses, t.phase)
  | .fault _ => none
  | .refused _ => none

/-! ## WellFormed refuses an ill-formed term at each check (30_encoding R81, R82, R87) -/

theorem test_wellFormed_bpp_too_small : ¬ (Instr.unfSub ⟨-32769, 1, 1, 0⟩).WellFormed := by decide
theorem test_wellFormed_bpp_too_large : ¬ (Instr.unfAvg ⟨32768, 1, 1, 0⟩).WellFormed := by decide
theorem test_wellFormed_lenA_too_large : ¬ (Instr.unp8 ⟨0, 4294967296, 0, 0⟩).WellFormed := by decide
theorem test_wellFormed_lenB_too_large : ¬ (Instr.addb ⟨0, 0, 4294967296, 0⟩).WellFormed := by decide
theorem test_wellFormed_lenC_too_large : ¬ (Instr.paethb ⟨0, 0, 0, 4294967296⟩).WellFormed := by decide
theorem test_wellFormed_at_the_bounds :
    (Instr.unfPaeth ⟨-32768, 4294967295, 4294967295, 4294967295⟩).WellFormed ∧
    (Instr.unfPaeth ⟨32767, 0, 0, 0⟩).WellFormed := by decide

/-! ## Words written out from the patterns of 30_encoding R95 -/

theorem test_decode_unfNone :
    decode ⟨0b0000000000000001#16 ++ 0b00000000#8 ++ 0b0000#4 ++ 0b0001#4, 3#32, 3#32, 0#32⟩ =
      .ok (.unfNone ⟨1, 3, 3, 0⟩) := by decide
theorem test_decode_unfSub :
    decode ⟨0b0000000000000001#16 ++ 0b00000001#8 ++ 0b0000#4 ++ 0b0001#4, 3#32, 3#32, 0#32⟩ =
      .ok (.unfSub ⟨1, 3, 3, 0⟩) := by decide
theorem test_decode_unfUp :
    decode ⟨0b0000000000000100#16 ++ 0b00000010#8 ++ 0b0000#4 ++ 0b0001#4, 4#32, 5#32, 0#32⟩ =
      .ok (.unfUp ⟨4, 4, 5, 0⟩) := by decide
theorem test_decode_unfAvg :
    decode ⟨0b1111111111111101#16 ++ 0b00000011#8 ++ 0b0000#4 ++ 0b0001#4, 4#32, 4#32, 0#32⟩ =
      .ok (.unfAvg ⟨-3, 4, 4, 0⟩) := by decide
theorem test_decode_unfPaeth :
    decode ⟨0b0000000000000011#16 ++ 0b00000100#8 ++ 0b0000#4 ++ 0b0001#4, 6#32, 6#32, 0#32⟩ =
      .ok (.unfPaeth ⟨3, 6, 6, 0⟩) := by decide
theorem test_decode_unp1 :
    decode ⟨0b0000000000000000#16 ++ 0b00000001#8 ++ 0b0000#4 ++ 0b0010#4, 1#32, 0#32, 0#32⟩ =
      .ok (.unp1 ⟨0, 1, 0, 0⟩) := by decide
theorem test_decode_unp2 :
    decode ⟨0b0000000000000000#16 ++ 0b00000010#8 ++ 0b0000#4 ++ 0b0010#4, 4#32, 0#32, 0#32⟩ =
      .ok (.unp2 ⟨0, 4, 0, 0⟩) := by decide
theorem test_decode_unp4 :
    decode ⟨0b0000000000000000#16 ++ 0b00000100#8 ++ 0b0000#4 ++ 0b0010#4, 4#32, 0#32, 0#32⟩ =
      .ok (.unp4 ⟨0, 4, 0, 0⟩) := by decide
theorem test_decode_unp8 :
    decode ⟨0b0111111111111111#16 ++ 0b00001000#8 ++ 0b0000#4 ++ 0b0010#4, 3#32, 8#32, 9#32⟩ =
      .ok (.unp8 ⟨32767, 3, 8, 9⟩) := by decide
theorem test_decode_unp16 :
    decode ⟨0b0000000000000000#16 ++ 0b00010000#8 ++ 0b0000#4 ++ 0b0010#4, 2#32, 0#32, 0#32⟩ =
      .ok (.unp16 ⟨0, 2, 0, 0⟩) := by decide
theorem test_decode_addb :
    decode ⟨0b0000000000000000#16 ++ 0b00000000#8 ++ 0b0000#4 ++ 0b0011#4, 4#32, 4#32, 0#32⟩ =
      .ok (.addb ⟨0, 4, 4, 0⟩) := by decide
theorem test_decode_subb :
    decode ⟨0b0000000000000000#16 ++ 0b00000001#8 ++ 0b0000#4 ++ 0b0011#4, 4#32, 4#32, 0#32⟩ =
      .ok (.subb ⟨0, 4, 4, 0⟩) := by decide
theorem test_decode_avgb :
    decode ⟨0b1000000000000000#16 ++ 0b00000010#8 ++ 0b0000#4 ++ 0b0011#4, 4#32, 4#32, 7#32⟩ =
      .ok (.avgb ⟨-32768, 4, 4, 7⟩) := by decide
theorem test_decode_paethb :
    decode ⟨0b0000000000000000#16 ++ 0b00000011#8 ++ 0b0000#4 ++ 0b0011#4, 5#32, 5#32, 5#32⟩ =
      .ok (.paethb ⟨0, 5, 5, 5⟩) := by decide

/-- The rejections of 30_encoding R89, one for each of its rows. -/
theorem test_decode_rejects :
    decode ⟨0x00000000#32, 0#32, 0#32, 0#32⟩ = .error .illegalCommand ∧
    decode ⟨0x0001000F#32, 0#32, 0#32, 0#32⟩ = .error .illegalCommand ∧
    decode ⟨0x00010011#32, 1#32, 1#32, 0#32⟩ = .error .illegalCommand ∧
    decode ⟨0x00010501#32, 1#32, 1#32, 0#32⟩ = .error .unknownFilterType ∧
    decode ⟨0x0000FF01#32, 1#32, 1#32, 0#32⟩ = .error .unknownFilterType ∧
    decode ⟨0x00000002#32, 1#32, 0#32, 0#32⟩ = .error .unsupportedBitDepth ∧
    decode ⟨0x00000302#32, 1#32, 0#32, 0#32⟩ = .error .unsupportedBitDepth ∧
    decode ⟨0x00000403#32, 1#32, 1#32, 0#32⟩ = .error .illegalCommand := by decide

/-- A row of the opcode table as the table numbers its bits. -/
theorem test_decodeTableWord :
    decodeTableWord 32 0x00030401 = some (.unfPaeth ⟨3, 0, 0, 0⟩) ∧ decodeTableWord 32 0x00000403 = none := by decide

/-- The three worked examples of 60_exceptions R196. -/
theorem test_firstError_examples :
    (Descriptor.mk 0x00000901#32 0#32 0#32 0#32).firstError = some .unknownFilterType ∧
    (Descriptor.mk 0x00000101#32 0#32 4#32 0#32).firstError = some .invalidStride ∧
    (Descriptor.mk 0x00010101#32 0#32 4#32 0#32).firstError = some .lengthMismatch := by decide

/-! ## One step of each command, on the examples of its rule -/

/-- R116: A = [7, 0, 255] gives OUT = [7, 0, 255]. -/
theorem test_step_unfNone :
    outAfter 2 (exec (.unfNone ⟨1, 3, 3, 0⟩) (during (.unfNone ⟨1, 3, 3, 0⟩) 2 [1] [7, 0, 255] [9, 9, 9] [] [7, 0] [])) =
      some (some 255, [1], 3) := by decide
/-- R117: at i = 6 with bpp = 3, 250 + 11 gives 5. -/
theorem test_step_unfSub :
    outAfter 6 (exec (.unfSub ⟨3, 9, 9, 0⟩) (during (.unfSub ⟨3, 9, 9, 0⟩) 6 [11, 22, 33]
      [10, 20, 30, 1, 2, 3, 250, 240, 230] [] [] [10, 20, 30, 11, 22, 33] [])) = some (some 5, [5, 22, 33], 7) := by decide
/-- R118: 128 + 128 gives 0. -/
theorem test_step_unfUp :
    outAfter 1 (exec (.unfUp ⟨1, 4, 4, 0⟩) (during (.unfUp ⟨1, 4, 4, 0⟩) 1 [6] [1, 128, 255, 0] [255, 128, 255, 7] [] [0] [])) =
      some (some 0, [6], 2) := by decide
/-- R119: floor((127 + 255) / 2) = 191, so the inner sum is not reduced. -/
theorem test_step_unfAvg :
    outAfter 1 (exec (.unfAvg ⟨1, 4, 4, 0⟩) (during (.unfAvg ⟨1, 4, 4, 0⟩) 1 [127] [0, 0, 0, 1] [255, 255, 1, 0] [] [127] [])) =
      some (some 191, [191], 2) := by decide
/-- R120: at i = 2, a = 15, b = 30, c = 10, so the predictor is b and OUT[2] = 35. -/
theorem test_step_unfPaeth :
    outAfter 2 (exec (.unfPaeth ⟨2, 6, 6, 0⟩) (during (.unfPaeth ⟨2, 6, 6, 0⟩) 2 [15, 25] [5, 5, 5, 5, 5, 5]
      [10, 20, 30, 40, 50, 60] [] [15, 25] [])) = some (some 35, [35, 25], 3) := by decide
/-- R156: 0b10110010 gives [1, 0, 1, 1, 0, 0, 1, 0]. -/
theorem test_step_unp1 :
    smpAfter 0 8 (exec (.unp1 ⟨0, 1, 0, 0⟩) (during (.unp1 ⟨0, 1, 0, 0⟩) 0 [] [0b10110010] [] [] [] [])) =
      some ([some 1, some 0, some 1, some 1, some 0, some 0, some 1, some 0], 1) := by decide
/-- R155: the second byte of [0x1B, 0xE4] gives [3, 2, 1, 0]. -/
theorem test_step_unp2 :
    smpAfter 4 4 (exec (.unp2 ⟨0, 2, 0, 0⟩) (during (.unp2 ⟨0, 2, 0, 0⟩) 1 [] [0x1B, 0xE4] [] [] [] [0, 1, 2, 3])) =
      some ([some 3, some 2, some 1, some 0], 2) := by decide
/-- R154: 0xAB gives [10, 11]. -/
theorem test_step_unp4 :
    smpAfter 0 2 (exec (.unp4 ⟨0, 1, 0, 0⟩) (during (.unp4 ⟨0, 1, 0, 0⟩) 0 [] [0xAB] [] [] [] [])) =
      some ([some 10, some 11], 1) := by decide
/-- R152: the byte 255 gives the sample 255. -/
theorem test_step_unp8 :
    smpAfter 1 1 (exec (.unp8 ⟨0, 3, 0, 0⟩) (during (.unp8 ⟨0, 3, 0, 0⟩) 1 [] [0, 255, 7] [] [] [] [0])) =
      some ([some 255], 2) := by decide
/-- R153: [0x12, 0x34] gives 0x1234. -/
theorem test_step_unp16 :
    smpAfter 0 1 (exec (.unp16 ⟨0, 2, 0, 0⟩) (during (.unp16 ⟨0, 2, 0, 0⟩) 0 [] [0x12, 0x34] [] [] [] [])) =
      some ([some 0x1234], 2) := by decide
/-- R172: 255 + 255 gives 254. -/
theorem test_step_addb :
    outAfter 2 (exec (.addb ⟨0, 4, 4, 0⟩) (during (.addb ⟨0, 4, 4, 0⟩) 2 [] [1, 128, 255, 0] [255, 128, 255, 7] [] [0, 0] [])) =
      some (some 254, [], 3) := by decide
/-- R173: 0 - 255 gives 1. -/
theorem test_step_subb :
    outAfter 0 (exec (.subb ⟨0, 4, 4, 0⟩) (during (.subb ⟨0, 4, 4, 0⟩) 0 [] [0, 0, 254, 7] [255, 128, 255, 7] [] [] [])) =
      some (some 1, [], 1) := by decide
/-- R174: the average of 127 and 255 is 191. -/
theorem test_step_avgb :
    outAfter 1 (exec (.avgb ⟨0, 4, 4, 0⟩) (during (.avgb ⟨0, 4, 4, 0⟩) 1 [] [0, 127, 191, 96] [255, 255, 1, 0] [] [127] [])) =
      some (some 191, [], 2) := by decide
/-- R175: a = 110, b = 80, c = 100 selects b. -/
theorem test_step_paethb :
    outAfter 3 (exec (.paethb ⟨0, 5, 5, 5⟩) (during (.paethb ⟨0, 5, 5, 5⟩) 3 [] [10, 100, 80, 110, 0] [10, 50, 110, 80, 255]
      [10, 80, 100, 100, 0] [10, 80, 80] [])) = some (some 80, [], 4) := by decide

/-- Each class ends an ill-valued command with its code and stays in IDLE (R191, R192, R195). -/
theorem test_error_responses :
    responsesAfter (step (ready (.unfNone ⟨0, 1, 1, 0⟩) [1] [1] [])) = some ([1#32], .idle) ∧
    responsesAfter (step (ready (.unfUp ⟨1, 1, 2, 0⟩) [1] [1, 2] [])) = some ([2#32], .idle) ∧
    responsesAfter (step (ready (.unfPaeth ⟨1, 0, 0, 0⟩) [] [] [])) = some ([1#32], .idle) ∧
    responsesAfter (step (ready (.unp16 ⟨0, 3, 0, 0⟩) [1, 2, 3] [] [])) = some ([5#32], .idle) ∧
    responsesAfter (step (ready (.paethb ⟨0, 1, 1, 2⟩) [1] [1] [1, 2])) = some ([2#32], .idle) := by decide

/-- An empty row is valid for UNF.UP: it starts, and its next step is its completion (40_unfilter R112, R122). -/
theorem test_empty_row_completes :
    responsesAfter (run 2 (ready (.unfUp ⟨1, 0, 0, 0⟩) [] [] [])) = some ([0#32], .idle) := by decide

/-- The machine's index spaces are read as the HOST filled them. -/
theorem test_supply_fills_space :
    Memory.ofList [7#8, 8#8] = [(0, 7#8), (1, 8#8)] ∧ Memory.write [(0, 7#8), (2, 9#8)] 1 8#8 = [(0, 7#8), (1, 8#8), (2, 9#8)] := by
  decide

/-- `withFetchWord` places the command the next step runs (log 19). -/
theorem test_withFetchWord_runs :
    responsesAfter (step (State.reset.withFetchWord 32 0x00000802)) = some ([], .run) := by decide

/-! ## Witnesses -/

theorem witness_DecodeOfEncode :
    (Instr.unfPaeth ⟨-32768, 4294967295, 4294967295, 4294967295⟩).WellFormed ∧ (Instr.unp16 ⟨32767, 0, 0, 0⟩).WellFormed := by
  decide

theorem witness_EncodeOfDecode : decode ⟨0x00000303#32, 5#32, 5#32, 5#32⟩ = .ok (.paethb ⟨0, 5, 5, 5⟩) := by decide

/-- The hypotheses of the four clauses of `StepRunsDecodedInstruction`. -/
theorem witness_StepRunsDecodedInstruction :
    (let s := ready (.unp8 ⟨0, 1, 0, 0⟩) [5] [] [];
      Quiet s ∧ s.phase = .idle ∧ s.commands = [⟨0x00000802#32, 1#32, 0#32, 0#32⟩] ∧
        decode ⟨0x00000802#32, 1#32, 0#32, 0#32⟩ = .ok (.unp8 ⟨0, 1, 0, 0⟩)) ∧
    (let s := { State.reset with commands := [⟨0x00000901#32, 0#32, 0#32, 0#32⟩] };
      Quiet s ∧ s.phase = .idle ∧ decode ⟨0x00000901#32, 0#32, 0#32, 0#32⟩ = .error .unknownFilterType) ∧
    (let s := during (.unp8 ⟨0, 1, 0, 0⟩) 1 [] [5] [] [] [] [5];
      Quiet s ∧ s.phase = .run ∧ decodeLatch s.latch = .ok (.unp8 ⟨0, 1, 0, 0⟩)) ∧
    decodeTableWord 32 0x00000802 = some (.unp8 ⟨0, 0, 0, 0⟩) := by decide

/-- A presented command of each error kind, and one with none. -/
theorem witness_AcceptanceFollowsErrorPriority :
    (Quiet (ready (.unfSub ⟨0, 1, 1, 0⟩) [] [] []) ∧ (ready (.unfSub ⟨0, 1, 1, 0⟩) [] [] []).phase = .idle ∧
      (ready (.unfSub ⟨0, 1, 1, 0⟩) [] [] []).commands.head? = some (encode (.unfSub ⟨0, 1, 1, 0⟩))) ∧
    (encode (.unfSub ⟨0, 1, 1, 0⟩)).firstError = some .invalidStride ∧
    (encode (.unfSub ⟨1, 0, 0, 0⟩)).firstError = some .invalidStride ∧
    (encode (.unfSub ⟨32767, 1, 2, 0⟩)).firstError = some .lengthMismatch ∧
    (encode (.paethb ⟨0, 1, 1, 2⟩)).firstError = some .lengthMismatch ∧
    (encode (.unp16 ⟨0, 4294967295, 0, 0⟩)).firstError = some .illegalCommand ∧
    (Descriptor.mk 0x00000010#32 0#32 0#32 0#32).firstError = some .illegalCommand ∧
    (Descriptor.mk 0x00000502#32 0#32 0#32 0#32).firstError = some .unsupportedBitDepth ∧
    (Descriptor.mk 0x00000501#32 0#32 0#32 0#32).firstError = some .unknownFilterType ∧
    (encode (.unfSub ⟨1, 1, 1, 0⟩)).firstError = none := by decide

theorem witness_SameDescriptorSameError :
    (let s := ready (.unfSub ⟨0, 1, 1, 0⟩) [] [] [];
     let s' := { during (.unp8 ⟨0, 1, 0, 0⟩) 1 [] [5] [] [] [] [5] with phase := .idle, commands := s.commands };
     Quiet s ∧ Quiet s' ∧ s.phase = .idle ∧ s'.phase = .idle ∧ s.commands ≠ [] ∧ s'.commands.head? = s.commands.head?) ∧
    FailsWith (ready (.unfSub ⟨0, 1, 1, 0⟩) [] [] []) .invalidStride := ⟨by decide, rfl⟩

theorem witness_UnfilterCommandsStart :
    (let o : Operands := ⟨1, 0, 0, 0⟩; o.WellFormed ∧ State.reset.phase = .idle ∧ 0 < o.bpp ∧ o.lenB = o.lenA) ∧
    (let o : Operands := ⟨32767, 1, 1, 0⟩;
      o.WellFormed ∧ State.reset.phase = .idle ∧ 0 < o.bpp ∧ o.lenB = o.lenA ∧ 0 < o.lenA) := by decide

theorem witness_UnpackCommandsStart :
    (let o : Operands := ⟨-1, 3, 0, 0⟩; o.WellFormed ∧ State.reset.phase = .idle) ∧
    (let o : Operands := ⟨0, 0, 0, 0⟩; o.WellFormed ∧ State.reset.phase = .idle ∧ o.lenA % 2 = 0) := by decide

theorem witness_HelperCommandsStart :
    let o : Operands := ⟨0, 0, 0, 0⟩;
    o.WellFormed ∧ State.reset.phase = .idle ∧ o.lenB = o.lenA ∧ o.lenC = o.lenA := by decide

/-- The last byte of each UNF command, and for UNF.PAETH an index below bpp and the index bpp. -/
theorem witness_UnfilterByteStep :
    (let s := during (.unfNone ⟨1, 1, 1, 0⟩) 0 [] [7] [] [] [] [];
      Memory.read s.spaceA s.idx = some 7 ∧ AtByteStep (.unfNone ⟨1, 1, 1, 0⟩) s) ∧
    (let s := during (.unfSub ⟨2, 2, 2, 0⟩) 1 [3, 4] [7, 8] [] [] [3] [];
      Memory.read s.spaceA s.idx = some 8 ∧ AtByteStep (.unfSub ⟨2, 2, 2, 0⟩) s ∧
        s.left[s.idx % s.latch.bpp.toInt.toNat]? = some 4) ∧
    (let s := during (.unfUp ⟨1, 1, 1, 0⟩) 0 [] [7] [9] [] [] [];
      Memory.read s.spaceA s.idx = some 7 ∧ AtByteStep (.unfUp ⟨1, 1, 1, 0⟩) s ∧ s.latch.lenB = s.latch.lenA ∧
        Memory.read s.spaceB s.idx = some 9) ∧
    (let s := during (.unfAvg ⟨1, 2, 2, 0⟩) 1 [5] [7, 8] [9, 1] [] [5] [];
      Memory.read s.spaceA s.idx = some 8 ∧ AtByteStep (.unfAvg ⟨1, 2, 2, 0⟩) s ∧ s.latch.lenB = s.latch.lenA ∧
        s.left[s.idx % s.latch.bpp.toInt.toNat]? = some 5 ∧ Memory.read s.spaceB s.idx = some 1) ∧
    (let s := during (.unfPaeth ⟨2, 3, 3, 0⟩) 1 [4, 0] [7, 8, 9] [1, 2, 3] [] [4] [];
      Memory.read s.spaceA s.idx = some 8 ∧ AtByteStep (.unfPaeth ⟨2, 3, 3, 0⟩) s ∧ s.latch.lenB = s.latch.lenA ∧
        s.left[s.idx % s.latch.bpp.toInt.toNat]? = some 0 ∧ Memory.read s.spaceB s.idx = some 2 ∧
        (s.idx : Int) - (s.latch.bpp.toInt.toNat : Int) < 0) ∧
    (let s := during (.unfPaeth ⟨2, 3, 3, 0⟩) 2 [4, 5] [7, 8, 9] [1, 2, 3] [] [4, 5] [];
      Memory.read s.spaceA s.idx = some 9 ∧ AtByteStep (.unfPaeth ⟨2, 3, 3, 0⟩) s ∧ s.latch.lenB = s.latch.lenA ∧
        s.left[s.idx % s.latch.bpp.toInt.toNat]? = some 4 ∧ Memory.read s.spaceB s.idx = some 3 ∧
        0 ≤ (s.idx : Int) - (s.latch.bpp.toInt.toNat : Int) ∧
        Memory.read s.spaceB (s.idx - s.latch.bpp.toInt.toNat) = some 1) := by decide

theorem witness_UnpackByteStep :
    (let s := during (.unp1 ⟨0, 1, 0, 0⟩) 0 [] [7] [] [] [] [];
      Memory.read s.spaceA s.idx = some 7 ∧ AtByteStep (.unp1 ⟨0, 1, 0, 0⟩) s) ∧
    (let s := during (.unp2 ⟨0, 1, 0, 0⟩) 0 [] [7] [] [] [] [];
      Memory.read s.spaceA s.idx = some 7 ∧ AtByteStep (.unp2 ⟨0, 1, 0, 0⟩) s) ∧
    (let s := during (.unp4 ⟨0, 1, 0, 0⟩) 0 [] [7] [] [] [] [];
      Memory.read s.spaceA s.idx = some 7 ∧ AtByteStep (.unp4 ⟨0, 1, 0, 0⟩) s) ∧
    (let s := during (.unp8 ⟨0, 2, 0, 0⟩) 1 [] [7, 8] [] [] [] [7];
      Memory.read s.spaceA s.idx = some 8 ∧ AtByteStep (.unp8 ⟨0, 2, 0, 0⟩) s) ∧
    (let s := during (.unp16 ⟨0, 4, 0, 0⟩) 2 [] [7, 8, 9, 10] [] [] [] [0x708];
      Memory.read s.spaceA s.idx = some 9 ∧ AtByteStep (.unp16 ⟨0, 4, 0, 0⟩) s ∧ s.idx + 1 < s.latch.lenA.toNat ∧
        Memory.read s.spaceA (s.idx + 1) = some 10) := by decide

theorem witness_HelperByteStep :
    (∀ i ∈ [Instr.addb ⟨0, 2, 2, 0⟩, Instr.subb ⟨0, 2, 2, 0⟩, Instr.avgb ⟨0, 2, 2, 0⟩],
      let s := during i 1 [] [7, 8] [9, 1] [] [7] [];
      Memory.read s.spaceA s.idx = some 8 ∧ Memory.read s.spaceB s.idx = some 1 ∧ s.latch.lenB = s.latch.lenA ∧
        AtByteStep i s) ∧
    (let s := during (.paethb ⟨0, 2, 2, 2⟩) 1 [] [7, 8] [9, 1] [3, 4] [7] [];
      Memory.read s.spaceA s.idx = some 8 ∧ Memory.read s.spaceB s.idx = some 1 ∧ s.latch.lenB = s.latch.lenA ∧
        AtByteStep (.paethb ⟨0, 2, 2, 2⟩) s ∧ s.latch.lenC = s.latch.lenA ∧ Memory.read s.spaceC s.idx = some 4) := by
  decide

/-- One command of each class at its last index, the empty row of UNF.UP among them. -/
theorem witness_CompletionRespondsOk :
    (let i : Instr := .unfUp ⟨1, 0, 0, 0⟩; let s := during i 0 [] [] [] [] [] [];
      s.phase = .run ∧ s.latch = i.latch ∧ s.idx = s.latch.lenA.toNat) ∧
    (let i : Instr := .unp16 ⟨0, 2, 0, 0⟩; let s := during i 2 [] [1, 2] [] [] [] [0x102];
      s.phase = .run ∧ s.latch = i.latch ∧ s.idx = s.latch.lenA.toNat) ∧
    (let i : Instr := .paethb ⟨0, 1, 1, 1⟩; let s := during i 1 [] [1] [2] [3] [2] [];
      s.phase = .run ∧ s.latch = i.latch ∧ s.idx = s.latch.lenA.toNat) := by decide

/-- A start, a byte step with and without predictor state, a completion and an error response of commands whose result is
OUT. -/
theorem witness_OutCommandsFrame :
    (∃ t, exec (.unfSub ⟨1, 1, 1, 0⟩) State.reset = .next t ∧ t.phase = .run) ∧
    (∃ t, exec (.unfSub ⟨1, 2, 2, 0⟩) (during (.unfSub ⟨1, 2, 2, 0⟩) 0 [0] [1, 2] [] [] [] []) = .next t ∧ t.phase = .run) ∧
    (∃ t, exec (.addb ⟨1, 2, 2, 0⟩) (during (.addb ⟨1, 2, 2, 0⟩) 1 [0] [1, 2] [3, 4] [] [4] []) = .next t ∧ t.phase = .run) ∧
    (∃ t, exec (.addb ⟨0, 1, 1, 0⟩) (during (.addb ⟨0, 1, 1, 0⟩) 1 [] [1] [2] [] [3] []) = .next t ∧ t.phase = .idle) ∧
    (∃ t, exec (.unfSub ⟨0, 1, 1, 0⟩) State.reset = .next t ∧ t.phase = .idle) ∧
    Instr.writesOut (.unfSub ⟨1, 1, 1, 0⟩) = true ∧ Instr.usesLeft (.addb ⟨0, 1, 1, 0⟩) = false :=
  ⟨⟨_, rfl, rfl⟩, ⟨_, rfl, rfl⟩, ⟨_, rfl, rfl⟩, ⟨_, rfl, rfl⟩, ⟨_, rfl, rfl⟩, rfl, rfl⟩

theorem witness_UnpackCommandsFrame :
    (∃ t, exec (.unp4 ⟨0, 1, 0, 0⟩) State.reset = .next t ∧ t.phase = .run) ∧
    (∃ t, exec (.unp4 ⟨0, 1, 0, 0⟩) (during (.unp4 ⟨0, 1, 0, 0⟩) 0 [] [1] [] [] [] []) = .next t ∧ t.phase = .run) ∧
    (∃ t, exec (.unp4 ⟨0, 1, 0, 0⟩) (during (.unp4 ⟨0, 1, 0, 0⟩) 1 [] [1] [] [] [] [0, 1]) = .next t ∧ t.phase = .idle) ∧
    (∃ t, exec (.unp16 ⟨0, 1, 0, 0⟩) State.reset = .next t ∧ t.phase = .idle) ∧
    Instr.writesOut (.unp4 ⟨0, 1, 0, 0⟩) = false :=
  ⟨⟨_, rfl, rfl⟩, ⟨_, rfl, rfl⟩, ⟨_, rfl, rfl⟩, ⟨_, rfl, rfl⟩, rfl⟩

/-- Where n steps end that all go on. -/
def last (n : Nat) (s : State) : State :=
  match run n s with
  | .next t => t
  | .fault _ => s
  | .refused _ => s

theorem witness_PaethPredictorFollowsRule :
    (let d := paethDistance (paethEstimate 80 110 100); d 80 ≤ d 110 ∧ d 80 ≤ d 100) ∧
    (let d := paethDistance (paethEstimate 110 80 100); ¬ (d 110 ≤ d 80 ∧ d 110 ≤ d 100) ∧ d 80 ≤ d 100) ∧
    (let d := paethDistance (paethEstimate 100 50 80); ¬ (d 100 ≤ d 50 ∧ d 100 ≤ d 80) ∧ ¬ d 50 ≤ d 80) := by decide

/-- The examples of 40_unfilter R128: a tie of a and b, of a and c, of b and c, and c strictly nearest. -/
theorem witness_PaethSelectsNearestInTieOrder :
    (let p := paethEstimate 9 9 5; paethDistance p 9 = paethDistance p 9 ∧ paethDistance p 9 < paethDistance p 5) ∧
    (let p := paethEstimate 80 110 100;
      paethDistance p 80 = paethDistance p 100 ∧ paethDistance p 80 < paethDistance p 110) ∧
    (let p := paethEstimate 110 80 100;
      paethDistance p 80 = paethDistance p 100 ∧ paethDistance p 80 < paethDistance p 110) ∧
    paethPredictor 100 50 80 ≠ 100 ∧ paethPredictor 100 50 80 ≠ 50 := by decide

theorem witness_UnpackedSamplesRestoreByte : ∀ d ∈ [1, 2, 4], d = 1 ∨ d = 2 ∨ d = 4 := by decide

/-- The clauses of the five UNF commands: bpp at 0 and at its least, lengths that differ by one, the empty row, one byte. -/
theorem witness_UnfNoneReturnsRow :
    (∀ o ∈ [(⟨0, 1, 1, 0⟩ : Operands), ⟨-32768, 1, 1, 0⟩],
      o.WellFormed ∧ Presented (.unfNone o) (ready (.unfNone o) [7] [] []) ∧ o.bpp ≤ 0) ∧
    (let o : Operands := ⟨1, 1, 2, 0⟩;
      o.WellFormed ∧ Presented (.unfNone o) (ready (.unfNone o) [7] [] []) ∧ 0 < o.bpp ∧ o.lenB ≠ o.lenA) ∧
    (∀ o ∈ [(⟨1, 0, 0, 0⟩ : Operands), ⟨32767, 1, 1, 0⟩],
      o.WellFormed ∧ Presented (.unfNone o) (ready (.unfNone o) [7] [] []) ∧ 0 < o.bpp ∧ o.lenB = o.lenA ∧
        Supplied (ready (.unfNone o) [7] [] []).spaceA o.lenA) := by decide

theorem witness_UnfUpAddsAboveRow :
    (∀ o ∈ [(⟨0, 1, 1, 0⟩ : Operands), ⟨-32768, 1, 1, 0⟩],
      o.WellFormed ∧ Presented (.unfUp o) (ready (.unfUp o) [7] [8] []) ∧ o.bpp ≤ 0) ∧
    (let o : Operands := ⟨1, 1, 2, 0⟩;
      o.WellFormed ∧ Presented (.unfUp o) (ready (.unfUp o) [7] [8] []) ∧ 0 < o.bpp ∧ o.lenB ≠ o.lenA) ∧
    (∀ o ∈ [(⟨1, 0, 0, 0⟩ : Operands), ⟨32767, 1, 1, 0⟩],
      o.WellFormed ∧ Presented (.unfUp o) (ready (.unfUp o) [7] [8] []) ∧ 0 < o.bpp ∧ o.lenB = o.lenA ∧
        Supplied (ready (.unfUp o) [7] [8] []).spaceA o.lenA ∧
        Supplied (ready (.unfUp o) [7] [8] []).spaceB o.lenA) := by decide

/-- The clauses that UNF.SUB, UNF.AVG and UNF.PAETH share. -/
abbrev PredictorClauses (f : Operands → Instr) : Prop :=
    (∀ o ∈ [(⟨0, 1, 1, 0⟩ : Operands), ⟨-32768, 1, 1, 0⟩],
      o.WellFormed ∧ Presented (f o) (ready (f o) [7] [8] []) ∧ o.bpp ≤ 0) ∧
    (let o : Operands := ⟨1, 1, 2, 0⟩;
      o.WellFormed ∧ Presented (f o) (ready (f o) [7] [8] []) ∧ 0 < o.bpp ∧ o.lenB ≠ o.lenA) ∧
    (let o : Operands := ⟨1, 0, 0, 0⟩;
      o.WellFormed ∧ Presented (f o) (ready (f o) [7] [8] []) ∧ 0 < o.bpp ∧ o.lenB = o.lenA ∧ o.lenA = 0) ∧
    (∀ o ∈ [(⟨1, 1, 1, 0⟩ : Operands), ⟨32767, 1, 1, 0⟩],
      o.WellFormed ∧ Presented (f o) (ready (f o) [7] [8] []) ∧ 0 < o.bpp ∧ o.lenB = o.lenA ∧ 0 < o.lenA ∧
        Supplied (ready (f o) [7] [8] []).spaceA o.lenA ∧ Supplied (ready (f o) [7] [8] []).spaceB o.lenA)

theorem witness_UnfSubAddsByteBppBack : PredictorClauses .unfSub := by decide
theorem witness_UnfAvgAddsFloorAverage : PredictorClauses .unfAvg := by decide
theorem witness_UnfPaethAddsPredictor : PredictorClauses .unfPaeth := by decide

/-- The clauses that the UNP commands share: the empty row and two bytes. -/
abbrev UnpackClauses (f : Operands → Instr) : Prop :=
    ∀ o ∈ [(⟨0, 0, 0, 0⟩ : Operands), ⟨-1, 2, 9, 9⟩],
      o.WellFormed ∧ Presented (f o) (ready (f o) [7, 8] [] []) ∧ o.lenA % 2 = 0 ∧
        Supplied (ready (f o) [7, 8] [] []).spaceA o.lenA

theorem witness_Unp1ListsBits : UnpackClauses .unp1 := by decide
theorem witness_Unp2ListsPairs : UnpackClauses .unp2 := by decide
theorem witness_Unp4ListsNibbles : UnpackClauses .unp4 := by decide
theorem witness_Unp8CopiesBytes : UnpackClauses .unp8 := by decide
theorem witness_Unp16JoinsBytesBigEndian : UnpackClauses .unp16 := by decide
theorem witness_Unp16JoinsBytesBigEndian_odd :
    let o : Operands := ⟨0, 1, 0, 0⟩
    o.WellFormed ∧ Presented (.unp16 o) (ready (.unp16 o) [7] [] []) ∧ o.lenA % 2 = 1 := by decide

/-- The clauses that ADDB, SUBB and AVGB share. -/
abbrev HelperClauses (f : Operands → Instr) : Prop :=
    (let o : Operands := ⟨0, 1, 0, 0⟩;
      o.WellFormed ∧ Presented (f o) (ready (f o) [7] [8] []) ∧ o.lenB ≠ o.lenA) ∧
    (∀ o ∈ [(⟨0, 0, 0, 5⟩ : Operands), ⟨-1, 1, 1, 0⟩],
      o.WellFormed ∧ Presented (f o) (ready (f o) [7] [8] []) ∧ o.lenB = o.lenA ∧
        Supplied (ready (f o) [7] [8] []).spaceA o.lenA ∧ Supplied (ready (f o) [7] [8] []).spaceB o.lenA)

theorem witness_AddbAddsLanes : HelperClauses .addb := by decide
theorem witness_SubbSubtractsLanes : HelperClauses .subb := by decide
theorem witness_AvgbAveragesLanes : HelperClauses .avgb := by decide

theorem witness_PaethbSelectsLanes :
    (let o : Operands := ⟨0, 1, 0, 1⟩;
      o.WellFormed ∧ Presented (.paethb o) (ready (.paethb o) [7] [8] [9]) ∧ o.lenB ≠ o.lenA) ∧
    (let o : Operands := ⟨0, 1, 1, 2⟩;
      o.WellFormed ∧ Presented (.paethb o) (ready (.paethb o) [7] [8] [9]) ∧ o.lenB = o.lenA ∧ o.lenC ≠ o.lenA) ∧
    (∀ o ∈ [(⟨0, 0, 0, 0⟩ : Operands), ⟨0, 1, 1, 1⟩],
      o.WellFormed ∧ Presented (.paethb o) (ready (.paethb o) [7] [8] [9]) ∧ o.lenB = o.lenA ∧ o.lenC = o.lenA ∧
        Supplied (ready (.paethb o) [7] [8] [9]).spaceA o.lenA ∧ Supplied (ready (.paethb o) [7] [8] [9]).spaceB o.lenA ∧
        Supplied (ready (.paethb o) [7] [8] [9]).spaceC o.lenA) := by decide

/-- A row of one byte for each filter type. -/
theorem witness_UnfilterInvertsForwardFilter :
    ∀ i ∈ [Instr.unfNone ⟨1, 1, 1, 0⟩, .unfSub ⟨1, 1, 1, 0⟩, .unfUp ⟨1, 1, 1, 0⟩, .unfAvg ⟨1, 1, 1, 0⟩,
        .unfPaeth ⟨1, 1, 1, 0⟩],
      let s := ready i (forwardFilter i [7] [200]) [200] []
      i.Valid ∧ [7#8].length = 1 ∧ [200#8].length = 1 ∧ Presented i s ∧
        s.spaceA = Memory.ofList (forwardFilter i [7] [200]) ∧ s.spaceB = Memory.ofList [200] := by decide

theorem witness_StrideLargerThanRow :
    let o : Operands := ⟨2, 1, 1, 0⟩
    o.WellFormed ∧ 0 < o.lenA ∧ o.lenB = o.lenA ∧ (o.lenA : Int) < o.bpp ∧
      Supplied (ready (.unfSub o) [7] [8] []).spaceA o.lenA ∧ Supplied (ready (.unfSub o) [7] [8] []).spaceB o.lenA ∧
      Presented (.unfSub o) (ready (.unfSub o) [7] [8] []) ∧ Presented (.unfAvg o) (ready (.unfAvg o) [7] [8] []) ∧
      Presented (.unfPaeth o) (ready (.unfPaeth o) [7] [8] []) := by decide

theorem witness_SubIsChainedSumPerStrideGroup :
    let o : Operands := ⟨1, 2, 2, 0⟩
    let s := ready (.unfSub o) [250, 10] [] []
    o.WellFormed ∧ Completes (.unfSub o) s (last 4 s) ∧ 0 < o.bpp.toNat ∧ 0 + 1 * o.bpp.toNat < o.lenA :=
  ⟨by decide, ⟨by decide, rfl, by decide, by decide⟩, by decide, by decide⟩

/-- One byte: UNF.UP of 5 and 7 beside ADDB of 5 and 7, UNF.SUB of 5 beside ADDB of 5 and 0. -/
theorem witness_UpAndSubAreHelperAdds :
    (let o : Operands := ⟨1, 1, 1, 0⟩; let s := ready (.unfUp o) [5] [7] []; let s' := ready (.addb o) [5] [7] [];
      o.WellFormed ∧ (last 3 s).out = Memory.ofList [12] ∧ s'.spaceA = s.spaceA ∧ s'.spaceB = s.spaceB ∧
      Completes (.addb o) s' (last 3 s') ∧ Completes (.unfUp o) s (last 3 s)) ∧
    (let o : Operands := ⟨1, 1, 1, 0⟩; let s := ready (.unfSub o) [5] [7] []; let s' := ready (.addb o) [5] [0] [];
      (last 3 s).out = Memory.ofList [5] ∧ s'.spaceA = s.spaceA ∧ s'.spaceB = Memory.ofList (shiftRow o.bpp.toNat [5]) ∧
      Completes (.addb o) s' (last 3 s') ∧ Completes (.unfSub o) s (last 3 s)) :=
  ⟨⟨by decide, by decide, by decide, by decide, ⟨by decide, rfl, by decide, by decide⟩,
      ⟨by decide, rfl, by decide, by decide⟩⟩,
    ⟨by decide, by decide, by decide, ⟨by decide, rfl, by decide, by decide⟩, ⟨by decide, rfl, by decide, by decide⟩⟩⟩

/-- One byte, 5 below 8: UNF.AVG beside AVGB and ADDB, UNF.PAETH beside PAETHB and ADDB. -/
theorem witness_AvgAndPaethAreHelperCompositions :
    (let o : Operands := ⟨1, 1, 1, 1⟩; let s := ready (.unfAvg o) [5] [8] []; let u := ready (.avgb o) [0] [8] [0];
      let s' := ready (.addb o) [5] [4] [];
      o.WellFormed ∧ (last 3 s).out = Memory.ofList [9] ∧ s.spaceB = Memory.ofList [8] ∧
      u.spaceA = Memory.ofList (shiftRow o.bpp.toNat [9]) ∧ u.spaceB = s.spaceB ∧
      u.spaceC = Memory.ofList (shiftRow o.bpp.toNat [8]) ∧ s'.spaceA = s.spaceA ∧ s'.spaceB = (last 3 u).out ∧
      Completes (.addb o) s' (last 3 s') ∧ Completes (.unfAvg o) s (last 3 s) ∧ Completes (.avgb o) u (last 3 u)) ∧
    (let o : Operands := ⟨1, 1, 1, 1⟩; let s := ready (.unfPaeth o) [5] [8] []; let u := ready (.paethb o) [0] [8] [0];
      let s' := ready (.addb o) [5] [8] [];
      (last 3 s).out = Memory.ofList [13] ∧ s.spaceB = Memory.ofList [8] ∧
      u.spaceA = Memory.ofList (shiftRow o.bpp.toNat [13]) ∧ u.spaceB = s.spaceB ∧
      u.spaceC = Memory.ofList (shiftRow o.bpp.toNat [8]) ∧ s'.spaceA = s.spaceA ∧ s'.spaceB = (last 3 u).out ∧
      Completes (.addb o) s' (last 3 s') ∧ Completes (.unfPaeth o) s (last 3 s) ∧ Completes (.paethb o) u (last 3 u)) :=
  ⟨⟨by decide, by decide, by decide, by decide, by decide, by decide, by decide, by decide,
      ⟨by decide, rfl, by decide, by decide⟩, ⟨by decide, rfl, by decide, by decide⟩,
      ⟨by decide, rfl, by decide, by decide⟩⟩,
    ⟨by decide, by decide, by decide, by decide, by decide, by decide, by decide,
      ⟨by decide, rfl, by decide, by decide⟩, ⟨by decide, rfl, by decide, by decide⟩,
      ⟨by decide, rfl, by decide, by decide⟩⟩⟩

/-- An idle core that has run another command before. -/
def used (i : Instr) (a b c : List Byte) : State :=
  { ready i a b c with
    latch := (Instr.unp8 ⟨0, 1, 0, 0⟩).latch, idx := 1, left := [3], out := Memory.ofList [1, 2], smp := Memory.ofList [5]
    received := [0#32], outReady := some 1 }

theorem witness_OutcomeIgnoresHistory :
    (let i : Instr := .unfSub ⟨1, 1, 1, 0⟩; let s := ready i [5] [7] []; let s' := used i [5, 6] [7, 8] [9];
      i.WellFormed ∧ Presented i s ∧ Presented i s' ∧
        (∀ k < i.operands.lenA, Memory.read s'.spaceA k = Memory.read s.spaceA k) ∧
        (∀ k < i.operands.lenB, Memory.read s'.spaceB k = Memory.read s.spaceB k) ∧
        (∀ k < i.operands.lenC, Memory.read s'.spaceC k = Memory.read s.spaceC k) ∧ Completes i s (last 3 s)) ∧
    (let i : Instr := .unfSub ⟨0, 1, 1, 0⟩; let s := ready i [5] [7] []; let s' := used i [5] [7] [];
      i.WellFormed ∧ Presented i s ∧ Presented i s' ∧ FailsWith s .invalidStride) :=
  ⟨⟨by decide, by decide, by decide, by decide, by decide, by decide, ⟨by decide, rfl, by decide, by decide⟩⟩,
    ⟨by decide, by decide, by decide, rfl⟩⟩

/-- Two UNP.8 descriptors and two ADDB descriptors that differ in what they ignore, spaces included, and two rejected
UNP.16 descriptors. -/
theorem witness_IgnoredFieldsHaveNoEffect :
    (let i : Instr := .unp8 ⟨0, 1, 0, 0⟩; let i' : Instr := .unp8 ⟨-5, 1, 8, 9⟩; let s := ready i [5] [] [];
      let s' := used i' [5] [6] [7];
      i.WellFormed ∧ i'.WellFormed ∧ i'.opcField = i.opcField ∧ i'.selField = i.selField ∧
        i'.operands.lenA = i.operands.lenA ∧ i.opcField ≠ 1#4 ∧ i.opcField = 2#4 ∧ Presented i s ∧ Presented i' s' ∧
        s'.spaceA = s.spaceA ∧ Completes i s (last 3 s)) ∧
    (let i : Instr := .addb ⟨0, 1, 1, 0⟩; let i' : Instr := .addb ⟨32767, 1, 1, 9⟩; let s := ready i [5] [6] [];
      let s' := used i' [5] [6] [7];
      i.WellFormed ∧ i'.WellFormed ∧ i'.opcField = i.opcField ∧ i'.selField = i.selField ∧
        i'.operands.lenA = i.operands.lenA ∧ i.opcField ≠ 1#4 ∧ i'.operands.lenB = i.operands.lenB ∧
        s'.spaceB = s.spaceB ∧ i.selField ≠ 3#8 ∧ Presented i s ∧ Presented i' s' ∧ s'.spaceA = s.spaceA ∧
        Completes i s (last 3 s)) ∧
    (let i : Instr := .unp16 ⟨0, 1, 0, 0⟩; let i' : Instr := .unp16 ⟨1, 1, 1, 1⟩; let s := ready i [5] [] [];
      i.WellFormed ∧ i'.WellFormed ∧ i'.opcField = i.opcField ∧ i'.selField = i.selField ∧
        i'.operands.lenA = i.operands.lenA ∧ Presented i s ∧ Presented i' (used i' [5] [] []) ∧
        FailsWith s .illegalCommand) :=
  ⟨⟨by decide, by decide, by decide, by decide, by decide, by decide, by decide, by decide, by decide, by decide,
      ⟨by decide, rfl, by decide, by decide⟩⟩,
    ⟨by decide, by decide, by decide, by decide, by decide, by decide, by decide, by decide, by decide, by decide,
      by decide, by decide, ⟨by decide, rfl, by decide, by decide⟩⟩,
    ⟨by decide, by decide, by decide, by decide, by decide, by decide, by decide, rfl⟩⟩

/-! ## Witnesses of `Running` and of the invariant -/

/-- A started command meets `Running`. -/
theorem started_running (i : Instr) (a b c : List Byte) (h : i.Valid) : Running i (i.start (ready i a b c)) :=
  running_start h.1 (valid_iff.1 h).2

theorem started_inv (i : Instr) (a b c : List Byte) (h : i.Valid) (hc : SpacesCanonical (i.start (ready i a b c))) :
    Inv (i.start (ready i a b c)) :=
  ⟨hc, fun _ => ⟨i, started_running i a b c h⟩⟩

/-- A state in RUN that meets the invariant and steps. -/
theorem witness_StepKeepsInvariant :
    ∃ s t, Inv s ∧ s.phase = .run ∧ step s = .next t :=
  ⟨_, _, started_inv (.unfPaeth ⟨1, 1, 1, 0⟩) [5] [6] [] (by decide) (by decide), by decide, rfl⟩

/-- A command with a byte step to take, and one whose row is empty, whose only step is its completion. -/
theorem witness_RunningCoreNeverStops :
    (∃ i s, Running i s ∧ Quiet s ∧ s.phase = .run ∧ OperandsSupplied i s ∧ s.idx < s.latch.lenA.toNat) ∧
    (∃ i s, Running i s ∧ Quiet s ∧ s.phase = .run ∧ OperandsSupplied i s ∧ s.idx = s.latch.lenA.toNat) := by
  refine ⟨⟨_, _, started_running (.unfPaeth ⟨1, 1, 1, 0⟩) [5] [6] [] (by decide), by decide, by decide, ?_, by decide⟩,
    ⟨_, _, started_running (.unfUp ⟨1, 0, 0, 0⟩) [] [] [] (by decide), by decide, by decide, ?_, by decide⟩⟩ <;>
    (unfold OperandsSupplied; decide)

/-- A command with byte steps left. -/
theorem witness_RunningCommandSendsItsResponse :
    ∃ i s, Running i s ∧ Quiet s ∧ s.phase = .run ∧ OperandsSupplied i s ∧ 0 < s.latch.lenA.toNat - s.idx := by
  refine ⟨_, _, started_running (.unp16 ⟨0, 2, 0, 0⟩) [5, 6] [] [] (by decide), by decide, by decide, ?_, by decide⟩
  unfold OperandsSupplied; decide

theorem witness_LeftEntryIsOutBppBack :
    ∃ i s, Running i s ∧ i.usesLeft = true ∧ s.idx < s.latch.lenA.toNat :=
  ⟨_, _, started_running (.unfSub ⟨2, 1, 1, 0⟩) [5] [] [] (by decide), rfl, by decide⟩

theorem witness_CoreNeverWritesOperands :
    ∃ t, State.reset.script = [] ∧ step State.reset = .next t := ⟨_, rfl, rfl⟩

/-- A byte step of a command whose result is OUT and of one whose result is SMP. -/
theorem witness_ResultIsWrittenOnceInOrder :
    (∃ i s t, Running i s ∧ Quiet s ∧ s.phase = .run ∧ step s = .next t ∧ i.writesOut = true) ∧
    (∃ i s t, Running i s ∧ Quiet s ∧ s.phase = .run ∧ step s = .next t ∧ i.writesOut = false) :=
  ⟨⟨_, _, _, started_running (.unfUp ⟨1, 1, 1, 0⟩) [5] [6] [] (by decide), by decide, by decide, rfl, rfl⟩,
    ⟨_, _, _, started_running (.unp2 ⟨0, 1, 0, 0⟩) [5] [] [] (by decide), by decide, by decide, rfl, rfl⟩⟩

/-- IDLE with a valid command, RUN with a byte step, RUN at the end. -/
theorem witness_PhaseChangesOnlyAsRuled :
    (∃ s t, Inv s ∧ Quiet s ∧ s.phase = .idle ∧ step s = .next t ∧ t.phase = .run) ∧
    (∃ s t, Inv s ∧ Quiet s ∧ s.phase = .run ∧ step s = .next t ∧ t.phase = .run) ∧
    (∃ s t, Inv s ∧ Quiet s ∧ s.phase = .run ∧ step s = .next t ∧ t.phase = .idle) :=
  ⟨⟨ready (.unp8 ⟨0, 1, 0, 0⟩) [5] [] [], _, ⟨by decide, fun h => nomatch h⟩, by decide, rfl, rfl, rfl⟩,
    ⟨_, _, started_inv (.unp8 ⟨0, 1, 0, 0⟩) [5] [] [] (by decide) (by decide), by decide, rfl, rfl, rfl⟩,
    ⟨_, _, started_inv (.unp8 ⟨0, 0, 0, 0⟩) [] [] [] (by decide) (by decide), by decide, rfl, rfl, rfl⟩⟩

theorem witness_EqualElementsEqualSpaces :
    Memory.wf [(0, 5#8), (3, 6#8)] = true ∧ Memory.wf (Memory.write (Memory.write [] 3 6#8) 0 5#8) = true ∧
      ∀ k, Memory.read [(0, 5#8), (3, 6#8)] k = Memory.read (Memory.write (Memory.write [] 3 6#8) 0 5#8) k :=
  ⟨by decide, by decide, fun _ => rfl⟩

/-! ## Witnesses of the HOST's side -/

theorem witness_PresentedCommandsWaitInOrder :
    (pending (.present ⟨0#32, 0#32, 0#32, 0#32⟩)).script = [.present ⟨0#32, 0#32, 0#32, 0#32⟩] ∧
    (let s := during (.unp8 ⟨0, 1, 0, 0⟩) 0 [] [5] [] [] [] [];
      s.script = [] ∧ s.phase = .run ∧ (smpAfter 0 1 (step s)).isSome = true ∧ s.latch ≠ (Instr.unp8 ⟨0, 2, 0, 0⟩).latch) := by
  decide

/-- A running UNP.8 uses space A and not B, C; a running PAETHB uses all three; an idle core none. -/
theorem witness_OperandsAreStableWhileRunning :
    (let s := during (.unp8 ⟨0, 1, 0, 0⟩) 0 [] [5] [] [] [] [];
      s.phase = .run ∧ usesSpace s.latch .a = true ∧ ¬ (s.phase = .run ∧ usesSpace s.latch .b = true) ∧
        ¬ (s.phase = .run ∧ usesSpace s.latch .c = true)) ∧
    (let s := during (.paethb ⟨0, 1, 1, 1⟩) 0 [] [5] [6] [7] [] [];
      s.phase = .run ∧ usesSpace s.latch .b = true ∧ usesSpace s.latch .c = true) ∧
    (pending (.supply .a [5])).script = [.supply .a [5]] ∧
      ¬ ((pending (.supply .a [5])).phase = .run ∧ usesSpace (pending (.supply .a [5])).latch .a = true) := by decide

/-- Other words and the same words while UNP.8 runs, words in IDLE, and an accepted descriptor. -/
theorem witness_DescriptorWordsAreStableWhileRunning :
    (∀ d ∈ [(⟨0x00000802#32, 2#32, 0#32, 0#32⟩ : Descriptor), ⟨0x00000802#32, 1#32, 0#32, 0#32⟩],
      let s := { during (.unp8 ⟨0, 1, 0, 0⟩) 0 [] [5] [] [] [] [] with script := [.changeWords d] }
      s.script = [.changeWords d] ∧ s.phase = .run ∧ (d ≠ hostWords s ↔ d.w1 = 2#32)) ∧
    (let s := pending (.changeWords (encode (.unp8 ⟨0, 1, 0, 0⟩)));
      s.script = [.changeWords (encode (.unp8 ⟨0, 1, 0, 0⟩))] ∧ s.phase = .idle) ∧
    (let s := ready (.unp8 ⟨0, 1, 0, 0⟩) [5] [] [];
      ∃ t, Quiet s ∧ s.phase = .idle ∧ s.commands.head? = some (encode (.unp8 ⟨0, 1, 0, 0⟩)) ∧ step s = .next t ∧
        t.phase = .run) :=
  ⟨by decide, by decide, ⟨_, by decide, by decide, by decide, rfl, by decide⟩⟩

theorem witness_UnwrittenResultReadFaults :
    (let s := pending (.readOut 0); s.script = [.readOut 0] ∧ Memory.read s.out 0 = none) ∧
    (let s := pending (.readSmp 0); s.script = [.readSmp 0] ∧ Memory.read s.smp 0 = none) ∧
    (let s := { pending (.readOut 0) with out := [(0, 7#8)] }; s.script = [.readOut 0] ∧ Memory.read s.out 0 = some 7) ∧
    (let s := { pending (.readSmp 0) with smp := [(0, 7#16)] }; s.script = [.readSmp 0] ∧ Memory.read s.smp 0 = some 7) := by
  decide

theorem witness_ResultReuseNeedsTakenResponse :
    (∀ sp ∈ [OperandSpace.a, .b],
      let s := { pending (.reuseOut sp) with out := [(0, 7#8)], outReady := some 1, received := [0#32], responses := [1#32] }
      s.script = [.reuseOut sp] ∧ s.outReady = some 1 ∧ 1 ≤ s.received.length ∧ s.phase = .idle) ∧
    (let s := { pending (.reuseOut .c) with outReady := some 2, received := [0#32], responses := [0#32] };
      s.script = [.reuseOut .c] ∧ s.outReady = some 2 ∧ s.received.length < 2) ∧
    (pending (.reuseOut .b)).outReady = none := by decide

/-- The record is met before the OK is taken and after, and a reuse that goes on has it taken. -/
theorem witness_ReuseFollowsReceivedOk :
    (let s := { pending .await with outReady := some 2, received := [1#32], responses := [0#32, 3#32] };
      ∃ t, ReadyRecordTrue s ∧ step s = .next t ∧ t.received = [1#32, 0#32]) ∧
    (let s := { pending (.reuseOut .b) with outReady := some 2, received := [1#32, 0#32], responses := [3#32] };
      ∃ t, ReadyRecordTrue s ∧ s.script = [.reuseOut .b] ∧ step s = .next t) := by
  refine ⟨⟨_, ?_, rfl, rfl⟩, ⟨_, ?_, rfl, rfl⟩⟩ <;>
    (intro n h; obtain rfl : 2 = n := Option.some.inj h; decide)

theorem witness_AwaitTakesOldestResponse :
    (let s := { pending .await with responses := [0#32, 5#32] }; s.script = [.await] ∧ s.responses = [0#32, 5#32]) ∧
    (pending .await).responses = [] := by decide

/-- Reset asserted while a command runs, held, and released. -/
theorem witness_ResetAbandonsCommand :
    (let s := { during (.unp8 ⟨0, 1, 0, 0⟩) 0 [] [5] [] [] [] [] with script := [.assertReset] };
      s.script = [.assertReset] ∧ s.phase = .run) ∧
    (let s := { State.reset with rst := true }; s.script = [] ∧ s.rst = true) ∧
    (pending .releaseReset).script = [.releaseReset] := by decide

end Sys2Proof.Tests
end

section
/-! SUPPORT. Proofs of the family `10_state`: what one transition of a command leaves as it was, how an idle core takes a
descriptor, what each move of the HOST does, the machine's invariant over every step, and that a command's outcome depends
on its descriptor and operands alone. -/

namespace Sys2Proof.Machine

/-! ## What one transition of a command leaves as it was -/

/-- The frame of `exec i` from `s` to `t`, whichever of the five transitions it was. -/
structure ExecFrame (i : Instr) (s t : State) : Prop where
  spaceA : t.spaceA = s.spaceA
  spaceB : t.spaceB = s.spaceB
  spaceC : t.spaceC = s.spaceC
  commands : t.commands = s.commands
  rst : t.rst = s.rst
  script : t.script = s.script
  received : t.received = s.received
  latch : s.phase = .run → t.latch = s.latch
  smp : i.writesOut = true → t.smp = s.smp
  out : i.writesOut = false → t.out = s.out
  outReady : i.writesOut = false → t.outReady = s.outReady
  left : i.usesLeft = false → t.left = s.left
  idle : t.phase = .idle → t.latch = s.latch ∧ t.idx = s.idx ∧ t.out = s.out ∧ t.smp = s.smp ∧ t.left = s.left

theorem ExecFrame.refl (i : Instr) (s : State) : ExecFrame i s s := by
  constructor <;> simp

theorem execFrame_raiseError (i : Instr) (k : ErrorKind) (s : State) : ExecFrame i s (raiseError k s) := by
  constructor <;> simp

theorem execFrame_start (i : Instr) {s : State} (hp : s.phase = .idle) : ExecFrame i s (i.start s) := by
  constructor <;> simp +contextual [hp, start_out, start_smp, start_outReady, start_left]

theorem execFrame_finish (i : Instr) (s : State) : ExecFrame i s (i.finish s) := by
  rw [finish_eq]
  constructor <;> simp +contextual

theorem execFrame_byteStep {i : Instr} {s t : State} (hp : s.phase = .run) (h : i.byteStep s = .next t) :
    ExecFrame i s t := by
  obtain ⟨hf, -⟩ := byteStep_frame h
  exact
    { spaceA := hf.spaceA, spaceB := hf.spaceB, spaceC := hf.spaceC, commands := hf.commands, rst := hf.rst
      script := hf.script, received := hf.received, latch := fun _ => hf.latch, smp := hf.smp, out := hf.out
      outReady := fun _ => hf.outReady, left := hf.left
      idle := fun ht => by rw [hf.phase, hp] at ht; cases ht }

theorem exec_frame {i : Instr} {s t : State} (h : exec i s = .next t) : ExecFrame i s t := by
  rcases exec_next_cases h with ⟨k, -, -, rfl⟩ | ⟨hp, -, rfl⟩ | ⟨hp, -, -, h⟩ | ⟨-, -, -, rfl⟩ | ⟨-, -, rfl⟩
  · exact execFrame_raiseError i k s
  · exact execFrame_start i hp
  · exact execFrame_byteStep hp h
  · exact execFrame_finish i s
  · exact .refl i t

/-- A transition from RUN to RUN is a byte step, or the command is held behind another one (log 11). -/
theorem exec_run_run {i : Instr} {s t : State} (h : exec i s = .next t) (hs : s.phase = .run) (ht : t.phase = .run) :
    i.byteStep s = .next t ∨ t = s := by
  rcases exec_next_cases h with ⟨k, hp, -, -⟩ | ⟨hp, -, -⟩ | ⟨-, -, -, h⟩ | ⟨-, -, -, rfl⟩ | ⟨-, -, rfl⟩
  · rw [hs] at hp; cases hp
  · rw [hs] at hp; cases hp
  · exact .inl h
  · rw [finish_eq] at ht; cases ht
  · exact .inr rfl

/-- A byte step of an UNF or HLP command writes OUT at `i` alone, and `left` at `i mod bpp` alone. -/
theorem byteStep_out_elsewhere {i : Instr} {s t : State} (ho : i.writesOut = true) (h : i.byteStep s = .next t) :
    (∀ k, k ≠ s.idx → Memory.read t.out k = Memory.read s.out k) ∧
      ∀ r, r ≠ strideIndex s → t.left[r]? = s.left[r]? := by
  obtain ⟨y, rfl⟩ := byteStep_out_next ho h
  refine ⟨fun k hk => ?_, fun r hr => ?_⟩
  · rw [emitByte_out, rollLeft_out, rollLeft_idx, memory_read_write_other _ _ hk]
  · rw [emitByte_left, rollLeft_left]
    split_ifs
    · exact List.getElem?_set_ne hr.symm
    · rfl

/-- A byte step of an UNP command writes SMP at the samples it produces alone. -/
theorem byteStep_smp_elsewhere {i : Instr} {s t : State} (ho : i.writesOut = false) (h : i.byteStep s = .next t) {k : Nat}
    (hk : ¬ (i.resultCount s.idx ≤ k ∧ k < i.resultCount s.idx + i.resultCount i.indexStep)) :
    Memory.read t.smp k = Memory.read s.smp k := by
  obtain ⟨xs, hlen, rfl⟩ := byteStep_smp_next ho h
  rw [emitSamples_smp, memory_read_writeFrom, hlen, if_neg hk]

/-! ## Acceptance in IDLE, and the running command -/

/-- An idle core that is left to itself takes the oldest descriptor, and ends in the error of its first failing check
(60_exceptions R196, R197) or starts the command. -/
theorem step_idle_cases {s : State} {d : Descriptor} {rest : List Descriptor} (hq : Quiet s) (hp : s.phase = .idle)
    (hc : s.commands = d :: rest) :
    (∃ k, d.firstError = some k ∧ step s = .next (raiseError k { s with commands := rest })) ∨
    (∃ i, decode d = .ok i ∧ d.firstError = none ∧ step s = .next (i.start { s with commands := rest })) := by
  have hfe := decode_firstError d
  cases hd : decode d with
  | error k =>
    rw [hd] at hfe
    exact .inl ⟨k, hfe, by rw [step_quiet hq.1, coreStep_reject hq.2 hp hc hd]⟩
  | ok i =>
    have hl : i.latch = d.latch := (decodeLatch_ok (decode_ok hd).2).1
    have hstep : step s = exec i { s with commands := rest } := by
      rw [step_quiet hq.1, coreStep_accept hq.2 hp hc hd]
    simp only [hd, ← hl] at hfe
    cases hk : i.check i.latch with
    | some k =>
      rw [exec_idle_error (s := { s with commands := rest }) hp hk] at hstep
      exact .inl ⟨k, hfe.trans hk, hstep⟩
    | none =>
      rw [exec_idle_start (s := { s with commands := rest }) hp hk] at hstep
      exact .inr ⟨i, rfl, hfe.trans hk, hstep⟩

/-- An idle core with nothing presented stays as it is (log 8). -/
theorem step_idle_empty {s : State} (hq : Quiet s) (hp : s.phase = .idle) (hc : s.commands = []) : step s = .next s := by
  rw [step_quiet hq.1, coreStep_idle hq.2 hp, acceptStep, hc]

/-- A running core that is left to itself takes a byte step of the latched command, or completes it at `i = LEN_A`. -/
theorem step_run_cases {s t : State} (hq : Quiet s) (hp : s.phase = .run) (h : step s = .next t) :
    ∃ i, decodeLatch s.latch = .ok i ∧
      (s.idx < s.latch.lenA.toNat ∧ i.byteStep s = .next t ∨ s.idx = s.latch.lenA.toNat ∧ t = i.finish s) := by
  have hidle : s.phase ≠ .idle := by rw [hp]; decide
  rw [step_quiet hq.1] at h
  rcases coreStep_next_cases h with ⟨hr, -⟩ | ⟨-, hi, -⟩ | ⟨d, rest, k, -, hi, -⟩ | ⟨d, rest, i, -, hi, -⟩ | ⟨i, -, -, hd, he⟩
  · rw [hq.2] at hr; cases hr
  · exact absurd hi hidle
  · exact absurd hi hidle
  · exact absurd hi hidle
  · refine ⟨i, hd, ?_⟩
    rcases exec_next_cases he with ⟨k, hi, -⟩ | ⟨hi, -⟩ | ⟨-, -, hlt, hb⟩ | ⟨-, -, heq, hf⟩ | ⟨-, hl, -⟩
    · exact absurd hi hidle
    · exact absurd hi hidle
    · exact .inl ⟨hlt, hb⟩
    · exact .inr ⟨heq, hf⟩
    · exact absurd (decodeLatch_ok hd).1.symm hl

/-- What a table word is read as is what its descriptor decodes to. -/
theorem decodeTableWord_some {nbits w : Nat} {i : Instr} :
    decodeTableWord nbits w = some i ↔ decode (Descriptor.ofBits nbits w) = .ok i := by
  unfold decodeTableWord
  cases decode (Descriptor.ofBits nbits w) <;> simp

/-! ## The moves of the HOST -/

theorem step_hostAct {s : State} {act : HostAction} {rest : List HostAction} (h : s.script = act :: rest) :
    step s = hostAct act rest s := by
  simp only [step, systemStep, h]

theorem readResult_some {w : Nat} {m : Memory w} {k : Nat} {x : BitVec w} (h : Memory.read m k = some x) (s : State) :
    readResult m k s = .next s := by
  simp only [readResult, h]

theorem readResult_none {w : Nat} {m : Memory w} {k : Nat} (h : Memory.read m k = none) (s : State) :
    readResult m k s = .fault (.unwrittenResult k) := by
  simp only [readResult, h]

/-- A read of a result that goes on changes nothing. -/
theorem readResult_next {w : Nat} {m : Memory w} {k : Nat} {s t : State} (h : readResult m k s = .next t) : t = s := by
  cases hr : Memory.read m k with
  | some x => rw [readResult_some hr] at h; exact (Host.Outcome.next.inj h).symm
  | none => rw [readResult_none hr] at h; cases h

/-- A change of an operand space that goes on is of a space no running command uses (20_memory R64). -/
theorem changeOperand_next {sp : OperandSpace} {m : List Host.Cell} {s t : State} (h : changeOperand sp m s = .next t) :
    ¬ (s.phase = .run ∧ usesSpace s.latch sp = true) ∧ t = setOperand sp m s := by
  unfold changeOperand at h
  split_ifs at h with hu
  exact ⟨hu, (Host.Outcome.next.inj h).symm⟩

theorem reuseResult_next {sp : OperandSpace} {s t : State} (h : reuseResult sp s = .next t) :
    changeOperand sp s.out s = .next t := by
  unfold reuseResult at h
  split_ifs at h
  exact h

theorem awaitResponse_cons {s : State} {r : Word} {more : List Word} (rest : List HostAction)
    (h : s.responses = r :: more) :
    awaitResponse rest s = .next { s with script := rest, responses := more, received := s.received ++ [r] } := by
  simp only [awaitResponse, h]

theorem awaitResponse_nil {s : State} (rest : List HostAction) (h : s.responses = []) :
    awaitResponse rest s = coreStep s := by
  simp only [awaitResponse, h]

/-! ## The spaces stay canonical -/

theorem canonical_start {i : Instr} {s : State} (h : SpacesCanonical s) : SpacesCanonical (i.start s) := by
  obtain ⟨hA, hB, hC, hO, hS⟩ := h
  refine ⟨by simpa using hA, by simpa using hB, by simpa using hC, ?_, ?_⟩
  · rw [start_out]; split_ifs
    · rfl
    · exact hO
  · rw [start_smp]; split_ifs
    · exact hS
    · rfl

theorem canonical_byteStep {i : Instr} {s t : State} (h : SpacesCanonical s) (hb : i.byteStep s = .next t) :
    SpacesCanonical t := by
  obtain ⟨hA, hB, hC, hO, hS⟩ := h
  cases ho : i.writesOut with
  | true =>
    obtain ⟨y, rfl⟩ := byteStep_out_next ho hb
    exact ⟨by simpa using hA, by simpa using hB, by simpa using hC, by simpa using memory_wf_write s.idx y hO,
      by simpa using hS⟩
  | false =>
    obtain ⟨xs, -, rfl⟩ := byteStep_smp_next ho hb
    exact ⟨hA, hB, hC, hO, memory_wf_writeFrom xs _ hS⟩

theorem canonical_finish {i : Instr} {s : State} (h : SpacesCanonical s) : SpacesCanonical (i.finish s) := by
  rw [finish_eq]; exact h

theorem canonical_setOperand {sp : OperandSpace} {m : List Host.Cell} {s : State} (hm : Memory.wf m = true)
    (h : SpacesCanonical s) : SpacesCanonical (setOperand sp m s) := by
  obtain ⟨hA, hB, hC, hO, hS⟩ := h
  cases sp with
  | a => exact ⟨hm, hB, hC, hO, hS⟩
  | b => exact ⟨hA, hm, hC, hO, hS⟩
  | c => exact ⟨hA, hB, hm, hO, hS⟩

/-! ## The invariant over every step -/

/-- A state in IDLE meets the invariant as soon as its spaces are canonical. -/
theorem inv_of_idle {s : State} (hc : SpacesCanonical s) (hp : s.phase = .idle) : Inv s :=
  ⟨hc, fun h => by rw [hp] at h; cases h⟩

/-- The invariant does not depend on the channels, the reset input or the HOST's side. -/
theorem Inv.elsewhere {s : State} (h : Inv s) {responses : List Word} {commands : List Descriptor} {rst : Bool}
    {script : List HostAction} {received : List Word} :
    Inv { s with responses := responses, commands := commands, rst := rst, script := script, received := received } where
  canonical := h.canonical
  running hp := by
    obtain ⟨i, hR⟩ := h.running hp
    exact ⟨i, running_congr hR rfl rfl rfl rfl rfl rfl rfl (fun _ => rfl) (fun _ => rfl)⟩

/-- The command that runs is the one the latch holds. -/
theorem Inv.running_latched {i : Instr} {s : State} (h : Inv s) (hw : i.WellFormed) (hp : s.phase = .run)
    (hl : s.latch = i.latch) : Running i s := by
  obtain ⟨j, hR⟩ := h.running hp
  have hj : decodeLatch s.latch = .ok i := by rw [hl]; exact decodeLatch_latch hw
  rw [hR.holds] at hj
  exact Except.ok.inj hj ▸ hR

theorem exec_keeps_inv {i : Instr} {s t : State} (hI : Inv s) (hw : i.WellFormed) (h : exec i s = .next t) : Inv t := by
  rcases exec_next_cases h with ⟨k, -, -, rfl⟩ | ⟨-, hc, rfl⟩ | ⟨hp, hl, hlt, hb⟩ | ⟨-, -, -, rfl⟩ | ⟨-, -, rfl⟩
  · exact hI.elsewhere
  · exact ⟨canonical_start hI.canonical, fun _ => ⟨i, running_start hw hc⟩⟩
  · exact ⟨canonical_byteStep hI.canonical hb, fun _ => ⟨i, running_byteStep (hI.running_latched hw hp hl) hlt hb⟩⟩
  · exact inv_of_idle (canonical_finish hI.canonical) (by rw [finish_eq])
  · exact hI

theorem coreStep_keeps_inv {s t : State} (hI : Inv s) (h : coreStep s = .next t) : Inv t := by
  rcases coreStep_next_cases h with ⟨-, rfl⟩ | ⟨-, -, -, rfl⟩ | ⟨d, rest, k, -, -, -, -, rfl⟩ |
    ⟨d, rest, i, -, -, -, hd, he⟩ | ⟨i, -, -, hd, he⟩
  · exact hI
  · exact hI
  · exact hI.elsewhere
  · have hI' : Inv { s with commands := rest } := hI.elsewhere
    exact exec_keeps_inv hI' (decodeLatch_ok (decode_ok hd).2).2 he
  · exact exec_keeps_inv hI (decodeLatch_ok hd).2 he

/-- The HOST's change of an operand keeps the invariant, because a running command does not use the space. -/
theorem changeOperand_keeps_inv {sp : OperandSpace} {m : List Host.Cell} {s t : State} (hI : Inv s)
    (hm : Memory.wf m = true) (h : changeOperand sp m s = .next t) : Inv t := by
  obtain ⟨hfree, rfl⟩ := changeOperand_next h
  refine ⟨canonical_setOperand hm hI.canonical, fun hp => ?_⟩
  rw [setOperand_phase] at hp
  obtain ⟨i, hR⟩ := hI.running hp
  have hunused : usesSpace s.latch sp ≠ true := fun hu => hfree ⟨hp, hu⟩
  refine ⟨i, ?_⟩
  cases sp with
  | a => exact absurd rfl hunused
  | b => exact running_congr hR rfl rfl rfl rfl rfl rfl rfl (fun hu => absurd hu hunused) (fun _ => rfl)
  | c => exact running_congr hR rfl rfl rfl rfl rfl rfl rfl (fun _ => rfl) (fun hu => absurd hu hunused)

theorem hostAct_keeps_inv {act : HostAction} {rest : List HostAction} {s t : State} (hI : Inv s)
    (h : hostAct act rest s = .next t) : Inv t := by
  have hI' : Inv { s with script := rest } := hI.elsewhere
  cases act with
  | present d =>
    cases h
    exact hI.elsewhere
  | changeWords d => exact changeWords_next h ▸ hI'
  | supply sp bytes => exact changeOperand_keeps_inv hI' (memory_wf_ofList bytes) h
  | reuseOut sp =>
    obtain ⟨-, -, -, hout, -⟩ := hI.canonical
    exact changeOperand_keeps_inv hI' hout (reuseResult_next h)
  | await =>
    cases hr : s.responses with
    | nil =>
      have hcore : coreStep s = .next t := (awaitResponse_nil rest hr).symm.trans h
      exact coreStep_keeps_inv hI hcore
    | cons r more =>
      cases (awaitResponse_cons rest hr).symm.trans h
      exact hI.elsewhere
  | readOut k => exact readResult_next h ▸ hI'
  | readSmp k => exact readResult_next h ▸ hI'
  | assertReset =>
    cases h
    exact inv_of_idle hI.canonical rfl
  | releaseReset =>
    cases h
    exact hI.elsewhere
  | yield => exact coreStep_keeps_inv hI' h

/-- Settles O43: a pending action of the HOST keeps the invariant, and so does a step of the core. -/
theorem stepKeepsInvariant : Obligations.StepKeepsInvariant := by
  intro s t hI h
  cases hs : s.script with
  | nil => exact coreStep_keeps_inv hI (step_quiet hs ▸ h)
  | cons act rest => exact hostAct_keeps_inv hI (step_hostAct hs ▸ h)

/-! ## Frames -/

/-- Settles O16, from the frame of a transition and what a byte step writes. -/
theorem outCommandsFrame : Obligations.OutCommandsFrame := by
  intro i s t ho h
  have hf := exec_frame h
  refine ⟨⟨hf.spaceA, hf.spaceB, hf.spaceC, hf.smp ho, hf.commands, hf.rst, hf.script, hf.received⟩, hf.latch, hf.left,
    fun hs ht => ?_, fun ht => ?_⟩
  · rcases exec_run_run h hs ht with hb | rfl
    · exact ⟨(byteStep_frame hb).1.responses, byteStep_out_elsewhere ho hb⟩
    · exact ⟨rfl, fun _ _ => rfl, fun _ _ => rfl⟩
  · obtain ⟨hl, hi, hout, -, hleft⟩ := hf.idle ht
    exact ⟨hl, hi, hout, hleft⟩

/-- Settles O17, from the frame of a transition and what a byte step writes. -/
theorem unpackCommandsFrame : Obligations.UnpackCommandsFrame := by
  intro i s t ho h
  have hf := exec_frame h
  have hu : i.usesLeft = false := by
    by_contra hu
    rw [usesLeft_writesOut (by simpa using hu)] at ho
    cases ho
  refine ⟨⟨hf.spaceA, hf.spaceB, hf.spaceC, hf.out ho, hf.outReady ho, hf.left hu, hf.commands, hf.rst, hf.script,
    hf.received⟩, hf.latch, fun hs ht => ?_, fun ht => ?_⟩
  · rcases exec_run_run h hs ht with hb | rfl
    · exact ⟨(byteStep_frame hb).1.responses, fun k hk => byteStep_smp_elsewhere ho hb hk⟩
    · exact ⟨rfl, fun _ _ => rfl⟩
  · obtain ⟨hl, hi, -, hsmp, -⟩ := hf.idle ht
    exact ⟨hl, hi, hsmp⟩

/-- Settles O48: every step of the core is a transition of a command, an error response or nothing. -/
theorem coreNeverWritesOperands : Obligations.CoreNeverWritesOperands := by
  intro s t hs h
  rw [step_quiet hs] at h
  rcases coreStep_next_cases h with ⟨-, rfl⟩ | ⟨-, -, -, rfl⟩ | ⟨d, rest, k, -, -, -, -, rfl⟩ |
    ⟨d, rest, i, -, -, -, -, he⟩ | ⟨i, -, -, -, he⟩
  · exact ⟨rfl, rfl, rfl⟩
  · exact ⟨rfl, rfl, rfl⟩
  · exact ⟨rfl, rfl, rfl⟩
  · have hf := exec_frame he
    exact ⟨hf.spaceA, hf.spaceB, hf.spaceC⟩
  · have hf := exec_frame he
    exact ⟨hf.spaceA, hf.spaceB, hf.spaceC⟩

/-! ## The outcome depends on the descriptor and the operands alone -/

/-- Below n the two spaces list the same elements. -/
abbrev AgreeBelow {w : Nat} (n : Nat) (m m' : Memory w) : Prop := ∀ k < n, Memory.read m' k = Memory.read m k

theorem statusWord_error_inj {k k' : ErrorKind} (h : statusWord (.error k) = statusWord (.error k')) : k = k' := by
  revert h
  cases k <;> cases k' <;> decide

/-- A presented command fails with the error its own check finds, and with no other. -/
theorem failsWith_iff_check {i : Instr} {s : State} {k : ErrorKind} (hw : i.WellFormed) (hP : Presented i s) :
    FailsWith s k ↔ i.check i.latch = some k := by
  refine ⟨fun h => ?_, failsWith_of_check hw hP⟩
  cases hc : i.check i.latch with
  | none =>
    have hphase := congrArg State.phase
      (Host.Outcome.next.inj ((step_presented_valid (valid_iff.2 ⟨hw, hc⟩) hP).symm.trans h))
    rw [start_phase, hP.2.1] at hphase
    cases hphase
  | some k' =>
    have hresp := congrArg State.responses
      (Host.Outcome.next.inj ((failsWith_of_check hw hP hc).symm.trans h))
    rw [statusWord_error_inj (List.cons.inj (List.append_cancel_left hresp)).1]

/-- A valid command with operand B has `LEN_B = LEN_A`. -/
theorem valid_lenB {i : Instr} (hv : i.Valid) (ho : i.opcField ≠ 2#4) : i.operands.lenB = i.operands.lenA := by
  obtain ⟨hw, hc⟩ := valid_iff.1 hv
  have hlen : i.latch.lenB = i.latch.lenA := by
    cases i with
    | unfNone | unfSub | unfUp | unfAvg | unfPaeth => exact (validateUnfilter_none hc).2.1
    | unp1 | unp2 | unp4 | unp8 | unp16 => exact absurd rfl ho
    | addb | subb | avgb => exact validateHelper_none hc
    | paethb => exact (validateHelper3_none hc).1
  rw [← Instr.latch_operands hw]
  exact congrArg BitVec.toNat hlen

/-- A valid PAETHB has `LEN_C = LEN_A`. -/
theorem valid_lenC {i : Instr} (hv : i.Valid) (hs : i.opcField = 3#4 ∧ i.selField = 3#8) :
    i.operands.lenC = i.operands.lenA := by
  obtain ⟨hw, hc⟩ := valid_iff.1 hv
  have hlen : i.latch.lenC = i.latch.lenA := by
    cases i with
    | paethb => exact (validateHelper3_none hc).2
    | _ => simp [Instr.opcField, Instr.selField] at hs
  rw [← Instr.latch_operands hw]
  exact congrArg BitVec.toNat hlen

/-- The spaces command i uses list the same elements in both states, below the operands' common length. -/
structure OperandsAgree (i : Instr) (s s' : State) : Prop where
  a : AgreeBelow i.operands.lenA s.spaceA s'.spaceA
  b : i.opcField ≠ 2#4 → AgreeBelow i.operands.lenA s.spaceB s'.spaceB
  c : i.opcField = 3#4 ∧ i.selField = 3#8 → AgreeBelow i.operands.lenA s.spaceC s'.spaceC

theorem supplied_of_agree {m m' : List Host.Cell} {n : Nat} (h : AgreeBelow n m m') (hs : Supplied m n) :
    Supplied m' n := fun k hk => by rw [h k hk]; exact hs k hk

theorem OperandsAgree.supplied {i : Instr} {s s' : State} (h : OperandsAgree i s s') (hs : OperandsSupplied i s) :
    OperandsSupplied i s' := by
  cases i with
  | unfNone | unfSub | unp1 | unp2 | unp4 | unp8 | unp16 => exact supplied_of_agree h.a hs
  | unfUp | unfAvg | unfPaeth | addb | subb | avgb =>
    obtain ⟨hA, hB⟩ := hs
    exact ⟨supplied_of_agree h.a hA, supplied_of_agree (h.b (by simp [Instr.opcField])) hB⟩
  | paethb =>
    obtain ⟨hA, hB, hC⟩ := hs
    exact ⟨supplied_of_agree h.a hA, supplied_of_agree (h.b (by simp [Instr.opcField])) hB,
      supplied_of_agree (h.c ⟨rfl, rfl⟩) hC⟩

/-- The closed form of an element of OUT is a function of the operand elements below LEN_A and of OUT below it. -/
theorem OperandsAgree.outElement_eq {i : Instr} {s s' : State} {k : Nat} (h : OperandsAgree i s s')
    (hb : i.usesLeft = true → 0 < i.operands.bpp) (ho : AgreeBelow k s.out s'.out) (hk : k < i.operands.lenA) :
    outElement i s' k = outElement i s k := by
  have hA : rowByte s'.spaceA k = rowByte s.spaceA k := rowByte_congr h.a (by omega)
  have hB : i.opcField ≠ 2#4 → ∀ j : Int, j ≤ k → rowByte s'.spaceB j = rowByte s.spaceB j := fun hu j hj =>
    rowByte_congr (h.b hu) (by omega)
  have hC : i.opcField = 3#4 ∧ i.selField = 3#8 → rowByte s'.spaceC k = rowByte s.spaceC k := fun hu =>
    rowByte_congr (h.c hu) (by omega)
  have hO : i.usesLeft = true → rowByte s'.out (k - i.operands.bpp) = rowByte s.out (k - i.operands.bpp) := fun hu =>
    rowByte_congr ho (by have := hb hu; omega)
  cases i with
  | unfNone o => simp only [outElement, hA]
  | unfSub o => simp only [outElement, hA, show rowByte s'.out (k - o.bpp) = rowByte s.out (k - o.bpp) from hO rfl]
  | unfUp o | addb o | subb o | avgb o =>
    simp only [outElement, hA, hB (by simp [Instr.opcField]) k (Int.le_refl _)]
  | unfAvg o =>
    simp only [outElement, hA, show rowByte s'.out (k - o.bpp) = rowByte s.out (k - o.bpp) from hO rfl,
      hB (by simp [Instr.opcField]) k (Int.le_refl _)]
  | unfPaeth o =>
    have hpos : 0 < o.bpp := hb rfl
    simp only [outElement, hA, show rowByte s'.out (k - o.bpp) = rowByte s.out (k - o.bpp) from hO rfl,
      hB (by simp [Instr.opcField]) k (Int.le_refl _), hB (by simp [Instr.opcField]) (k - o.bpp) (by omega)]
  | paethb o => simp only [outElement, hA, hB (by simp [Instr.opcField]) k (Int.le_refl _), hC ⟨rfl, rfl⟩]
  | unp1 | unp2 | unp4 | unp8 | unp16 => rfl

theorem packedSample_agree {d n k : Nat} {s s' : State} (h : AgreeBelow n s.spaceA s'.spaceA) (hk : k < n * (8 / d)) :
    packedSample d s' k = packedSample d s k := by
  have hlt : k / (8 / d) < n := Nat.div_lt_of_lt_mul (by rwa [Nat.mul_comm])
  rw [packedSample, packedSample, rowByte_congr h (by omega)]

/-- The closed form of a sample is a function of the elements of A below LEN_A. -/
theorem OperandsAgree.sampleElement_eq {i : Instr} {s s' : State} {k : Nat} (h : OperandsAgree i s s')
    (ho : i.writesOut = false) (hk : k < i.resultCount i.operands.lenA) : sampleElement i s' k = sampleElement i s k := by
  cases i with
  | unp1 | unp2 | unp4 => exact packedSample_agree h.a hk
  | unp8 => exact packedSample_agree h.a (by simpa [Instr.resultCount] using hk)
  | unp16 o =>
    have hk : k < o.lenA / 2 := hk
    have hlo : rowByte s'.spaceA ((2 * k : Nat) : Int) = rowByte s.spaceA ((2 * k : Nat) : Int) :=
      rowByte_congr (n := o.lenA) h.a (by omega)
    have hhi : rowByte s'.spaceA ((2 * k + 1 : Nat) : Int) = rowByte s.spaceA ((2 * k + 1 : Nat) : Int) :=
      rowByte_congr (n := o.lenA) h.a (by omega)
    simp only [sampleElement, hlo, hhi]
  | unfNone | unfSub | unfUp | unfAvg | unfPaeth | addb | subb | avgb | paethb => cases ho

theorem valid_bpp_pos {i : Instr} (hv : i.Valid) (hu : i.usesLeft = true) : 0 < i.operands.bpp :=
  ((running_start (s := State.reset) hv.1 (valid_iff.1 hv).2).usesLeft_facts hu).1

theorem OperandsAgree.of_completed {i : Instr} {s s' t t' : State} (h : OperandsAgree i s s') (hC : Completed i s t)
    (hC' : Completed i s' t') : OperandsAgree i t t' := by
  obtain ⟨ha, hb, hc, -⟩ := hC.elsewhere
  obtain ⟨ha', hb', hc', -⟩ := hC'.elsewhere
  exact ⟨by rw [ha, ha']; exact h.a, by rw [hb, hb']; exact h.b, by rw [hc, hc']; exact h.c⟩

/-- Two completed runs over operands that agree have the same OUT: each element is the closed form over those below it. -/
theorem OperandsAgree.out_eq {i : Instr} {s s' t t' : State} (h : OperandsAgree i s s') (hC : Completed i s t)
    (hC' : Completed i s' t') (ho : i.writesOut = true) : t'.out = t.out := by
  obtain ⟨hpre, hval⟩ := hC.out ho
  obtain ⟨hpre', hval'⟩ := hC'.out ho
  have hagree := h.of_completed hC hC'
  refine writtenPrefix_ext hpre' hpre fun k => ?_
  induction k using Nat.strong_induction_on with
  | _ k ih =>
    intro hk
    rw [hval' k hk, hval k hk,
      hagree.outElement_eq (valid_bpp_pos hC.valid) (fun j hj => ih j hj (Nat.lt_trans hj hk)) hk]

theorem OperandsAgree.smp_eq {i : Instr} {s s' t t' : State} (h : OperandsAgree i s s') (hC : Completed i s t)
    (hC' : Completed i s' t') (ho : i.writesOut = false) : t'.smp = t.smp := by
  obtain ⟨hpre, hval⟩ := hC.smp ho
  obtain ⟨hpre', hval'⟩ := hC'.smp ho
  refine writtenPrefix_ext hpre' hpre fun k hk => ?_
  rw [hval' k hk, hval k hk, (h.of_completed hC hC').sampleElement_eq ho hk]

/-- Settles O40: an error is what the descriptor's own check finds, and the closed forms read only the operands below
their lengths and the part of OUT they wrote themselves. -/
theorem outcomeIgnoresHistory : Obligations.OutcomeIgnoresHistory := by
  intro i s s' hw hP hP' hA hB hC
  refine ⟨fun k hk => (failsWith_iff_check hw hP').2 ((failsWith_iff_check hw hP).1 hk), fun t ht => ?_⟩
  have hcomp := completed_of_completes hw ht
  have hv := hcomp.valid
  have hagree : OperandsAgree i s s' :=
    ⟨hA, fun hu => valid_lenB hv hu ▸ hB, fun hu => valid_lenC hv hu ▸ hC⟩
  obtain ⟨t', ht', hcomp'⟩ := completes_of_supplied hv hP' (hagree.supplied (supplied_of_completes hw ht))
  exact ⟨t', ht', hagree.out_eq hcomp hcomp', hagree.smp_eq hcomp hcomp'⟩

/-! ## The predictor entry, PHASE, acceptance after reset -/

/-- Settles O47: `Running` gives the entry as the byte of OUT bpp back, by the arithmetic of the stride groups. -/
theorem leftEntryIsOutBppBack : Obligations.LeftEntryIsOutBppBack := by
  intro i s hR hu _
  have hleft := readLeft_ok.1 (hR.readLeft_eq hu)
  rwa [← hR.bpp_eq] at hleft

/-- Settles O50: in IDLE by the two outcomes of acceptance, in RUN by the byte step and the completion. -/
theorem phaseChangesOnlyAsRuled : Obligations.PhaseChangesOnlyAsRuled := by
  intro s t _ hq h
  refine ⟨fun hp => ?_, fun hp => ?_⟩
  · cases hc : s.commands with
    | nil =>
      cases (step_idle_empty hq hp hc).symm.trans h
      simp [hp]
    | cons d rest =>
      rcases step_idle_cases hq hp hc with ⟨k, hk, hs⟩ | ⟨i, -, hk, hs⟩
      · cases hs.symm.trans h
        exact ⟨by simp [hp, hk], .inr ⟨k, hp, rfl⟩⟩
      · cases hs.symm.trans h
        exact ⟨by simp [hk], .inl (start_responses i _)⟩
  · obtain ⟨i, -, ⟨hlt, hb⟩ | ⟨heq, rfl⟩⟩ := step_run_cases hq hp h
    · obtain ⟨hf, -⟩ := byteStep_frame hb
      have hpt : t.phase = .run := hf.phase.trans hp
      simp [hpt, hf.responses, hlt.ne]
    · simp [finish_eq, heq]

/-- Settles O5: the core's step is `exec` of what it decodes, and `withFetchWord` places the descriptor first. -/
theorem stepRunsDecodedInstruction : Obligations.StepRunsDecodedInstruction := by
  refine ⟨fun s d rest i hq hp hc hd => ?_, fun s d rest k hq hp hc hd => ?_, fun s i hq hp hd => ?_,
    fun s nbits w i hd => ?_⟩
  · rw [step_quiet hq.1, coreStep_accept hq.2 hp hc hd]
  · rw [FailsWith, step_quiet hq.1, coreStep_reject hq.2 hp hc hd, hc]; rfl
  · rw [step_quiet hq.1, coreStep_latched hq.2 hp hd]
  · have hd' : decode (Descriptor.ofBits nbits w) = .ok i := decodeTableWord_some.1 hd
    rw [State.withFetchWord, step_quiet (placeCommand_script _ _),
      coreStep_accept (placeCommand_rst _ _) (placeCommand_phase _ _) (placeCommand_commands _ _) hd']
    rfl

/-- Settles O42: nothing is listed and no command is in progress. -/
theorem invariantHoldsAtReset : Obligations.InvariantHoldsAtReset :=
  inv_of_idle ⟨rfl, rfl, rfl, rfl, rfl⟩ rfl

/-- Settles O44, by the two outcomes of acceptance. -/
theorem resetAcceptsFirstCommand : Obligations.ResetAcceptsFirstCommand := by
  refine ⟨rfl, rfl, fun d => ?_⟩
  have hcases := step_idle_cases (s := { State.reset with commands := [d] }) (d := d) (rest := []) ⟨rfl, rfl⟩ rfl rfl
  rcases hcases with ⟨k, hk, hs⟩ | ⟨i, -, hk, hs⟩
  · exact ⟨_, hs, rfl, by simp [hk, State.reset]⟩
  · exact ⟨_, hs, by simp, by simp [hk]⟩

/-! ## The HOST reads results and takes responses -/

/-- Settles O55, by the read of a listed and of an unlisted element. -/
theorem unwrittenResultReadFaults : Obligations.UnwrittenResultReadFaults := by
  intro s k rest
  refine ⟨fun h hr => ?_, fun h hr => ?_, fun x h hr => ?_, fun x h hr => ?_⟩
  · rw [step_hostAct h]; exact readResult_none hr _
  · rw [step_hostAct h]; exact readResult_none hr _
  · rw [step_hostAct h]; exact readResult_some hr _
  · rw [step_hostAct h]; exact readResult_some hr _

/-- Settles O58, by the waiting HOST's two cases. -/
theorem awaitTakesOldestResponse : Obligations.AwaitTakesOldestResponse := by
  intro s rest h
  refine ⟨fun r more hr => ?_, fun hr => ?_⟩
  · rw [step_hostAct h]; exact awaitResponse_cons rest hr
  · rw [step_hostAct h]; exact awaitResponse_nil rest hr

end Sys2Proof.Machine
end

section
/-! SUPPORT. Proofs of the family `20_memory`: an index space is determined by its elements, a running command only adds to
its result space, and when the HOST may change an operand, the descriptor words, or pass OUT on as an operand. -/

namespace Sys2Proof.Machine

/-! ## An index space is determined by its elements -/

theorem memory_read_head {w : Nat} (k : Nat) (v : BitVec w) (m : Memory w) :
    Memory.read ((k, v) :: m) k = some v := by
  rw [memory_read_cons, if_pos rfl]

theorem risingFrom_le_of_read {w lo k : Nat} {x : BitVec w} {m : Memory w}
    (hm : Memory.risingFrom lo m = true) (h : Memory.read m k = some x) : lo ≤ k := by
  induction m generalizing lo with
  | nil => cases h
  | cons c m ih =>
    obtain ⟨j, v⟩ := c
    simp only [Memory.risingFrom, Bool.and_eq_true, decide_eq_true_eq] at hm
    obtain ⟨hlo, htail⟩ := hm
    rw [memory_read_cons] at h
    split_ifs at h with hk
    · omega
    · have := ih htail h
      omega

/-- Nothing is listed below the first index. -/
theorem risingFrom_read_none {w lo k : Nat} {m : Memory w} (hm : Memory.risingFrom lo m = true) (hk : k < lo) :
    Memory.read m k = none := by
  cases h : Memory.read m k with
  | none => rfl
  | some x =>
    have := risingFrom_le_of_read hm h
    omega

/-- The first indices agree because each is listed in the other space, so neither lies below the other. -/
theorem risingFrom_ext {w lo lo' : Nat} {m m' : Memory w} (hm : Memory.risingFrom lo m = true)
    (hm' : Memory.risingFrom lo' m' = true) (h : ∀ k, Memory.read m k = Memory.read m' k) : m = m' := by
  induction m generalizing lo lo' m' with
  | nil =>
    cases m' with
    | nil => rfl
    | cons c' m' => cases (h c'.1).trans (memory_read_head c'.1 c'.2 m')
  | cons c m ih =>
    cases m' with
    | nil => cases (h c.1).symm.trans (memory_read_head c.1 c.2 m)
    | cons c' m' =>
      obtain ⟨k, v⟩ := c
      obtain ⟨k', v'⟩ := c'
      simp only [Memory.risingFrom, Bool.and_eq_true, decide_eq_true_eq] at hm hm'
      obtain ⟨-, htail⟩ := hm
      obtain ⟨-, htail'⟩ := hm'
      have hle : k ≤ k' := risingFrom_le_of_read (m := (k, v) :: m) (x := v')
        (by simp [Memory.risingFrom, htail]) (by rw [h, memory_read_head])
      have hge : k' ≤ k := risingFrom_le_of_read (m := (k', v') :: m') (x := v)
        (by simp [Memory.risingFrom, htail']) (by rw [← h, memory_read_head])
      obtain rfl : k = k' := by omega
      have hv : v = v' := by simpa [memory_read_head] using h k
      have hrest : m = m' := ih htail htail' fun j => by
        by_cases hj : j = k
        · rw [risingFrom_read_none htail (by omega), risingFrom_read_none htail' (by omega)]
        · simpa [memory_read_cons, hj] using h j
      rw [hv, hrest]

/-- Settles O51: canonical spaces with the same elements have the same first entry, and so on along the list. -/
theorem equalElementsEqualSpaces : Obligations.EqualElementsEqualSpaces :=
  fun _ _ _ hm hm' h => risingFrom_ext hm hm' h

/-! ## A running command only adds to its result space -/

theorem writtenPrefix_lt_of_read {w n k : Nat} {m : Memory w} {x : BitVec w} (hm : WrittenPrefix m n)
    (h : Memory.read m k = some x) : k < n := by
  by_contra hk
  rw [writtenPrefix_read_none hm (by omega)] at h
  cases h

/-- A byte step of an UNF or HLP command keeps every element of OUT, because it writes past the written part. -/
theorem Running.byteStep_keeps_out {i : Instr} {s t : State} (hR : Running i s) (h : i.byteStep s = .next t) {k : Nat}
    {x : Byte} (hk : Memory.read s.out k = some x) : Memory.read t.out k = some x := by
  cases ho : i.writesOut with
  | true =>
    have hlt := writtenPrefix_lt_of_read (hR.outPrefix ho) hk
    rw [resultCount_out ho] at hlt
    rwa [(byteStep_out_elsewhere ho h).1 k hlt.ne]
  | false => rwa [(byteStep_frame h).1.out ho]

/-- A byte step of an UNP command keeps every element of SMP, because it writes past the written part. -/
theorem Running.byteStep_keeps_smp {i : Instr} {s t : State} (hR : Running i s) (h : i.byteStep s = .next t) {k : Nat}
    {x : Sample} (hk : Memory.read s.smp k = some x) : Memory.read t.smp k = some x := by
  cases ho : i.writesOut with
  | true => rwa [(byteStep_frame h).1.smp ho]
  | false =>
    have hlt := writtenPrefix_lt_of_read (hR.smpPrefix ho) hk
    rwa [byteStep_smp_elsewhere ho h (by omega)]

/-- Settles O49: a byte step keeps `Running` and the written elements, and the completion writes no element. -/
theorem resultIsWrittenOnceInOrder : Obligations.ResultIsWrittenOnceInOrder := by
  intro i s t hR hq hp h
  obtain ⟨j, hj, hcases⟩ := step_run_cases hq hp h
  obtain rfl : i = j := Except.ok.inj (hR.holds.symm.trans hj)
  rcases hcases with ⟨hlt, hb⟩ | ⟨-, rfl⟩
  · have hf := (byteStep_frame hb).1
    have hRt := running_byteStep hR hlt hb
    exact ⟨fun _ _ => hR.byteStep_keeps_out hb, fun _ _ => hR.byteStep_keeps_smp hb,
      fun ho => ⟨hRt.outPrefix ho, hf.smp ho⟩, fun ho => ⟨hRt.smpPrefix ho, hf.out ho⟩⟩
  · rw [finish_eq]
    exact ⟨fun _ _ hk => hk, fun _ _ hk => hk, fun ho => ⟨hR.outPrefix ho, rfl⟩, fun ho => ⟨hR.smpPrefix ho, rfl⟩⟩

/-! ## The HOST changes an operand or the descriptor words -/

theorem changeOperand_refused {sp : OperandSpace} {s : State} (m : List Host.Cell)
    (h : s.phase = .run ∧ usesSpace s.latch sp = true) : changeOperand sp m s = .refused (.operandChanged sp) :=
  if_pos h

theorem changeOperand_free {sp : OperandSpace} {s : State} (m : List Host.Cell)
    (h : ¬ (s.phase = .run ∧ usesSpace s.latch sp = true)) : changeOperand sp m s = .next (setOperand sp m s) :=
  if_neg h

/-- A supply of a space that no running command uses fills that space and nothing else. -/
theorem step_supply_free {s : State} {sp : OperandSpace} {bytes : List Byte} {rest : List HostAction}
    (h : s.script = .supply sp bytes :: rest) (hfree : ¬ (s.phase = .run ∧ usesSpace s.latch sp = true)) :
    step s = .next (setOperand sp (Memory.ofList bytes) { s with script := rest }) := by
  rw [step_hostAct h]
  exact changeOperand_free (s := { s with script := rest }) _ hfree

/-- Settles O53, by the two cases of a change of an operand. -/
theorem operandsAreStableWhileRunning : Obligations.OperandsAreStableWhileRunning := by
  intro s rest bytes
  refine ⟨fun sp h hp hu => ?_, step_supply_free, step_supply_free, step_supply_free⟩
  rw [step_hostAct h]
  exact changeOperand_refused (s := { s with script := rest }) _ ⟨hp, hu⟩

theorem changeWords_refused {d : Descriptor} {s : State} (hp : s.phase = .run) (hd : d ≠ hostWords s) :
    changeWords d s = .refused .descriptorChanged :=
  if_pos ⟨hp, hd⟩

theorem changeWords_goes_on {d : Descriptor} {s : State} (h : ¬ (s.phase = .run ∧ d ≠ hostWords s)) :
    changeWords d s = .next s :=
  if_neg h

/-- The latch of an accepted descriptor gives its words back, RSV being 0 (30_encoding R88). -/
theorem decode_ok_descriptor {d : Descriptor} {i : Instr} (h : decode d = .ok i) : i.latch.descriptor = d := by
  obtain ⟨hrsv, hlatch⟩ := decode_ok h
  refine Descriptor.ext_fields ?_ ?_
  · rw [Latch.descriptor_rsv, hrsv]
  · rw [Latch.descriptor_latch, (decodeLatch_ok hlatch).1]

/-- Settles O54: a change of the words that differs is refused while a command runs, and what acceptance latches is the
descriptor that was presented. -/
theorem descriptorWordsAreStableWhileRunning : Obligations.DescriptorWordsAreStableWhileRunning := by
  refine ⟨fun s rest d h => ?_, fun s t d hq hp hc h ht => ?_⟩
  · rw [step_hostAct h]
    exact ⟨changeWords_refused (s := { s with script := rest }),
      fun _ hd => changeWords_goes_on (s := { s with script := rest }) fun hch => hch.2 hd,
      fun hp => changeWords_goes_on (s := { s with script := rest }) fun hch => by cases hp.symm.trans hch.1⟩
  · obtain ⟨rest, hrest⟩ := List.head?_eq_some_iff.1 hc
    rcases step_idle_cases hq hp hrest with ⟨k, -, hs⟩ | ⟨i, hd, -, hs⟩
    · cases hs.symm.trans h
      cases hp.symm.trans ht
    · cases hs.symm.trans h
      rw [hostWords, start_latch, decode_ok_descriptor hd]

/-! ## The HOST passes OUT on as an operand -/

theorem resultTaken_iff {s : State} : resultTaken s = true ↔ ∃ n, s.outReady = some n ∧ n ≤ s.received.length := by
  unfold resultTaken
  cases s.outReady <;> simp

theorem reuseResult_taken {sp : OperandSpace} {s : State} (h : resultTaken s = true) :
    reuseResult sp s = changeOperand sp s.out s :=
  if_pos h

theorem reuseResult_refused {sp : OperandSpace} {s : State} (h : ¬ resultTaken s = true) :
    reuseResult sp s = .refused .resultNotReady :=
  if_neg h

/-- A reuse that goes on is of a result whose OK the HOST has taken. -/
theorem reuseResult_next_taken {sp : OperandSpace} {s t : State} (h : reuseResult sp s = .next t) :
    resultTaken s = true := by
  by_contra hno
  cases (reuseResult_refused hno).symm.trans h

/-- In IDLE a reuse of a result whose OK is taken gives the space the elements of OUT. -/
theorem step_reuseOut_idle {s : State} {sp : OperandSpace} {rest : List HostAction} {n : Nat}
    (h : s.script = .reuseOut sp :: rest) (hn : s.outReady = some n) (hle : n ≤ s.received.length)
    (hp : s.phase = .idle) : step s = .next (setOperand sp s.out { s with script := rest }) := by
  have htaken : resultTaken { s with script := rest } = true := resultTaken_iff.2 ⟨n, hn, hle⟩
  rw [step_hostAct h]
  exact (reuseResult_taken htaken).trans (changeOperand_free _ fun hrun => by cases hp.symm.trans hrun.1)

/-- Settles O56, by whether the record names a status word the HOST has taken. -/
theorem resultReuseNeedsTakenResponse : Obligations.ResultReuseNeedsTakenResponse := by
  intro s rest
  refine ⟨fun n => step_reuseOut_idle, fun n => step_reuseOut_idle, fun sp h hlate => ?_⟩
  rw [step_hostAct h]
  refine reuseResult_refused fun htaken => ?_
  obtain ⟨n, hn, hle⟩ := resultTaken_iff.1 htaken
  exact absurd hle (Nat.not_le.2 (hlate n hn))

/-! ## The record `outReady` is true to the responses -/

/-- The record stays true where it is kept or dropped and the status words sent so far are only added to. -/
theorem readyRecord_extend {s t : State} (h : ReadyRecordTrue s) (hr : t.outReady = s.outReady ∨ t.outReady = none)
    (hw : s.received ++ s.responses <+: t.received ++ t.responses) : ReadyRecordTrue t := by
  intro n hn
  rcases hr with hr | hr
  · obtain ⟨hpos, hok⟩ := h n (hr ▸ hn)
    obtain ⟨hlt, hget⟩ := List.getElem?_eq_some_iff.1 hok
    exact ⟨hpos, by rw [List.prefix_iff_getElem?.1 hw _ hlt, hget]⟩
  · cases hr.symm.trans hn

/-- A completion sends an OK, and the record names that OK where the result is OUT. -/
theorem readyRecord_finish {i : Instr} {s : State} (h : ReadyRecordTrue s) : ReadyRecordTrue (i.finish s) := by
  rw [finish_eq]
  cases ho : i.writesOut with
  | true =>
    intro n hn
    obtain rfl : s.received.length + s.responses.length + 1 = n := Option.some.inj hn
    refine ⟨Nat.succ_pos _, ?_⟩
    rw [Nat.add_sub_cancel, ← List.length_append, ← List.append_assoc]
    exact List.getElem?_concat_length
  | false => exact readyRecord_extend h (.inl rfl) ⟨[statusWord .ok], by simp⟩

theorem exec_keeps_readyRecord {i : Instr} {s t : State} (hR : ReadyRecordTrue s) (h : exec i s = .next t) :
    ReadyRecordTrue t := by
  rcases exec_next_cases h with ⟨k, -, -, rfl⟩ | ⟨-, -, rfl⟩ | ⟨-, -, -, hb⟩ | ⟨-, -, -, rfl⟩ | ⟨-, -, rfl⟩
  · exact readyRecord_extend hR (.inl rfl) ⟨[statusWord (.error k)], by simp⟩
  · refine readyRecord_extend hR ?_ (by simp)
    rw [start_outReady]
    split_ifs <;> simp
  · obtain ⟨hf, -⟩ := byteStep_frame hb
    exact readyRecord_extend hR (.inl hf.outReady) (by simp [hf.received, hf.responses])
  · exact readyRecord_finish hR
  · exact hR

theorem coreStep_keeps_readyRecord {s t : State} (hR : ReadyRecordTrue s) (h : coreStep s = .next t) :
    ReadyRecordTrue t := by
  rcases coreStep_next_cases h with ⟨-, rfl⟩ | ⟨-, -, -, rfl⟩ | ⟨d, rest, k, -, -, -, -, rfl⟩ |
    ⟨d, rest, i, -, -, -, -, he⟩ | ⟨i, -, -, -, he⟩
  · exact hR
  · exact hR
  · exact readyRecord_extend hR (.inl rfl) ⟨[statusWord (.error k)], by simp⟩
  · exact exec_keeps_readyRecord (s := { s with commands := rest }) hR he
  · exact exec_keeps_readyRecord hR he

/-- A true record that names a status word the HOST has taken names an OK it has received. -/
theorem readyRecord_received {s : State} {n : Nat} (hR : ReadyRecordTrue s) (hn : s.outReady = some n)
    (hle : n ≤ s.received.length) : s.received[n - 1]? = some (statusWord .ok) := by
  obtain ⟨hpos, hok⟩ := hR n hn
  rwa [List.getElem?_append_left (by omega)] at hok

/-- Reset drops the responses not yet taken, and with them a record that names one of them. -/
theorem readyRecord_assertReset {s : State} (h : ReadyRecordTrue s) : ReadyRecordTrue (assertReset s) := by
  intro n hn
  rw [assertReset_outReady] at hn
  split_ifs at hn with htaken
  obtain ⟨m, hm, hle⟩ := resultTaken_iff.1 htaken
  obtain rfl : m = n := Option.some.inj (hm.symm.trans hn)
  obtain ⟨hpos, -⟩ := h m hn
  exact ⟨hpos, by simpa using readyRecord_received h hn hle⟩

theorem changeOperand_keeps_readyRecord {sp : OperandSpace} {m : List Host.Cell} {s t : State} (hR : ReadyRecordTrue s)
    (h : changeOperand sp m s = .next t) : ReadyRecordTrue t := by
  obtain ⟨-, rfl⟩ := changeOperand_next h
  exact readyRecord_extend hR (.inl (setOperand_outReady _ _ _)) (by simp)

theorem hostAct_keeps_readyRecord {act : HostAction} {rest : List HostAction} {s t : State} (hR : ReadyRecordTrue s)
    (h : hostAct act rest s = .next t) : ReadyRecordTrue t := by
  have hR' : ReadyRecordTrue { s with script := rest } := hR
  cases act with
  | present d => cases h; exact hR
  | changeWords d => exact changeWords_next h ▸ hR'
  | supply sp bytes => exact changeOperand_keeps_readyRecord hR' h
  | reuseOut sp => exact changeOperand_keeps_readyRecord hR' (reuseResult_next h)
  | await =>
    cases hr : s.responses with
    | nil => exact coreStep_keeps_readyRecord hR ((awaitResponse_nil rest hr).symm.trans h)
    | cons r more =>
      cases (awaitResponse_cons rest hr).symm.trans h
      exact readyRecord_extend hR (.inl rfl) (by simp [hr])
  | readOut k => exact readResult_next h ▸ hR'
  | readSmp k => exact readResult_next h ▸ hR'
  | assertReset => cases h; exact readyRecord_assertReset hR'
  | releaseReset => cases h; exact hR
  | yield => exact coreStep_keeps_readyRecord hR' h

theorem step_keeps_readyRecord {s t : State} (hR : ReadyRecordTrue s) (h : step s = .next t) : ReadyRecordTrue t := by
  cases hs : s.script with
  | nil => exact coreStep_keeps_readyRecord hR (step_quiet hs ▸ h)
  | cons act rest => exact hostAct_keeps_readyRecord hR (step_hostAct hs ▸ h)

/-- Settles O57: the record is kept true by the core and by the HOST, and a reuse goes on only where it names a status
word taken. -/
theorem reuseFollowsReceivedOk : Obligations.ReuseFollowsReceivedOk := by
  refine ⟨fun n hn => (by cases hn), fun s t => step_keeps_readyRecord, fun s t sp rest hR hs h => ?_⟩
  have hreuse : reuseResult sp { s with script := rest } = .next t := (step_hostAct hs).symm.trans h
  obtain ⟨n, hn, hle⟩ := resultTaken_iff.1 (reuseResult_next_taken hreuse)
  exact List.mem_of_getElem? (readyRecord_received hR hn hle)

end Sys2Proof.Machine
end

section
/-! SUPPORT. Proofs of the family `30_encoding`: the two round trips of the codec, the rows of the opcode map, the response
words, and that what a command ignores does not reach its outcome. -/

namespace Sys2Proof.Machine

/-! ## The two round trips -/

/-- Settles O1: the encoded descriptor has RSV 0 and the command's own latch, which decodes to the command. -/
theorem decodeOfEncode : Obligations.DecodeOfEncode := by
  intro i hw
  rw [decode_of_rsv (encode_rsv i), encode_latch]
  exact decodeLatch_latch hw

/-- Settles O2: the latch of an accepted descriptor is its command's, and RSV, the only other field, is 0. -/
theorem encodeOfDecode : Obligations.EncodeOfDecode := fun _ _ h =>
  ⟨(decodeLatch_ok (decode_ok h).2).2, decode_ok_descriptor h⟩

/-! ## The opcode map -/

open Laws

theorem rowMatch_lt (i : Instr) : rowMatch i < 65536 := by
  cases i <;> simp [rowMatch]

/-- The mask of the opcode map keeps OPC, RSV and SEL: W0 modulo 2^16 (30_encoding R95). -/
theorem and_rowMask_toNat (w : Word) : (w &&& 0x0000FFFF#32).toNat = w.toNat % 65536 := by
  rw [BitVec.toNat_and]
  exact Nat.and_two_pow_sub_one_eq_mod w.toNat 16

/-- A descriptor whose W0 matches a command's row is the encoding of that command with the operands it assembles. -/
theorem encode_of_rowMatch {d : Descriptor} {i : Instr} (hi : i.operands = d.latch.operands)
    (hrow : OpcodeRow.Statement i) (hm : d.w0.toNat % 65536 = rowMatch i) : encode i = d := by
  have hbpp : (i.operands.bpp % 65536).toNat = d.latch.bpp.toNat := by
    rw [hi]
    exact (BitVec.toNat_ofInt _).symm.trans (congrArg BitVec.toNat BitVec.ofInt_toInt)
  have hw0 : (encode i).w0 = d.w0 := BitVec.eq_of_toNat_eq (by rw [hrow, hbpp, d.latch_bpp_toNat]; omega)
  have hw1 : (encode i).w1 = d.w1 := by simp [hi, Latch.operands]
  have hw2 : (encode i).w2 = d.w2 := by simp [hi, Latch.operands]
  have hw3 : (encode i).w3 = d.w3 := by simp [hi, Latch.operands]
  calc encode i = ⟨(encode i).w0, (encode i).w1, (encode i).w2, (encode i).w3⟩ := rfl
    _ = d := by rw [hw0, hw1, hw2, hw3]

/-- One row of the opcode map: the round trips carry the row's match value from the word to the command and back. -/
theorem decodes_iff_row {f : Operands → Instr} {m : Word} (hop : ∀ o, (f o).operands = o)
    (hrow : ∀ o, OpcodeRow.Statement (f o)) (hm : ∀ o, rowMatch (f o) = m.toNat) (d : Descriptor) :
    (∃ o, decode d = .ok (f o)) ↔ d.w0 &&& 0x0000FFFF#32 = m := by
  rw [← BitVec.toNat_inj, and_rowMask_toNat]
  constructor
  · rintro ⟨o, h⟩
    have hlt := rowMatch_lt (f o)
    rw [← (encodeOfDecode d _ h).2, hrow o, ← hm o]
    omega
  · intro h
    have hi := hop d.latch.operands
    have henc := encode_of_rowMatch hi (hrow _) (h.trans (hm _).symm)
    have hw : (f d.latch.operands).WellFormed := by rw [Instr.WellFormed, hi]; exact d.latch.operands_wellFormed
    exact ⟨_, by rw [← decodeOfEncode _ hw, henc]⟩

/-- Settles O3, row by row. -/
theorem opcodeMapSelectsCommands : Obligations.OpcodeMapSelectsCommands := by
  intro d
  exact ⟨decodes_iff_row (fun _ => rfl) OpcodeRow.unfNone (fun _ => rfl) d,
    decodes_iff_row (fun _ => rfl) OpcodeRow.unfSub (fun _ => rfl) d,
    decodes_iff_row (fun _ => rfl) OpcodeRow.unfUp (fun _ => rfl) d,
    decodes_iff_row (fun _ => rfl) OpcodeRow.unfAvg (fun _ => rfl) d,
    decodes_iff_row (fun _ => rfl) OpcodeRow.unfPaeth (fun _ => rfl) d,
    decodes_iff_row (fun _ => rfl) OpcodeRow.unp1 (fun _ => rfl) d,
    decodes_iff_row (fun _ => rfl) OpcodeRow.unp2 (fun _ => rfl) d,
    decodes_iff_row (fun _ => rfl) OpcodeRow.unp4 (fun _ => rfl) d,
    decodes_iff_row (fun _ => rfl) OpcodeRow.unp8 (fun _ => rfl) d,
    decodes_iff_row (fun _ => rfl) OpcodeRow.unp16 (fun _ => rfl) d,
    decodes_iff_row (fun _ => rfl) OpcodeRow.addb (fun _ => rfl) d,
    decodes_iff_row (fun _ => rfl) OpcodeRow.subb (fun _ => rfl) d,
    decodes_iff_row (fun _ => rfl) OpcodeRow.avgb (fun _ => rfl) d,
    decodes_iff_row (fun _ => rfl) OpcodeRow.paethb (fun _ => rfl) d⟩

/-- Settles O4, by running the decoder on the ten descriptors. -/
theorem decodeReadsSpecWords : Obligations.DecodeReadsSpecWords := by
  unfold Obligations.DecodeReadsSpecWords
  decide

/-! ## The response words -/

/-- Settles O8: the six words by evaluation, and the bound outcome by outcome. -/
theorem statusWordsFollowTable : Obligations.StatusWordsFollowTable := by
  refine ⟨rfl, rfl, rfl, rfl, rfl, rfl, fun st => ?_⟩
  cases st with
  | ok => decide
  | error k => cases k <;> decide

/-! ## What a command ignores -/

end Sys2Proof.Machine

namespace Sys2Proof

/-- The command of the same row that carries the given operands. -/
def Instr.withOperands : Instr → Operands → Instr
  | .unfNone _, o => .unfNone o
  | .unfSub _, o => .unfSub o
  | .unfUp _, o => .unfUp o
  | .unfAvg _, o => .unfAvg o
  | .unfPaeth _, o => .unfPaeth o
  | .unp1 _, o => .unp1 o
  | .unp2 _, o => .unp2 o
  | .unp4 _, o => .unp4 o
  | .unp8 _, o => .unp8 o
  | .unp16 _, o => .unp16 o
  | .addb _, o => .addb o
  | .subb _, o => .subb o
  | .avgb _, o => .avgb o
  | .paethb _, o => .paethb o

variable (i : Instr) (o : Operands)

@[simp] theorem Instr.withOperands_operands : (i.withOperands o).operands = o := by cases i <;> rfl

@[simp] theorem Instr.withOperands_opcField : (i.withOperands o).opcField = i.opcField := by cases i <;> rfl

@[simp] theorem Instr.withOperands_selField : (i.withOperands o).selField = i.selField := by cases i <;> rfl

@[simp] theorem Instr.withOperands_writesOut : (i.withOperands o).writesOut = i.writesOut := by cases i <;> rfl

@[simp] theorem Instr.withOperands_usesLeft : (i.withOperands o).usesLeft = i.usesLeft := by cases i <;> rfl

@[simp] theorem Instr.withOperands_resultCount : (i.withOperands o).resultCount = i.resultCount := by cases i <;> rfl

@[simp] theorem Instr.withOperands_check : (i.withOperands o).check = i.check := by cases i <;> rfl

variable {i o}

/-- Class and selector determine the row: the decoder reads the command from them and the operands. -/
theorem Instr.eq_withOperands {i' : Instr} (hw : i'.WellFormed) (ho : i'.opcField = i.opcField)
    (hs : i'.selField = i.selField) : i' = i.withOperands i'.operands := by
  have hl : i'.latch = (i.withOperands i'.operands).latch := by simp [Instr.latch, ho, hs]
  have hw' : (i.withOperands i'.operands).WellFormed := by rwa [Instr.WellFormed, withOperands_operands]
  exact Except.ok.inj ((decodeLatch_latch hw).symm.trans (hl ▸ decodeLatch_latch hw'))

/-- The operands agree with those of command i in every field that i does not ignore (30_encoding R90). -/
structure Operands.AgreeOnUsed (i : Instr) (o : Operands) : Prop where
  lenA : o.lenA = i.operands.lenA
  bpp : i.opcField = 1#4 → o.bpp = i.operands.bpp
  lenB : i.opcField ≠ 2#4 → o.lenB = i.operands.lenB
  lenC : i.opcField = 3#4 → i.selField = 3#8 → o.lenC = i.operands.lenC

end Sys2Proof

namespace Sys2Proof.Machine

open Operands (AgreeOnUsed)

variable {i : Instr} {o : Operands}

/-- The checks of a command read no field it ignores. -/
theorem check_withOperands (h : AgreeOnUsed i o) :
    (i.withOperands o).check (i.withOperands o).latch = i.check i.latch := by
  have hA : (i.withOperands o).latch.lenA = i.latch.lenA := by simp [Instr.latch, h.lenA]
  have hbpp : i.opcField = 1#4 → (i.withOperands o).latch.bpp = i.latch.bpp := fun hu => by
    simp [Instr.latch, h.bpp hu]
  have hB : i.opcField ≠ 2#4 → (i.withOperands o).latch.lenB = i.latch.lenB := fun hu => by
    simp [Instr.latch, h.lenB hu]
  have hC : i.opcField = 3#4 → i.selField = 3#8 → (i.withOperands o).latch.lenC = i.latch.lenC := fun hu hs => by
    simp [Instr.latch, h.lenC hu hs]
  rw [Instr.withOperands_check]
  cases i with
  | unfNone | unfSub | unfUp | unfAvg | unfPaeth =>
    simp only [Instr.check, validateUnfilter, hA, hbpp rfl, hB (by simp [Instr.opcField])]
  | unp1 | unp2 | unp4 | unp8 => rfl
  | unp16 => simp only [Instr.check, validateUnpack16, hA]
  | addb | subb | avgb => simp only [Instr.check, validateHelper, hA, hB (by simp [Instr.opcField])]
  | paethb => simp only [Instr.check, validateHelper3, hA, hB (by simp [Instr.opcField]), hC rfl rfl]

/-- The elements a command reads are those below LEN_A. -/
theorem operandsSupplied_withOperands (h : AgreeOnUsed i o) (s : State) :
    OperandsSupplied (i.withOperands o) s ↔ OperandsSupplied i s := by
  have hA := h.lenA
  cases i <;> simp only [Instr.withOperands, OperandsSupplied, hA, Instr.operands]

/-- The closed form of OUT reads no field but the stride, and that for class UNF alone. -/
theorem outElement_withOperands (h : AgreeOnUsed i o) (s : State) (k : Nat) :
    outElement (i.withOperands o) s k = outElement i s k := by
  have hbpp := h.bpp
  cases i with
  | unfSub | unfAvg | unfPaeth => simp only [Instr.withOperands, outElement, hbpp rfl, Instr.operands]
  | _ => rfl

theorem sampleElement_withOperands (s : State) (k : Nat) : sampleElement (i.withOperands o) s k = sampleElement i s k := by
  cases i <;> rfl

/-- A completed run is one of every command that differs in ignored operands alone, but for the latch it leaves. -/
theorem Completed.of_withOperands {s t : State} (h : AgreeOnUsed i o) (hv : i.Valid)
    (hC : Completed (i.withOperands o) s t) : Completed i s { t with latch := i.latch } := by
  obtain ⟨-, helsewhere, -, hout, hsmp, hotherSmp, hotherOut, hleft⟩ := hC
  simp only [Instr.withOperands_writesOut, Instr.withOperands_usesLeft, Instr.withOperands_resultCount,
    Instr.withOperands_operands, h.lenA, outElement_withOperands h, sampleElement_withOperands]
    at hout hsmp hotherSmp hotherOut hleft
  exact ⟨hv, helsewhere, rfl, hout, hsmp, hotherSmp, hotherOut, hleft⟩

/-- Settles O41: the two descriptors are one command with operands that agree on what it uses, so the checks, the elements
read and the closed forms of the result are the same. -/
theorem ignoredFieldsHaveNoEffect : Obligations.IgnoredFieldsHaveNoEffect := by
  intro i i' s s' hw hw' hopc hsel hlenA hbpp hB hC hP hP' hA
  obtain ⟨o, rfl⟩ : ∃ o, i' = i.withOperands o := ⟨_, Instr.eq_withOperands hw' hopc hsel⟩
  simp only [Instr.withOperands_operands] at hlenA hbpp hB hC
  have hag : AgreeOnUsed i o := ⟨hlenA, hbpp, fun hu => (hB hu).1, fun ho hs => (hC ho hs).1⟩
  have hcheck := check_withOperands hag
  refine ⟨fun k hk => (failsWith_iff_check hw' hP').2 (hcheck.trans ((failsWith_iff_check hw hP).1 hk)), fun t ht => ?_⟩
  have hcomp := completed_of_completes hw ht
  have hv' : (i.withOperands o).Valid := valid_iff.2 ⟨hw', hcheck.trans (valid_iff.1 hcomp.valid).2⟩
  have hspaces : OperandsAgree i s s' :=
    ⟨fun k _ => by rw [hA], fun hu k _ => by rw [(hB hu).2], fun hu k _ => by rw [(hC hu.1 hu.2).2]⟩
  have hsup : OperandsSupplied (i.withOperands o) s' :=
    (operandsSupplied_withOperands hag s').2 (hspaces.supplied (supplied_of_completes hw ht))
  obtain ⟨t', ht', hcomp'⟩ := completes_of_supplied hv' hP' hsup
  have hrow := hcomp'.of_withOperands hag hcomp.valid
  have hout := hspaces.out_eq hcomp hrow
  have hsmp := hspaces.smp_eq hcomp hrow
  exact ⟨t', ht', hout, hsmp⟩

end Sys2Proof.Machine
end

section
/-! SUPPORT. Proofs of the family `40_unfilter`: the Paeth predictor, the start, byte step and completion of the UNF
commands, their whole runs, and that a run on a forward-filtered row gives the raw row back. -/

namespace Sys2Proof.Machine

/-! ## The Paeth predictor -/

section Paeth

variable {a b c : Byte}

theorem paethDistance_left (a b c : Byte) :
    paethDistance (paethEstimate a b c) a = ((b.toNat : Int) - (c.toNat : Int)).natAbs := by
  unfold paethDistance paethEstimate; omega

theorem paethDistance_above (a b c : Byte) :
    paethDistance (paethEstimate a b c) b = ((a.toNat : Int) - (c.toNat : Int)).natAbs := by
  unfold paethDistance paethEstimate; omega

theorem paethDistance_upperLeft (a b c : Byte) :
    paethDistance (paethEstimate a b c) c = ((a.toNat : Int) + (b.toNat : Int) - 2 * (c.toNat : Int)).natAbs := by
  unfold paethDistance paethEstimate; omega

theorem paethPredictor_eq_left
    (h : paethDistance (paethEstimate a b c) a ≤ paethDistance (paethEstimate a b c) b ∧
      paethDistance (paethEstimate a b c) a ≤ paethDistance (paethEstimate a b c) c) : paethPredictor a b c = a :=
  if_pos h

theorem paethPredictor_eq_above
    (h : ¬ (paethDistance (paethEstimate a b c) a ≤ paethDistance (paethEstimate a b c) b ∧
      paethDistance (paethEstimate a b c) a ≤ paethDistance (paethEstimate a b c) c))
    (hb : paethDistance (paethEstimate a b c) b ≤ paethDistance (paethEstimate a b c) c) : paethPredictor a b c = b :=
  (if_neg h).trans (if_pos hb)

theorem paethPredictor_eq_upperLeft
    (h : ¬ (paethDistance (paethEstimate a b c) a ≤ paethDistance (paethEstimate a b c) b ∧
      paethDistance (paethEstimate a b c) a ≤ paethDistance (paethEstimate a b c) c))
    (hb : ¬ paethDistance (paethEstimate a b c) b ≤ paethDistance (paethEstimate a b c) c) : paethPredictor a b c = c :=
  (if_neg h).trans (if_neg hb)

/-- The three outcomes of the predictor, each with the comparisons that select it (40_unfilter R115). -/
theorem paethPredictor_cases (a b c : Byte) :
    (paethPredictor a b c = a ∧ paethDistance (paethEstimate a b c) a ≤ paethDistance (paethEstimate a b c) b ∧
      paethDistance (paethEstimate a b c) a ≤ paethDistance (paethEstimate a b c) c) ∨
    (paethPredictor a b c = b ∧ paethDistance (paethEstimate a b c) b ≤ paethDistance (paethEstimate a b c) a ∧
      paethDistance (paethEstimate a b c) b ≤ paethDistance (paethEstimate a b c) c) ∨
    (paethPredictor a b c = c ∧ paethDistance (paethEstimate a b c) c < paethDistance (paethEstimate a b c) a ∧
      paethDistance (paethEstimate a b c) c < paethDistance (paethEstimate a b c) b) := by
  by_cases h : paethDistance (paethEstimate a b c) a ≤ paethDistance (paethEstimate a b c) b ∧
      paethDistance (paethEstimate a b c) a ≤ paethDistance (paethEstimate a b c) c
  · exact .inl ⟨paethPredictor_eq_left h, h⟩
  · by_cases hb : paethDistance (paethEstimate a b c) b ≤ paethDistance (paethEstimate a b c) c
    · exact .inr (.inl ⟨paethPredictor_eq_above h hb, by omega, hb⟩)
    · exact .inr (.inr ⟨paethPredictor_eq_upperLeft h hb, by omega, by omega⟩)

/-- With both neighbours on the left 0 the estimate is the byte above (40_unfilter R120). -/
theorem paethPredictor_zero_left (b : Byte) : paethPredictor 0 b 0 = b := by
  have ha := paethDistance_left 0 b 0
  have hb := paethDistance_above 0 b 0
  have h0 : (0 : Byte).toNat = 0 := rfl
  rw [h0] at ha hb
  rcases paethPredictor_cases 0 b 0 with ⟨h, hle, -⟩ | ⟨h, -⟩ | ⟨-, hlt, hlt'⟩
  · rw [h]
    exact BitVec.eq_of_toNat_eq (by omega)
  · exact h
  · omega

/-- Settles O18: the distances by arithmetic, the choice by the two comparisons in order. -/
theorem paethPredictorFollowsRule : Obligations.PaethPredictorFollowsRule := by
  rintro a b c p pa pb pc rfl rfl rfl rfl
  have ha := a.isLt
  have hb := b.isLt
  have hc := c.isLt
  exact ⟨⟨by omega, by omega, by omega, by omega, by omega⟩,
    ⟨paethDistance_left a b c, paethDistance_above a b c, paethDistance_upperLeft a b c⟩,
    paethPredictor_eq_left, paethPredictor_eq_above, paethPredictor_eq_upperLeft⟩

/-- Settles O19: the clauses on the choice by its three outcomes, the ties by the distances as differences of neighbours. -/
theorem paethSelectsNearestInTieOrder : Obligations.PaethSelectsNearestInTieOrder := by
  intro a b c
  have hcases := paethPredictor_cases a b c
  have hpa := paethDistance_left a b c
  have hpb := paethDistance_above a b c
  have hpc := paethDistance_upperLeft a b c
  refine ⟨hcases.imp And.left (Or.imp And.left And.left), fun x hx => ?nearest, fun hab hbc => ?equal,
    fun hab hac => ?leftAbove, fun hac hab => paethPredictor_eq_left (by omega),
    fun hbc hba => paethPredictor_eq_above (by omega) (by omega), fun hna hnb => ?strict,
    fun ha hc => ?zero, fun hbc => ?aboveUpperLeft⟩
  case nearest =>
    obtain ⟨h, h1, h2⟩ | ⟨h, h1, h2⟩ | ⟨h, h1, h2⟩ := hcases
    all_goals
      rw [h]
      rcases hx with rfl | rfl | rfl <;> omega
  case equal =>
    subst hab hbc
    exact paethPredictor_eq_left ⟨le_refl _, le_refl _⟩
  case leftAbove =>
    have heq : a = b := BitVec.eq_of_toNat_eq (by omega)
    refine ⟨heq, fun h => ?_, paethPredictor_eq_left (by omega)⟩
    subst heq h
    omega
  case strict =>
    rcases hcases with ⟨h, -⟩ | ⟨h, -⟩ | ⟨-, h⟩
    · exact absurd h hna
    · exact absurd h hnb
    · exact h
  case zero =>
    subst ha hc
    exact paethPredictor_zero_left b
  case aboveUpperLeft =>
    subst hbc
    exact paethPredictor_eq_left (by omega)

end Paeth

/-! ## Start, byte step and completion -/

theorem start_stateless {i : Instr} (hu : i.usesLeft = false) (ho : i.writesOut = true) (s : State) :
    i.start s = { s with phase := .run, latch := i.latch, idx := 0, out := [], outReady := none } := by
  rw [Instr.start, if_neg (by simp [hu]), if_pos ho]; rfl

theorem start_stateful {i : Instr} (hu : i.usesLeft = true) (hw : i.WellFormed) (s : State) :
    i.start s = { s with
      phase := .run, latch := i.latch, idx := 0, left := List.replicate i.operands.bpp.toNat 0
      out := [], outReady := none } := by
  have hbpp : i.latch.bpp.toInt = i.operands.bpp := congrArg Operands.bpp (Instr.latch_operands hw)
  rw [Instr.start, if_pos hu, ← hbpp]; rfl

/-- The checks of a command of class UNF, on its operands (40_unfilter R111): a row is needed for predictor state. -/
theorem check_unfilter {i : Instr} (hc : i.opcField = 1#4) (hw : i.WellFormed) :
    i.check i.latch =
      if i.operands.bpp ≤ 0 then some .invalidStride
      else if i.operands.lenB ≠ i.operands.lenA then some .lengthMismatch
      else if i.usesLeft = true ∧ i.operands.lenA = 0 then some .invalidStride
      else none := by
  have hcheck : i.check = validateUnfilter i.usesLeft := by
    cases i with
    | unfNone | unfSub | unfUp | unfAvg | unfPaeth => rfl
    | _ => simp [Instr.opcField] at hc
  have hop := Instr.latch_operands hw
  have hbpp : i.latch.bpp.toInt = i.operands.bpp := congrArg Operands.bpp hop
  have hA : i.latch.lenA.toNat = i.operands.lenA := congrArg Operands.lenA hop
  have hB : i.latch.lenB.toNat = i.operands.lenB := congrArg Operands.lenB hop
  have h0 : (0#32).toNat = 0 := rfl
  rw [hcheck, validateUnfilter]
  simp only [ne_eq, ← BitVec.toNat_inj, hbpp, hA, hB, h0]

section Checked

variable {i : Instr} {s : State} (hc : i.opcField = 1#4) (hw : i.WellFormed)
include hc hw

theorem check_unfilter_none (hb : 0 < i.operands.bpp) (hl : i.operands.lenB = i.operands.lenA)
    (hrow : i.usesLeft = true → 0 < i.operands.lenA) : i.check i.latch = none := by
  rw [check_unfilter hc hw, if_neg (by omega), if_neg (by simpa using hl), if_neg]
  rintro ⟨hu, h0⟩
  exact absurd h0 (hrow hu).ne'

theorem exec_idle_stateless (hu : i.usesLeft = false) (ho : i.writesOut = true) (hp : s.phase = .idle)
    (hb : 0 < i.operands.bpp) (hl : i.operands.lenB = i.operands.lenA) :
    exec i s = .next { s with phase := .run, latch := i.latch, idx := 0, out := [], outReady := none } := by
  rw [exec_idle_start hp (check_unfilter_none hc hw hb hl (by simp [hu])), start_stateless hu ho]

theorem exec_idle_stateful (hu : i.usesLeft = true) (hp : s.phase = .idle) (hb : 0 < i.operands.bpp)
    (hl : i.operands.lenB = i.operands.lenA) (h0 : 0 < i.operands.lenA) :
    exec i s = .next { s with
      phase := .run, latch := i.latch, idx := 0, left := List.replicate i.operands.bpp.toNat 0
      out := [], outReady := none } := by
  rw [exec_idle_start hp (check_unfilter_none hc hw hb hl fun _ => h0), start_stateful hu hw]

theorem failsWith_stride (hP : Presented i s) (hb : i.operands.bpp ≤ 0) : FailsWith s .invalidStride :=
  failsWith_of_check hw hP (by rw [check_unfilter hc hw, if_pos hb])

theorem failsWith_length (hP : Presented i s) (hb : 0 < i.operands.bpp) (hl : i.operands.lenB ≠ i.operands.lenA) :
    FailsWith s .lengthMismatch :=
  failsWith_of_check hw hP (by rw [check_unfilter hc hw, if_neg (by omega), if_pos hl])

theorem failsWith_emptyRow (hu : i.usesLeft = true) (hP : Presented i s) (hb : 0 < i.operands.bpp)
    (hl : i.operands.lenB = i.operands.lenA) (h0 : i.operands.lenA = 0) : FailsWith s .invalidStride :=
  failsWith_of_check hw hP (by
    rw [check_unfilter hc hw, if_neg (by omega), if_neg (by simpa using hl), if_pos ⟨hu, h0⟩])

end Checked

/-- Settles O9: the checks pass, and the start is that of a command without or with predictor state. -/
theorem unfilterCommandsStart : Obligations.UnfilterCommandsStart := by
  intro o s hw hp hb hl
  exact ⟨exec_idle_stateless (i := .unfNone o) rfl hw rfl rfl hp hb hl,
    exec_idle_stateless (i := .unfUp o) rfl hw rfl rfl hp hb hl, fun h0 =>
    ⟨exec_idle_stateful (i := .unfSub o) rfl hw rfl hp hb hl h0,
      exec_idle_stateful (i := .unfAvg o) rfl hw rfl hp hb hl h0,
      exec_idle_stateful (i := .unfPaeth o) rfl hw rfl hp hb hl h0⟩⟩

theorem addByte_toNat (x y : Byte) : (addByte x y).toNat = (x.toNat + y.toNat) % 256 := by
  rw [addByte_eq, BitVec.toNat_add]

theorem avgByte_toNat (x y : Byte) : (avgByte x y).toNat = (x.toNat + y.toNat) / 2 := by
  have hx := x.isLt
  have hy := y.isLt
  rw [avgByte, BitVec.toNat_ofNat]
  omega

/-- Settles O12, command by command: the reads answer the elements that are present. -/
theorem unfilterByteStep : Obligations.UnfilterByteStep := by
  intro o s x a b c hx
  have readA : ∀ {i : Instr}, AtByteStep i s → exec i s = i.byteStep s ∧ readOperand .a s.idx s = .ok x :=
    fun ⟨hp, hl, hi⟩ => ⟨exec_run_step hp hl hi, readOperand_ok.2 ⟨hi, hx⟩⟩
  have readB : ∀ {i : Instr}, AtByteStep i s → s.latch.lenB = s.latch.lenA → ∀ {k : Nat} {y : Byte}, k ≤ s.idx →
      Memory.read s.spaceB k = some y → readOperand .b k s = .ok y :=
    fun ⟨_, _, hi⟩ hB k y hk hy => readOperand_ok.2 ⟨by rw [operandLength, hB]; omega, hy⟩
  refine ⟨fun h => ?_, fun h ha => ?_, fun h hB hb => ?_, fun h hB ha hb => ?_, fun h hB ha hb hc h0 => ?_⟩
  · obtain ⟨he, hx⟩ := readA h
    exact ⟨addByte x 0, addByte_toNat x 0, by simp only [he, Instr.byteStep, unfNoneStep, hx, withByte_ok]; rfl⟩
  · obtain ⟨he, hx⟩ := readA h
    exact ⟨addByte x a, addByte_toNat x a, by
      simp only [he, Instr.byteStep, unfSubStep, hx, readLeft_ok.2 ha, withByte_ok]; rfl⟩
  · obtain ⟨he, hx⟩ := readA h
    exact ⟨addByte x b, addByte_toNat x b, by
      simp only [he, Instr.byteStep, unfUpStep, hx, readB h hB le_rfl hb, withByte_ok]; rfl⟩
  · obtain ⟨he, hx⟩ := readA h
    exact ⟨addByte x (avgByte a b), by rw [addByte_toNat, avgByte_toNat], by
      simp only [he, Instr.byteStep, unfAvgStep, hx, readLeft_ok.2 ha, readB h hB le_rfl hb, withByte_ok]; rfl⟩
  · obtain ⟨he, hx⟩ := readA h
    have hupper : readUpperLeft s = .ok c := readUpperLeft_ok.2 (by
      split_ifs with hi
      · exact readB h hB (Nat.sub_le _ _) (hc (by unfold stride at hi; omega))
      · exact h0 (by unfold stride at hi; omega))
    exact ⟨addByte x (paethPredictor a b c), addByte_toNat x _, by
      simp only [he, Instr.byteStep, unfPaethStep, hx, readLeft_ok.2 ha, readB h hB le_rfl hb, hupper, withByte_ok]; rfl⟩

/-- Settles O15: `finish` is the completion written out. -/
theorem completionRespondsOk : Obligations.CompletionRespondsOk := by
  intro i s hp hl hi
  rw [exec_run_finish hp hl hi, finish_eq]

/-! ## Whole runs -/

/-- In the last stride group below n the entry of k's group is the byte of OUT at k (10_state R26). -/
theorem lastInGroup_of_recent {s : State} {k : Nat} (hk : k < s.idx) (hn : s.idx ≤ k + stride s) :
    lastInGroup s (k % stride s) = rowByte s.out k := by
  have hmod := Nat.mod_add_div k (stride s)
  have hdiv : (s.idx - 1 - k % stride s) / stride s = k / stride s := by
    have hsplit : s.idx - 1 - k % stride s = (s.idx - 1 - k) + stride s * (k / stride s) := by omega
    rw [hsplit, Nat.add_mul_div_left _ _ (by omega), Nat.div_eq_of_lt (by omega), Nat.zero_add]
  rw [lastInGroup, if_pos (by omega), hdiv, hmod]

/-- The predictor entries roll over the run of every supplied command that has them. -/
theorem rollsLeft_of_supplied {i : Instr} {s : State} (hu : i.usesLeft = true) (hv : i.Valid) (hP : Presented i s)
    (hs : OperandsSupplied i s) : RollsLeft i.operands s := by
  intro n hn
  have hstep := indexStep_out (usesLeft_writesOut hu)
  have hR := running_start (s := { s with commands := s.commands.tail }) hv.1 (valid_iff.1 hv).2
  have hq : Quiet (i.start { s with commands := s.commands.tail }) := ⟨by simpa using hP.1.1, by simpa using hP.1.2⟩
  have hlen : (i.start { s with commands := s.commands.tail }).idx + n * i.indexStep ≤
      (i.start { s with commands := s.commands.tail }).latch.lenA.toNat := by
    rw [start_idx, hstep, hR.lenA_eq]; omega
  obtain ⟨u, hrun⟩ := run_byteSteps_next n hR hq (by simp) hlen
    (operandsSupplied_congr (s := s) (by simp) (by simp) (by simp) hs)
  obtain ⟨hRu, hidx, -⟩ := run_byteSteps n hR hq (by simp) hlen hrun
  rw [start_idx, hstep, Nat.mul_one, Nat.zero_add] at hidx
  obtain ⟨-, -, hpos⟩ := hRu.usesLeft_facts hu
  refine ⟨u, by rw [run_succ_next (step_presented_valid hv hP), hrun], hidx, fun r hr hnr => ?_, fun k hk hkn => ?_⟩
  · rw [← hRu.stride_eq] at hr
    rw [hRu.leftValues hu r hr, lastInGroup, if_neg (by omega)]
  · rw [← hRu.stride_eq] at hkn ⊢
    rw [hRu.leftValues hu _ (Nat.mod_lt k hpos), lastInGroup_of_recent (by omega) (by omega)]

theorem Completed.rowByte_out {i : Instr} {s t : State} (hC : Completed i s t) (ho : i.writesOut = true) {k : Nat}
    (hk : k < i.operands.lenA) : rowByte t.out k = outElement i t k :=
  rowByte_of_read ((hC.out ho).2 k hk)

/-- A supplied command of class UNF that passes its checks completes. -/
theorem unfilter_completes {i : Instr} {s : State} (hc : i.opcField = 1#4) (hw : i.WellFormed) (hP : Presented i s)
    (hb : 0 < i.operands.bpp) (hl : i.operands.lenB = i.operands.lenA) (hrow : i.usesLeft = true → 0 < i.operands.lenA)
    (hs : OperandsSupplied i s) : ∃ t, Completes i s t ∧ Completed i s t :=
  completes_of_supplied (valid_iff.2 ⟨hw, check_unfilter_none hc hw hb hl hrow⟩) hP hs

/-- The whole run of a command with predictor state: its three errors, and else the predictor entries over the run and
a completed run (40_unfilter R117, R119, R120). -/
theorem unfilter_stateful_run {i : Instr} {s : State} (hc : i.opcField = 1#4) (hu : i.usesLeft = true)
    (hw : i.WellFormed) (hP : Presented i s) :
    (i.operands.bpp ≤ 0 → FailsWith s .invalidStride) ∧
    (0 < i.operands.bpp → i.operands.lenB ≠ i.operands.lenA → FailsWith s .lengthMismatch) ∧
    (0 < i.operands.bpp → i.operands.lenB = i.operands.lenA → i.operands.lenA = 0 → FailsWith s .invalidStride) ∧
    (0 < i.operands.bpp → i.operands.lenB = i.operands.lenA → 0 < i.operands.lenA → OperandsSupplied i s →
      RollsLeft i.operands s ∧ ∃ t, Completes i s t ∧ Completed i s t) :=
  ⟨failsWith_stride hc hw hP, failsWith_length hc hw hP, failsWith_emptyRow hc hw hu hP, fun hb hl h0 hs =>
    ⟨rollsLeft_of_supplied hu (valid_iff.2 ⟨hw, check_unfilter_none hc hw hb hl fun _ => h0⟩) hP hs,
      unfilter_completes hc hw hP hb hl (fun _ => h0) hs⟩⟩

/-- Settles O21: the run completes, and each element of OUT is that of A. -/
theorem unfNoneReturnsRow : Obligations.UnfNoneReturnsRow := by
  intro o s hw hP
  refine ⟨Laws.OpcodeRow.unfNone o, failsWith_stride (i := .unfNone o) rfl hw hP,
    failsWith_length (i := .unfNone o) rfl hw hP, fun hb hl hA => ?_⟩
  obtain ⟨t, ht, hC⟩ := unfilter_completes (i := .unfNone o) rfl hw hP hb hl (by simp [Instr.usesLeft]) hA
  obtain ⟨hprefix, hvalues⟩ := hC.out rfl
  refine ⟨t, ht, hC.elsewhere, hC.otherSmp rfl, hC.left rfl, hprefix, fun k hk => ?_⟩
  obtain ⟨x, hx⟩ := Option.isSome_iff_exists.1 (hA k hk)
  rw [hvalues k hk, outElement, hC.elsewhere.1, rowByte_of_read hx, hx]

/-- Settles O22: the closed form of OUT, its sum as a number. -/
theorem unfSubAddsByteBppBack : Obligations.UnfSubAddsByteBppBack := by
  intro o s hw hP
  obtain ⟨hstride, hlength, hempty, hrun⟩ := unfilter_stateful_run (i := .unfSub o) rfl rfl hw hP
  refine ⟨Laws.OpcodeRow.unfSub o, hstride, hlength, hempty, fun hb hl h0 hA => ?_⟩
  obtain ⟨hleft, t, ht, hC⟩ := hrun hb hl h0 hA
  refine ⟨hleft, t, ht, hC.elsewhere, hC.otherSmp rfl, (hC.out rfl).1, fun k hk => ?_⟩
  obtain ⟨hspaceA, -⟩ := hC.elsewhere
  rw [hC.rowByte_out rfl hk, outElement, BitVec.toNat_add, hspaceA]

/-- Settles O23: the closed form of OUT, its sum as a number. -/
theorem unfUpAddsAboveRow : Obligations.UnfUpAddsAboveRow := by
  intro o s hw hP
  refine ⟨Laws.OpcodeRow.unfUp o, failsWith_stride (i := .unfUp o) rfl hw hP,
    failsWith_length (i := .unfUp o) rfl hw hP, fun hb hl hA hB => ?_⟩
  obtain ⟨t, ht, hC⟩ := unfilter_completes (i := .unfUp o) rfl hw hP hb hl (by simp [Instr.usesLeft]) ⟨hA, hB⟩
  refine ⟨t, ht, hC.elsewhere, hC.otherSmp rfl, hC.left rfl, (hC.out rfl).1, fun k hk => ?_⟩
  obtain ⟨hspaceA, hspaceB, -⟩ := hC.elsewhere
  rw [hC.rowByte_out rfl hk, outElement, BitVec.toNat_add, hspaceA, hspaceB]

/-- Settles O24: the closed form of OUT, its two sums as numbers. -/
theorem unfAvgAddsFloorAverage : Obligations.UnfAvgAddsFloorAverage := by
  intro o s hw hP
  obtain ⟨hstride, hlength, hempty, hrun⟩ := unfilter_stateful_run (i := .unfAvg o) rfl rfl hw hP
  refine ⟨Laws.OpcodeRow.unfAvg o, hstride, hlength, hempty, fun hb hl h0 hA hB => ?_⟩
  obtain ⟨hleft, t, ht, hC⟩ := hrun hb hl h0 ⟨hA, hB⟩
  refine ⟨hleft, t, ht, hC.elsewhere, hC.otherSmp rfl, (hC.out rfl).1, fun k hk => ?_⟩
  obtain ⟨hspaceA, hspaceB, -⟩ := hC.elsewhere
  rw [hC.rowByte_out rfl hk, outElement, BitVec.toNat_add, BitVec.toNat_ofNat, Nat.add_mod_mod, hspaceA, hspaceB]

/-- Settles O25: the closed form of OUT, its sum as a number. -/
theorem unfPaethAddsPredictor : Obligations.UnfPaethAddsPredictor := by
  intro o s hw hP
  obtain ⟨hstride, hlength, hempty, hrun⟩ := unfilter_stateful_run (i := .unfPaeth o) rfl rfl hw hP
  refine ⟨Laws.OpcodeRow.unfPaeth o, hstride, hlength, hempty, fun hb hl h0 hA hB => ?_⟩
  obtain ⟨hleft, t, ht, hC⟩ := hrun hb hl h0 ⟨hA, hB⟩
  refine ⟨hleft, t, ht, hC.elsewhere, hC.otherSmp rfl, (hC.out rfl).1, fun k hk => ?_⟩
  obtain ⟨hspaceA, hspaceB, -⟩ := hC.elsewhere
  rw [hC.rowByte_out rfl hk, outElement, BitVec.toNat_add, hspaceA, hspaceB]

/-- Settles O36: every neighbour bpp back lies before the row and is 0, in the sums of the three commands. -/
theorem strideLargerThanRow : Obligations.StrideLargerThanRow := by
  intro o s hw h0 hl hbig hA hB
  have hb : 0 < o.bpp := by omega
  have hback : ∀ (m : List Host.Cell) {k : Nat}, k < o.lenA → rowByte m (k - o.bpp) = 0 :=
    fun m k hk => rowByte_neg m (by omega)
  have hzero : (0 : Byte).toNat = 0 := rfl
  refine ⟨fun hP => ?_, fun hP => ?_, fun hP => ?_⟩
  · obtain ⟨-, -, -, -, hrun⟩ := unfSubAddsByteBppBack o s hw hP
    obtain ⟨-, t, ht, -, -, hprefix, hout⟩ := hrun hb hl h0 hA
    refine ⟨t, ht, hprefix, fun k hk => BitVec.eq_of_toNat_eq ?_⟩
    rw [hout k hk, hback _ hk, hzero, Nat.add_zero, Nat.mod_eq_of_lt (rowByte s.spaceA k).isLt]
  · obtain ⟨-, -, -, -, hrun⟩ := unfAvgAddsFloorAverage o s hw hP
    obtain ⟨-, t, ht, -, -, hprefix, hout⟩ := hrun hb hl h0 hA hB
    exact ⟨t, ht, hprefix, fun k hk => by rw [hout k hk, hback _ hk, hzero, Nat.zero_add]⟩
  · obtain ⟨-, -, -, -, hrun⟩ := unfPaethAddsPredictor o s hw hP
    obtain ⟨-, t, ht, -, -, hprefix, hout⟩ := hrun hb hl h0 hA hB
    exact ⟨t, ht, hprefix, fun k hk => by rw [hout k hk, hback _ hk, hback _ hk, paethPredictor_zero_left]⟩

/-! ## Unfiltering inverts filtering -/

@[simp] theorem rowByte_ofList (xs : List Byte) (k : Int) : rowByte (Memory.ofList xs) k = seqByte xs k := by
  unfold rowByte seqByte
  rw [memory_read_ofList, List.getD_eq_getElem?_getD]

theorem forwardFilter_getElem? {i : Instr} {raw above : List Byte} {k : Nat} (hk : k < raw.length) :
    (forwardFilter i raw above)[k]? = some (seqByte raw k - forwardPredictor i raw above k) := by
  rw [forwardFilter, List.getElem?_map, List.getElem?_range hk]; rfl

theorem supplied_ofList {xs : List Byte} {n : Nat} (h : n ≤ xs.length) : Supplied (Memory.ofList xs) n := by
  intro k hk
  rw [memory_read_ofList, List.getElem?_eq_getElem (by omega)]; rfl

theorem operandsSupplied_unfilter {i : Instr} {s : State} (hc : i.opcField = 1#4)
    (hA : Supplied s.spaceA i.operands.lenA) (hB : Supplied s.spaceB i.operands.lenA) : OperandsSupplied i s := by
  cases i with
  | unfNone | unfSub => exact hA
  | unfUp | unfAvg | unfPaeth => exact ⟨hA, hB⟩
  | _ => simp [Instr.opcField] at hc

/-- Where OUT is the raw row below k and B the above row, the predictor of the engine at k is the forward one
(40_unfilter R124). -/
theorem outElement_eq_forwardPredictor {i : Instr} {t : State} {raw above : List Byte} {k : Nat}
    (hc : i.opcField = 1#4) (hb : i.usesLeft = true → 0 < i.operands.bpp) (hB : t.spaceB = Memory.ofList above)
    (hout : ∀ m < k, Memory.read t.out m = Memory.read (Memory.ofList raw) m) :
    outElement i t k = rowByte t.spaceA k + forwardPredictor i raw above k := by
  have hback : i.usesLeft = true → rowByte t.out (k - i.operands.bpp) = seqByte raw (k - i.operands.bpp) := fun hu => by
    have := hb hu
    rw [rowByte_congr hout (by omega), rowByte_ofList]
  cases i with
  | unfNone o => exact (BitVec.add_zero _).symm
  | unfSub o =>
    simp only [Instr.operands] at hback
    simp only [outElement, forwardPredictor, hback rfl]
  | unfUp o => simp only [outElement, forwardPredictor, hB, rowByte_ofList]
  | unfAvg o =>
    simp only [Instr.operands] at hback
    simp only [outElement, forwardPredictor, hB, rowByte_ofList, hback rfl]
  | unfPaeth o =>
    simp only [Instr.operands] at hback
    simp only [outElement, forwardPredictor, hB, rowByte_ofList, hback rfl]
  | _ => simp [Instr.opcField] at hc

/-- Settles O35: by strong induction along the row, the engine's predictor at k is the one the filter subtracted. -/
theorem unfilterInvertsForwardFilter : Obligations.UnfilterInvertsForwardFilter := by
  intro i o s raw above hi hv hraw habove hP hA hB
  obtain ⟨hc, ho, rfl⟩ : i.opcField = 1#4 ∧ i.writesOut = true ∧ i.operands = o := by
    rcases hi with rfl | rfl | rfl | rfl | rfl <;> exact ⟨rfl, rfl, rfl⟩
  have hs : OperandsSupplied i s := operandsSupplied_unfilter hc
    (by rw [hA]; exact supplied_ofList (by simp [forwardFilter, hraw])) (by rw [hB]; exact supplied_ofList habove.ge)
  obtain ⟨t, ht, hC⟩ := completes_of_supplied hv hP hs
  obtain ⟨hprefix, hvalues⟩ := hC.out ho
  obtain ⟨hspaceA, hspaceB, -⟩ := hC.elsewhere
  have hout : ∀ k < i.operands.lenA, Memory.read t.out k = Memory.read (Memory.ofList raw) k := by
    intro k
    induction k using Nat.strong_induction_on with
    | _ k ih =>
      intro hk
      have hpred := outElement_eq_forwardPredictor (raw := raw) hc (valid_bpp_pos hv) (hspaceB.trans hB)
        fun m hm => ih m hm (hm.trans hk)
      have hrow : rowByte t.spaceA k = seqByte raw k - forwardPredictor i raw above k := by
        rw [hspaceA, hA]
        exact rowByte_of_read (by rw [memory_read_ofList, forwardFilter_getElem? (by omega)])
      have hraw_k : seqByte raw k = raw[k]'(by omega) := by
        rw [← rowByte_ofList]
        exact rowByte_of_read (by rw [memory_read_ofList, List.getElem?_eq_getElem])
      rw [hvalues k hk, hpred, hrow, BitVec.sub_add_cancel, hraw_k, memory_read_ofList, List.getElem?_eq_getElem]
  exact ⟨t, ht, writtenPrefix_ext hprefix (hraw ▸ writtenPrefix_ofList raw) hout⟩

end Sys2Proof.Machine
end

section
/-! SUPPORT. Proofs of the family `41_unpack`: the samples of one byte, the start and the byte step of the UNP commands,
and their whole runs. -/

namespace Sys2Proof.Machine

/-! ## Samples as numbers -/

theorem ofNat_byte_div_mod_toNat (x : Byte) (p q : Nat) :
    (BitVec.ofNat 16 (x.toNat / p % q)).toNat = x.toNat / p % q := by
  have hx := x.isLt
  have hdiv := Nat.div_le_self x.toNat p
  have hmod := Nat.mod_le (x.toNat / p) q
  rw [BitVec.toNat_ofNat, Nat.mod_eq_of_lt (by omega)]

theorem subByteSample_toNat (d : Nat) (v : Byte) (k : Nat) :
    (subByteSample d v k).toNat = v.toNat / 2 ^ (8 - d * (k + 1)) % 2 ^ d := by
  rw [subByteSample_eq, ofNat_byte_div_mod_toNat]

theorem subByteSamples_length (d : Nat) (v : Byte) : (subByteSamples d v).length = 8 / d := by
  rw [subByteSamples, List.length_map, List.length_range]

theorem subByteSamples_map_toNat (d : Nat) (v : Byte) :
    (subByteSamples d v).map BitVec.toNat = (List.range (8 / d)).map fun k => v.toNat / 2 ^ (8 - d * (k + 1)) % 2 ^ d := by
  rw [subByteSamples, List.map_map]
  exact List.map_congr_left fun k _ => subByteSample_toNat d v k

theorem byteSample_toNat (v : Byte) : (byteSample v).toNat = v.toNat := by
  have hv := v.isLt
  rw [byteSample, BitVec.toNat_ofNat, Nat.mod_eq_of_lt (by omega)]

theorem pairSample_toNat (hi lo : Byte) : (pairSample hi lo).toNat = hi.toNat * 256 + lo.toNat := by
  have hhi := hi.isLt
  have hlo := lo.isLt
  rw [pairSample_eq, BitVec.toNat_ofNat, Nat.mod_eq_of_lt (by omega)]

/-- Sample m of byte k in the closed form (41_unpack R157). -/
theorem packedSample_toNat {d n m : Nat} (hn : 8 / d = n) (hm : m < n) (s : State) (k : Nat) :
    (packedSample d s (n * k + m)).toNat = (rowByte s.spaceA k).toNat / 2 ^ (8 - d * (m + 1)) % 2 ^ d := by
  have hbyte : (n * k + m) / n = k := by
    rw [Nat.mul_add_div (by omega), Nat.div_eq_of_lt hm, Nat.add_zero]
  have hindex : (n * k + m) % n = m := by rw [Nat.mul_add_mod, Nat.mod_eq_of_lt hm]
  rw [packedSample, hn, hbyte, hindex, ofNat_byte_div_mod_toNat]

/-! ## The samples of one byte read back -/

/-- The first n samples read back are the top `d * n` bits: one more sample shifts them by d and adds the next d. -/
theorem foldl_subByteSample {d n : Nat} (v : Byte) (hn : d * n ≤ 8) :
    ((List.range n).map (subByteSample d v)).foldl (fun acc x => acc * 2 ^ d + x.toNat) 0 =
      v.toNat / 2 ^ (8 - d * n) := by
  induction n with
  | zero => exact (Nat.div_eq_of_lt v.isLt).symm
  | succ n ih =>
    rw [Nat.mul_succ] at hn
    have htop : v.toNat / 2 ^ (8 - d * n) = v.toNat / 2 ^ (8 - d * (n + 1)) / 2 ^ d := by
      rw [Nat.div_div_eq_div_mul, ← Nat.pow_add, Nat.mul_succ]
      congr 2
      omega
    rw [List.range_succ, List.map_append, List.foldl_append, ih (by omega), htop]
    simp only [List.map_cons, List.map_nil, List.foldl_cons, List.foldl_nil, subByteSample_toNat]
    exact Nat.div_add_mod' _ _

/-- Settles O20: d divides 8, so all 8/d samples read back are the whole byte. -/
theorem unpackedSamplesRestoreByte : Obligations.UnpackedSamplesRestoreByte := by
  intro d v hd
  have hcover : d * (8 / d) = 8 := by rcases hd with rfl | rfl | rfl <;> rfl
  refine ⟨subByteSamples_length d v, fun x hx => ?_, ?_⟩
  · obtain ⟨k, -, rfl⟩ := List.mem_map.1 hx
    rw [subByteSample_toNat]
    exact Nat.mod_lt _ (Nat.two_pow_pos d)
  · rw [subByteSamples, foldl_subByteSample v hcover.le, hcover, Nat.sub_self, pow_zero, Nat.div_one]

/-! ## Start and byte step -/

theorem start_unpack {i : Instr} (ho : i.writesOut = false) (s : State) :
    i.start s = { s with phase := .run, latch := i.latch, idx := 0, smp := [] } := by
  have hu : ¬ i.usesLeft = true := fun hu => by cases (usesLeft_writesOut hu).symm.trans ho
  rw [Instr.start, if_neg hu, if_neg (by simp [ho])]; rfl

theorem exec_idle_unpack {i : Instr} {s : State} (ho : i.writesOut = false) (hp : s.phase = .idle)
    (hc : i.check i.latch = none) :
    exec i s = .next { s with phase := .run, latch := i.latch, idx := 0, smp := [] } := by
  rw [exec_idle_start hp hc, start_unpack ho]

/-- The check of UNP.16 on its operands (41_unpack R151, D18). -/
theorem check_unp16 {o : Operands} (hw : o.WellFormed) :
    (Instr.unp16 o).check (Instr.unp16 o).latch = if o.lenA % 2 = 1 then some .illegalCommand else none := by
  have hA : (Instr.unp16 o).latch.lenA.toNat = o.lenA :=
    congrArg Operands.lenA (Instr.latch_operands (i := .unp16 o) hw)
  rw [Instr.check, validateUnpack16, hA]

theorem check_unp16_even {o : Operands} (hw : o.WellFormed) (he : o.lenA % 2 = 0) :
    (Instr.unp16 o).check (Instr.unp16 o).latch = none := by
  rw [check_unp16 hw, if_neg (by omega)]

/-- Settles O10: only UNP.16 has a check, which an even length passes. -/
theorem unpackCommandsStart : Obligations.UnpackCommandsStart := by
  intro o s hw hp
  exact ⟨exec_idle_unpack rfl hp rfl, exec_idle_unpack rfl hp rfl, exec_idle_unpack rfl hp rfl,
    exec_idle_unpack rfl hp rfl, fun he => exec_idle_unpack rfl hp (check_unp16_even hw he)⟩

section ByteStep

variable {s : State} {v : Byte} (hv : readOperand .a s.idx s = .ok v)
include hv

theorem unpackSubByteStep_next (d : Nat) :
    unpackSubByteStep d s = .next (emitSamples (s.idx * (8 / d)) (subByteSamples d v) 1 s) := by
  rw [unpackSubByteStep, hv, withByte_ok]

theorem unpackByteStep_next : unpackByteStep s = .next (emitSamples s.idx [byteSample v] 1 s) := by
  rw [unpackByteStep, hv, withByte_ok]

theorem unpackPairStep_next {lo : Byte} (hlo : readOperand .a (s.idx + 1) s = .ok lo) :
    unpackPairStep s = .next (emitSamples (s.idx / 2) [pairSample v lo] 2 s) := by
  rw [unpackPairStep, hv, withByte_ok, hlo, withByte_ok]

end ByteStep

/-- Settles O13, depth by depth: the reads answer the elements that are present, and the samples are the bits of the byte
from the top, the first of them bounded by the byte alone. (`unpackByteStep` is the model's step at depth 8.) -/
theorem unpackCommandsByteStep : Obligations.UnpackByteStep := by
  intro o s v lo hv
  have hlt := v.isLt
  have readA : ∀ {i : Instr}, AtByteStep i s → exec i s = i.byteStep s ∧ readOperand .a s.idx s = .ok v :=
    fun ⟨hp, hl, hi⟩ => ⟨exec_run_step hp hl hi, readOperand_ok.2 ⟨hi, hv⟩⟩
  refine ⟨fun h => ?_, fun h => ?_, fun h => ?_, fun h => ?_, fun h hi hlo => ?_⟩
  · obtain ⟨he, hr⟩ := readA h
    have htop : v.toNat / 128 % 2 = v.toNat / 128 := by omega
    exact ⟨subByteSamples 1 v, by simp [subByteSamples_map_toNat, List.range_succ, htop],
      he.trans (unpackSubByteStep_next hr 1)⟩
  · obtain ⟨he, hr⟩ := readA h
    have htop : v.toNat / 64 % 4 = v.toNat / 64 := by omega
    exact ⟨subByteSamples 2 v, by simp [subByteSamples_map_toNat, List.range_succ, htop],
      he.trans (unpackSubByteStep_next hr 2)⟩
  · obtain ⟨he, hr⟩ := readA h
    have htop : v.toNat / 16 % 16 = v.toNat / 16 := by omega
    exact ⟨subByteSamples 4 v, by simp [subByteSamples_map_toNat, List.range_succ, htop],
      he.trans (unpackSubByteStep_next hr 4)⟩
  · obtain ⟨he, hr⟩ := readA h
    exact ⟨byteSample v, byteSample_toNat v, he.trans (unpackByteStep_next hr)⟩
  · obtain ⟨he, hr⟩ := readA h
    exact ⟨pairSample v lo, pairSample_toNat v lo, he.trans (unpackPairStep_next hr (readOperand_ok.2 ⟨hi, hlo⟩))⟩

/-! ## Whole runs -/

/-- W0 of an encoded command, under the mask of the opcode map, is the match value of its row (30_encoding R95). -/
theorem encode_w0_and_rowMask {i : Instr} {m : Word} (hrow : Laws.OpcodeRow.Statement i)
    (hm : Laws.rowMatch i = m.toNat) : (encode i).w0 &&& 0x0000FFFF#32 = m := by
  have hlt := rowMatch_lt i
  apply BitVec.eq_of_toNat_eq
  rw [and_rowMask_toNat, hrow]
  omega

section Runs

variable {i : Instr} {s : State} (ho : i.writesOut = false) (hv : i.Valid) (hP : Presented i s)
  (hs : OperandsSupplied i s)
include ho hv hP hs

/-- A supplied UNP command completes, and SMP holds the closed form over the operand A it was given. -/
theorem unpack_completes :
    ∃ t, Completes i s t ∧ SameElsewhere s t ∧ t.out = s.out ∧ WrittenPrefix t.smp (i.resultCount i.operands.lenA) ∧
      ∀ k < i.resultCount i.operands.lenA, Memory.read t.smp k = some (sampleElement i s k) := by
  obtain ⟨t, ht, hC⟩ := completes_of_supplied hv hP hs
  obtain ⟨hprefix, hvalues⟩ := hC.smp ho
  obtain ⟨hspaceA, -⟩ := hC.elsewhere
  exact ⟨t, ht, hC.elsewhere, hC.otherOut ho, hprefix, fun k hk => by
    rw [hvalues k hk, sampleElement_congr i hspaceA]⟩

/-- At depth d, where each byte gives n samples, sample m of byte k is the m-th group of d bits from the top
(41_unpack R157, R158). -/
theorem unpack_packed_completes {d n : Nat} (hn : 8 / d = n) (hcount : ∀ k, i.resultCount k = k * n)
    (hel : ∀ k, sampleElement i s k = packedSample d s k) :
    ∃ t, Completes i s t ∧ SameElsewhere s t ∧ t.out = s.out ∧ WrittenPrefix t.smp (n * i.operands.lenA) ∧
      ∀ k < i.operands.lenA, ∀ m < n, ∃ x : Sample, Memory.read t.smp (n * k + m) = some x ∧
        x.toNat = (rowByte s.spaceA k).toNat / 2 ^ (8 - d * (m + 1)) % 2 ^ d := by
  obtain ⟨t, ht, helsewhere, hout, hprefix, hvalues⟩ := unpack_completes ho hv hP hs
  rw [hcount, Nat.mul_comm] at hprefix hvalues
  refine ⟨t, ht, helsewhere, hout, hprefix, fun k hk m hm => ⟨packedSample d s (n * k + m), ?_,
    packedSample_toNat hn hm s k⟩⟩
  have hlt : n * k + m < n * i.operands.lenA := by
    calc n * k + m < n * (k + 1) := by rw [Nat.mul_succ]; omega
      _ ≤ n * i.operands.lenA := Nat.mul_le_mul_left n hk
  rw [hvalues _ hlt, hel]

end Runs

/-- Settles O26: the groups are single bits. -/
theorem unp1ListsBits : Obligations.Unp1ListsBits := by
  intro o s hw hP hA
  obtain ⟨t, ht, helsewhere, hout, hprefix, hvalues⟩ := unpack_packed_completes (i := .unp1 o) (d := 1) (n := 8) rfl
    (valid_iff.2 ⟨hw, rfl⟩) hP hA rfl (fun _ => rfl) (fun _ => rfl)
  refine ⟨encode_w0_and_rowMask (Laws.OpcodeRow.unp1 o) rfl, t, ht, helsewhere, hout, hprefix, fun k hk m hm => ?_⟩
  rw [show 7 - m = 8 - 1 * (m + 1) by omega]
  exact hvalues k hk m hm

/-- Settles O27: the groups are pairs of bits. -/
theorem unp2ListsPairs : Obligations.Unp2ListsPairs := by
  intro o s hw hP hA
  obtain ⟨t, ht, helsewhere, hout, hprefix, hvalues⟩ := unpack_packed_completes (i := .unp2 o) (d := 2) (n := 4) rfl
    (valid_iff.2 ⟨hw, rfl⟩) hP hA rfl (fun _ => rfl) (fun _ => rfl)
  refine ⟨encode_w0_and_rowMask (Laws.OpcodeRow.unp2 o) rfl, t, ht, helsewhere, hout, hprefix, fun k hk => ?_⟩
  have hlt := (rowByte s.spaceA k).isLt
  obtain ⟨x0, h0, e0⟩ := hvalues k hk 0 (by omega)
  obtain ⟨x1, h1, e1⟩ := hvalues k hk 1 (by omega)
  obtain ⟨x2, h2, e2⟩ := hvalues k hk 2 (by omega)
  obtain ⟨x3, h3, e3⟩ := hvalues k hk 3 (by omega)
  exact ⟨x0, x1, x2, x3, h0, h1, h2, h3, by omega, e1, e2, by omega⟩

/-- Settles O28: the groups are nibbles. -/
theorem unp4ListsNibbles : Obligations.Unp4ListsNibbles := by
  intro o s hw hP hA
  obtain ⟨t, ht, helsewhere, hout, hprefix, hvalues⟩ := unpack_packed_completes (i := .unp4 o) (d := 4) (n := 2) rfl
    (valid_iff.2 ⟨hw, rfl⟩) hP hA rfl (fun _ => rfl) (fun _ => rfl)
  refine ⟨encode_w0_and_rowMask (Laws.OpcodeRow.unp4 o) rfl, t, ht, helsewhere, hout, hprefix, fun k hk => ?_⟩
  have hlt := (rowByte s.spaceA k).isLt
  obtain ⟨x0, h0, e0⟩ := hvalues k hk 0 (by omega)
  obtain ⟨x1, h1, e1⟩ := hvalues k hk 1 (by omega)
  exact ⟨x0, x1, h0, h1, by omega, by omega⟩

/-- Settles O29: the one group of a byte is the byte. -/
theorem unp8CopiesBytes : Obligations.Unp8CopiesBytes := by
  intro o s hw hP hA
  obtain ⟨t, ht, helsewhere, hout, hprefix, hvalues⟩ := unpack_packed_completes (i := .unp8 o) (d := 8) (n := 1) rfl
    (valid_iff.2 ⟨hw, rfl⟩) hP hA rfl (fun k => (Nat.mul_one k).symm) (fun _ => rfl)
  simp only [Nat.one_mul] at hprefix hvalues
  refine ⟨encode_w0_and_rowMask (Laws.OpcodeRow.unp8 o) rfl, t, ht, helsewhere, hout, hprefix, fun k hk => ?_⟩
  have hlt := (rowByte s.spaceA k).isLt
  obtain ⟨x, hx, e⟩ := hvalues k hk 0 (by omega)
  exact ⟨x, hx, by omega⟩

/-- Settles O30: an odd length fails the check, an even one completes with the pairs of the closed form. -/
theorem unp16JoinsBytesBigEndian : Obligations.Unp16JoinsBytesBigEndian := by
  intro o s hw hP
  refine ⟨encode_w0_and_rowMask (Laws.OpcodeRow.unp16 o) rfl, fun hodd => ?_, fun he hA => ?_⟩
  · exact failsWith_of_check (i := .unp16 o) hw hP (by rw [check_unp16 hw, if_pos hodd])
  · obtain ⟨t, ht, helsewhere, hout, hprefix, hvalues⟩ := unpack_completes (i := .unp16 o) rfl
      (valid_iff.2 ⟨hw, check_unp16_even hw he⟩) hP hA
    refine ⟨t, ht, helsewhere, hout, hprefix, fun k hk => ⟨_, hvalues k hk, ?_⟩⟩
    have hhi := (rowByte s.spaceA ((2 * k : Nat) : Int)).isLt
    have hlo := (rowByte s.spaceA ((2 * k + 1 : Nat) : Int)).isLt
    rw [sampleElement, BitVec.toNat_ofNat, Nat.mod_eq_of_lt (by omega)]

end Sys2Proof.Machine
end

section
/-! SUPPORT. Proofs of the family `42_helpers`: the start and the byte step of the helpers, their whole runs, the sum
over a stride group, and the filters written with helpers. -/

namespace Sys2Proof.Machine

/-! ## Start -/

theorem helper_writesOut {i : Instr} (hc : i.opcField = 3#4) : i.writesOut = true := by
  cases i with
  | addb | subb | avgb | paethb => rfl
  | _ => simp [Instr.opcField] at hc

theorem helper_usesLeft {i : Instr} (hc : i.opcField = 3#4) : i.usesLeft = false := by
  cases i with
  | addb | subb | avgb | paethb => rfl
  | _ => simp [Instr.opcField] at hc

/-- The checks of a command of class HLP, on its operands: only PAETHB (SEL 3) has operand C (42_helpers R171, D19). -/
theorem check_helper {i : Instr} (hc : i.opcField = 3#4) (hw : i.WellFormed) :
    i.check i.latch =
      if i.operands.lenB ≠ i.operands.lenA then some .lengthMismatch
      else if i.selField = 3#8 ∧ i.operands.lenC ≠ i.operands.lenA then some .lengthMismatch
      else none := by
  have hop := Instr.latch_operands hw
  have hA : i.latch.lenA.toNat = i.operands.lenA := congrArg Operands.lenA hop
  have hB : i.latch.lenB.toNat = i.operands.lenB := congrArg Operands.lenB hop
  have hC : i.latch.lenC.toNat = i.operands.lenC := congrArg Operands.lenC hop
  rw [← hA, ← hB, ← hC]
  simp only [ne_eq, BitVec.toNat_inj]
  cases i with
  | addb | subb | avgb => simp [Instr.check, validateHelper, Instr.selField]
  | paethb => simp [Instr.check, validateHelper3, Instr.selField]
  | _ => simp [Instr.opcField] at hc

section Checked

variable {i : Instr} {s : State} (hc : i.opcField = 3#4) (hw : i.WellFormed)
include hc hw

theorem check_helper_none (hB : i.operands.lenB = i.operands.lenA)
    (hC : i.selField = 3#8 → i.operands.lenC = i.operands.lenA) : i.check i.latch = none := by
  rw [check_helper hc hw, if_neg (by simpa using hB), if_neg]
  rintro ⟨hsel, hne⟩
  exact hne (hC hsel)

theorem exec_idle_helper (hp : s.phase = .idle) (hB : i.operands.lenB = i.operands.lenA)
    (hC : i.selField = 3#8 → i.operands.lenC = i.operands.lenA) :
    exec i s = .next { s with phase := .run, latch := i.latch, idx := 0, out := [], outReady := none } := by
  rw [exec_idle_start hp (check_helper_none hc hw hB hC), start_stateless (helper_usesLeft hc) (helper_writesOut hc)]

theorem helper_failsWith_lenB (hP : Presented i s) (hB : i.operands.lenB ≠ i.operands.lenA) :
    FailsWith s .lengthMismatch :=
  failsWith_of_check hw hP (by rw [check_helper hc hw, if_pos hB])

theorem helper_failsWith_lenC (hP : Presented i s) (hB : i.operands.lenB = i.operands.lenA) (hsel : i.selField = 3#8)
    (hC : i.operands.lenC ≠ i.operands.lenA) : FailsWith s .lengthMismatch :=
  failsWith_of_check hw hP (by rw [check_helper hc hw, if_neg (by simpa using hB), if_pos ⟨hsel, hC⟩])

end Checked

/-- Settles O11: the length checks pass, and the start is that of a command without predictor state. -/
theorem helperCommandsStart : Obligations.HelperCommandsStart := by
  intro o s hw hp hB
  exact ⟨exec_idle_helper (i := .addb o) rfl hw hp hB (by simp [Instr.selField]),
    exec_idle_helper (i := .subb o) rfl hw hp hB (by simp [Instr.selField]),
    exec_idle_helper (i := .avgb o) rfl hw hp hB (by simp [Instr.selField]),
    fun hC => exec_idle_helper (i := .paethb o) rfl hw hp hB fun _ => hC⟩

/-! ## Byte step -/

theorem byte_sub_toInt (x y : Byte) : ((x - y).toNat : Int) = ((x.toNat : Int) - (y.toNat : Int)) % 256 := by
  have hx := x.isLt
  have hy := y.isLt
  rw [BitVec.toNat_sub]
  omega

theorem subByte_toInt (x y : Byte) : ((subByte x y).toNat : Int) = ((x.toNat : Int) - (y.toNat : Int)) % 256 := by
  rw [subByte_eq, byte_sub_toInt]

section ByteStep

variable {s : State} {a b c : Byte} (ha : readOperand .a s.idx s = .ok a) (hb : readOperand .b s.idx s = .ok b)
include ha hb

theorem helperStep_next (f : Byte → Byte → Byte) : helperStep f s = .next (emitByte (f a b) s) := by
  rw [helperStep, ha, withByte_ok, hb, withByte_ok]

theorem helperPaethStep_next (hc : readOperand .c s.idx s = .ok c) :
    helperPaethStep s = .next (emitByte (paethPredictor a b c) s) := by
  rw [helperPaethStep, ha, withByte_ok, hb, withByte_ok, hc, withByte_ok]

end ByteStep

/-- Settles O14, helper by helper: the reads answer the elements that are present. -/
theorem helperByteStep : Obligations.HelperByteStep := by
  intro o s a b c ha hb hB
  have reads : ∀ {i : Instr}, AtByteStep i s →
      exec i s = i.byteStep s ∧ readOperand .a s.idx s = .ok a ∧ readOperand .b s.idx s = .ok b :=
    fun ⟨hp, hl, hi⟩ => ⟨exec_run_step hp hl hi, readOperand_ok.2 ⟨hi, ha⟩,
      readOperand_ok.2 ⟨by rw [operandLength, hB]; exact hi, hb⟩⟩
  refine ⟨fun h => ?_, fun h => ?_, fun h => ?_, fun h hC hc => ?_⟩
  · obtain ⟨he, hra, hrb⟩ := reads h
    exact ⟨addByte a b, addByte_toNat a b, he.trans (helperStep_next hra hrb addByte)⟩
  · obtain ⟨he, hra, hrb⟩ := reads h
    exact ⟨subByte a b, subByte_toInt a b, he.trans (helperStep_next hra hrb subByte)⟩
  · obtain ⟨he, hra, hrb⟩ := reads h
    exact ⟨avgByte a b, avgByte_toNat a b, he.trans (helperStep_next hra hrb avgByte)⟩
  · obtain ⟨he, hra, hrb⟩ := reads h
    obtain ⟨-, -, hi⟩ := h
    have hrc : readOperand .c s.idx s = .ok c := readOperand_ok.2 ⟨by rw [operandLength, hC]; exact hi, hc⟩
    exact he.trans (helperPaethStep_next hra hrb hrc)

/-! ## Whole runs -/

/-- The lane of a helper is a function of the operand spaces. -/
theorem outElement_helper_congr {i : Instr} {s t : State} (hc : i.opcField = 3#4) (h : SameElsewhere s t) (k : Nat) :
    outElement i t k = outElement i s k := by
  obtain ⟨hA, hB, hC, -⟩ := h
  cases i with
  | addb | subb | avgb => simp only [outElement, hA, hB]
  | paethb => simp only [outElement, hA, hB, hC]
  | _ => simp [Instr.opcField] at hc

/-- A supplied helper whose lengths agree completes, and OUT holds its lanes over the operands it was given. -/
theorem helper_completes {i : Instr} {s : State} (hc : i.opcField = 3#4) (hw : i.WellFormed) (hP : Presented i s)
    (hB : i.operands.lenB = i.operands.lenA) (hC : i.selField = 3#8 → i.operands.lenC = i.operands.lenA)
    (hs : OperandsSupplied i s) :
    ∃ t, Completes i s t ∧ SameElsewhere s t ∧ t.smp = s.smp ∧ t.left = s.left ∧
      WrittenPrefix t.out i.operands.lenA ∧ ∀ k < i.operands.lenA, rowByte t.out k = outElement i s k := by
  obtain ⟨t, ht, hend⟩ := completes_of_supplied (valid_iff.2 ⟨hw, check_helper_none hc hw hB hC⟩) hP hs
  have ho := helper_writesOut hc
  exact ⟨t, ht, hend.elsewhere, hend.otherSmp ho, hend.left (helper_usesLeft hc), (hend.out ho).1, fun k hk => by
    rw [hend.rowByte_out ho hk, outElement_helper_congr hc hend.elsewhere]⟩

/-- Settles O31: the lane is the sum of bytes. -/
theorem addbAddsLanes : Obligations.AddbAddsLanes := by
  intro o s hw hP
  refine ⟨encode_w0_and_rowMask (Laws.OpcodeRow.addb o) rfl, helper_failsWith_lenB (i := .addb o) rfl hw hP,
    fun hB hA hBs => ?_⟩
  obtain ⟨t, ht, helsewhere, hsmp, hleft, hprefix, hout⟩ :=
    helper_completes (i := .addb o) rfl hw hP hB (by simp [Instr.selField]) ⟨hA, hBs⟩
  exact ⟨t, ht, helsewhere, hsmp, hleft, hprefix, fun k hk => by rw [hout k hk, outElement, BitVec.toNat_add]⟩

/-- Settles O32: the lane is the difference of bytes. -/
theorem subbSubtractsLanes : Obligations.SubbSubtractsLanes := by
  intro o s hw hP
  refine ⟨encode_w0_and_rowMask (Laws.OpcodeRow.subb o) rfl, helper_failsWith_lenB (i := .subb o) rfl hw hP,
    fun hB hA hBs => ?_⟩
  obtain ⟨t, ht, helsewhere, hsmp, hleft, hprefix, hout⟩ :=
    helper_completes (i := .subb o) rfl hw hP hB (by simp [Instr.selField]) ⟨hA, hBs⟩
  exact ⟨t, ht, helsewhere, hsmp, hleft, hprefix, fun k hk => by rw [hout k hk, outElement, byte_sub_toInt]⟩

/-- Settles O33: the lane is the floor average, which fits a byte. -/
theorem avgbAveragesLanes : Obligations.AvgbAveragesLanes := by
  intro o s hw hP
  refine ⟨encode_w0_and_rowMask (Laws.OpcodeRow.avgb o) rfl, helper_failsWith_lenB (i := .avgb o) rfl hw hP,
    fun hB hA hBs => ?_⟩
  obtain ⟨t, ht, helsewhere, hsmp, hleft, hprefix, hout⟩ :=
    helper_completes (i := .avgb o) rfl hw hP hB (by simp [Instr.selField]) ⟨hA, hBs⟩
  exact ⟨t, ht, helsewhere, hsmp, hleft, hprefix, fun k hk => by rw [hout k hk, outElement, ← avgByte, avgByte_toNat]⟩

/-- Settles O34: two length checks, and the lane is the Paeth choice. -/
theorem paethbSelectsLanes : Obligations.PaethbSelectsLanes := by
  intro o s hw hP
  refine ⟨encode_w0_and_rowMask (Laws.OpcodeRow.paethb o) rfl, helper_failsWith_lenB (i := .paethb o) rfl hw hP,
    fun hB => helper_failsWith_lenC (i := .paethb o) rfl hw hP hB rfl, fun hB hC hA hBs hCs => ?_⟩
  exact helper_completes (i := .paethb o) rfl hw hP hB (fun _ => hC) ⟨hA, hBs, hCs⟩

/-! ## The sum over a stride group -/

/-- Settles O37: by induction along the group, each element adds its byte of A to the sum one stride back. -/
theorem subIsChainedSumPerStrideGroup : Obligations.SubIsChainedSumPerStrideGroup := by
  intro o s t g m hw ht hg
  have hC := completed_of_completes (i := .unfSub o) hw ht
  have hb : 0 < o.bpp := valid_bpp_pos hC.valid rfl
  obtain ⟨hspaceA, -⟩ := hC.elsewhere
  have hstep : ∀ k < o.lenA, (rowByte t.out k).toNat =
      ((rowByte s.spaceA k).toNat + (rowByte t.out (k - o.bpp)).toNat) % 256 := fun k hk => by
    rw [hC.rowByte_out rfl hk, outElement, BitVec.toNat_add, hspaceA]
  induction m with
  | zero =>
    intro hk
    rw [hstep _ hk, rowByte_neg t.out (by omega), Nat.zero_add, List.range_one, List.map_singleton, List.sum_singleton]
    rfl
  | succ m ih =>
    intro hk
    have hmul : (m + 1) * o.bpp.toNat = m * o.bpp.toNat + o.bpp.toNat := Nat.succ_mul m _
    have hback : ((g + (m + 1) * o.bpp.toNat : Nat) : Int) - o.bpp = ((g + m * o.bpp.toNat : Nat) : Int) := by omega
    rw [hstep _ hk, hback, ih (by omega), List.range_succ (n := m + 1), List.map_append,
      List.sum_append, List.map_singleton, List.sum_singleton, Nat.add_mod_mod, Nat.add_comm]

/-! ## The filters written with helpers -/

theorem length_of_writtenPrefix_ofList {w n : Nat} {xs : List (BitVec w)} (h : WrittenPrefix (Memory.ofList xs) n) :
    xs.length = n := by
  have hrange : List.range xs.length = List.range n := (writtenPrefix_ofList xs).symm.trans h
  simpa using congrArg List.length hrange

/-- The shifted row lists at k what the row lists one stride back, 0 before its start (00_scope R10). -/
theorem rowByte_shiftRow {xs : List Byte} {bpp : Int} {k : Nat} (hb : 0 ≤ bpp) (hk : k < xs.length) :
    rowByte (Memory.ofList (shiftRow bpp.toNat xs)) k = rowByte (Memory.ofList xs) (k - bpp) := by
  rw [rowByte_ofNat, memory_read_ofList, shiftRow, List.getElem?_take_of_lt hk]
  by_cases hlt : k < bpp.toNat
  · rw [rowByte_neg _ (by omega), List.getElem?_append_left (by simpa using hlt), List.getElem?_replicate_of_lt hlt]
    rfl
  · have hback : (k : Int) - bpp = ((k - bpp.toNat : Nat) : Int) := by omega
    rw [hback, rowByte_ofNat, memory_read_ofList, List.getElem?_append_right (by simpa using hlt), List.length_replicate]

/-- ADDB of the row A of a command and of the bytes the command adds to it gives the OUT of the command. -/
theorem addb_out_eq {i : Instr} {q : Operands} {s t s' t' : State} (hC : Completed i s t)
    (hadd : Completed (.addb q) s' t') (ho : i.writesOut = true) (hq : q.lenA = i.operands.lenA)
    (hA : s'.spaceA = s.spaceA)
    (hel : ∀ k < i.operands.lenA, outElement i t k = rowByte t.spaceA k + rowByte s'.spaceB k) : t'.out = t.out := by
  obtain ⟨hprefix, hvalues⟩ := hC.out ho
  obtain ⟨hprefix', hvalues'⟩ := hadd.out rfl
  obtain ⟨hspaceA, -⟩ := hC.elsewhere
  obtain ⟨hspaceA', hspaceB', -⟩ := hadd.elsewhere
  simp only [Instr.operands, hq] at hprefix' hvalues'
  refine writtenPrefix_ext hprefix' hprefix fun k hk => ?_
  rw [hvalues' k hk, hvalues k hk, hel k hk, outElement, hspaceA', hspaceB', hA, hspaceA]

/-- After a completed run the shifted result lists at k the byte of OUT one stride back, the engine's left
neighbour (40_unfilter R114). -/
theorem Completed.rowByte_shiftRow_out {i : Instr} {s t : State} {res : List Byte} (hC : Completed i s t)
    (hu : i.usesLeft = true) (hres : t.out = Memory.ofList res) {k : Nat} (hk : k < i.operands.lenA) :
    rowByte (Memory.ofList (shiftRow i.operands.bpp.toNat res)) k = rowByte t.out (k - i.operands.bpp) := by
  obtain ⟨hprefix, -⟩ := hC.out (usesLeft_writesOut hu)
  rw [hres] at hprefix ⊢
  exact rowByte_shiftRow (valid_bpp_pos hC.valid hu).le (by rwa [length_of_writtenPrefix_ofList hprefix])

/-- Settles O38: the byte UNF.UP adds is that of the above row, the byte UNF.SUB adds that of the shifted result. -/
theorem upAndSubAreHelperAdds : Obligations.UpAndSubAreHelperAdds := by
  intro o o' s t s' t' res hw hw' hlen hres hadd hA
  have hadd := completed_of_completes (i := .addb o') hw' hadd
  refine ⟨fun ht hB => ?_, fun ht hB => ?_⟩
  · have hC := completed_of_completes (i := .unfUp o) hw ht
    obtain ⟨-, hspaceB, -⟩ := hC.elsewhere
    exact addb_out_eq hC hadd rfl hlen hA fun k _ => by rw [outElement, hspaceB, hB]
  · have hC := completed_of_completes (i := .unfSub o) hw ht
    refine addb_out_eq hC hadd rfl hlen hA fun k hk => ?_
    have hshift : rowByte (Memory.ofList (shiftRow o.bpp.toNat res)) k = rowByte t.out (k - o.bpp) :=
      hC.rowByte_shiftRow_out rfl hres hk
    rw [outElement, hB, hshift]

/-- Settles O39: the predictor of the engine is the lane of the helper over the shifted result, the above row and the
shifted above row. -/
theorem avgAndPaethAreHelperCompositions : Obligations.AvgAndPaethAreHelperCompositions := by
  intro o p q s t u v s' t' res above hw hwp hwq hp hq hres hspaceB habove huA huB huC hadd hA hB
  have hadd := completed_of_completes (i := .addb q) hwq hadd
  refine ⟨fun ht hv => ?_, fun ht hv => ?_⟩
  · have hC := completed_of_completes (i := .unfAvg o) hw ht
    have hH := completed_of_completes (i := .avgb p) hwp hv
    obtain ⟨-, htB, -⟩ := hC.elsewhere
    obtain ⟨hvA, hvB, -⟩ := hH.elsewhere
    refine addb_out_eq hC hadd rfl hq hA fun k hk => ?_
    have hshift : rowByte (Memory.ofList (shiftRow o.bpp.toNat res)) k = rowByte t.out (k - o.bpp) :=
      hC.rowByte_shiftRow_out rfl hres hk
    rw [hB, hH.rowByte_out rfl (hk.trans_eq hp.symm), outElement, outElement, hvA, huA, hshift, hvB, huB, htB]
  · have hC := completed_of_completes (i := .unfPaeth o) hw ht
    have hH := completed_of_completes (i := .paethb p) hwp hv
    obtain ⟨-, htB, -⟩ := hC.elsewhere
    obtain ⟨hvA, hvB, hvC, -⟩ := hH.elsewhere
    refine addb_out_eq hC hadd rfl hq hA fun k hk => ?_
    have hshift : rowByte (Memory.ofList (shiftRow o.bpp.toNat res)) k = rowByte t.out (k - o.bpp) :=
      hC.rowByte_shiftRow_out rfl hres hk
    have hupper : rowByte (Memory.ofList (shiftRow o.bpp.toNat above)) k = rowByte (Memory.ofList above) (k - o.bpp) :=
      rowByte_shiftRow (valid_bpp_pos hC.valid rfl).le (hk.trans_eq habove.symm)
    rw [hB, hH.rowByte_out rfl (hk.trans_eq hp.symm), outElement, outElement, hvA, huA, hshift, hvB, huB, htB, hvC, huC,
      hupper, hspaceB]

end Sys2Proof.Machine
end

section
/-! SUPPORT. Proofs of the family `60_exceptions`: an error response is exactly the first failing check of the
descriptor (60_exceptions R196, R197, R199), and no operand value stops a running command (R211). -/

namespace Sys2Proof.Machine

/-! ## Acceptance ends in the first failing check -/

/-- Whether a presented descriptor fails, and with which kind, is read from the descriptor alone: the rest of the
state has no part in it. -/
theorem failsWith_iff_firstError {s : State} {d : Descriptor} {k : ErrorKind} (hq : Quiet s) (hp : s.phase = .idle)
    (hc : s.commands.head? = some d) : FailsWith s k ↔ d.firstError = some k := by
  obtain ⟨rest, hrest⟩ := List.head?_eq_some_iff.1 hc
  rcases step_idle_cases hq hp hrest with ⟨k', hk', hs⟩ | ⟨i, -, hk', hs⟩
  · have hfail : FailsWith s k' := by rw [FailsWith, hs, hrest]; rfl
    refine ⟨fun h => ?_, fun h => ?_⟩
    · have hresp := congrArg State.responses (Host.Outcome.next.inj (hfail.symm.trans h))
      rw [hk', statusWord_error_inj (List.cons.inj (List.append_cancel_left hresp)).1]
    · rwa [← Option.some.inj (hk'.symm.trans h)]
  · refine ⟨fun h => ?_, fun h => ?_⟩
    · have hphase := congrArg State.phase (Host.Outcome.next.inj (hs.symm.trans h))
      rw [start_phase, hp] at hphase
      cases hphase
    · rw [hk'] at h
      cases h

/-- Settles O6: the error by the first failing check, the start by the other outcome of acceptance. -/
theorem acceptanceFollowsErrorPriority : Obligations.AcceptanceFollowsErrorPriority := by
  intro s d hq hp hc
  refine ⟨fun k => (failsWith_iff_firstError hq hp hc).2, fun hnone => ?_⟩
  obtain ⟨rest, hrest⟩ := List.head?_eq_some_iff.1 hc
  rcases step_idle_cases hq hp hrest with ⟨k, hk, -⟩ | ⟨i, hd, -, hs⟩
  · rw [hnone] at hk
    cases hk
  · obtain ⟨-, hl⟩ := decode_ok hd
    obtain ⟨hlatch, -⟩ := decodeLatch_ok hl
    exact ⟨i, _, hd, hs, start_phase .., (start_latch ..).trans hlatch, start_idx .., start_responses ..,
      by simp [SameElsewhere, hrest]⟩

/-- Settles O7: both idle states present one descriptor, and its first failing check decides. -/
theorem sameDescriptorSameError : Obligations.SameDescriptorSameError := by
  intro s s' k hq hq' hp hp' hne hhead h
  obtain ⟨d, hd⟩ := Option.isSome_iff_exists.1 (List.isSome_head?.2 hne)
  have hfirst := (failsWith_iff_firstError hq hp hd).1 h
  exact (failsWith_iff_firstError hq' hp' (hhead.trans hd)).2 hfirst

/-! ## A running command goes on -/

/-- Settles O45: below LEN_A the byte step reads only what is supplied and sends nothing; at LEN_A the command completes
with OK. -/
theorem runningCoreNeverStops : Obligations.RunningCoreNeverStops := by
  intro i s hR hq hp hs
  rw [step_running hR hq hp]
  rcases hR.bounded.lt_or_eq with hlt | heq
  · obtain ⟨t, ht⟩ := byteStep_supplied hR hlt hs
    obtain ⟨hframe, -⟩ := byteStep_frame ht
    exact ⟨t, (exec_run_step hp hR.latch_eq hlt).trans ht, .inl hframe.responses⟩
  · exact ⟨i.finish s, exec_run_finish hp hR.latch_eq heq, .inr (by rw [finish_eq])⟩

end Sys2Proof.Machine
end

section
/-! SUPPORT. Proofs of the family `70_reset_and_hazards`: a running command completes after exactly the byte steps it has
left (R240, R241), presented commands wait in order while one runs (R237), and reset abandons a command (R230, R232). -/

namespace Sys2Proof.Machine

/-! ## Progress of a running command -/

/-- A running command whose operands are supplied takes the byte steps it has left, to some `u` at `i = LEN_A`, and
completes there. -/
theorem Running.run_to_finish {i : Instr} {s : State} (hR : Running i s) (hq : Quiet s) (hp : s.phase = .run)
    (hs : OperandsSupplied i s) :
    ∃ u, StepFrame i s u ∧ run ((s.latch.lenA.toNat - s.idx) / i.indexStep + 1) s = .next (i.finish u) := by
  have hleft := stepsLeft hR
  obtain ⟨u, hu⟩ := run_byteSteps_next _ hR hq hp hleft.le hs
  obtain ⟨hRu, hidx, hframe⟩ := run_byteSteps _ hR hq hp hleft.le hu
  have hend : u.idx = u.latch.lenA.toNat := by rw [hidx, hleft, hframe.latch]
  have hpu : u.phase = .run := hframe.phase.trans hp
  have hfinish : step u = .next (i.finish u) := by
    rw [step_running hRu ⟨hframe.script.trans hq.1, hframe.rst.trans hq.2⟩ hpu, exec_run_finish hpu hRu.latch_eq hend]
  exact ⟨u, hframe, by rw [run_add _ 1 _ u hu, run_succ_next hfinish]; rfl⟩

/-- Settles O46: the byte steps send nothing, the completion after them sends the OK. -/
theorem runningCommandSendsItsResponse : Obligations.RunningCommandSendsItsResponse := by
  intro i s hR hq hp hs
  obtain ⟨u, hframe, hrun⟩ := hR.run_to_finish hq hp hs
  refine ⟨i.finish u, hrun, ?_, ?_⟩
  · rw [finish_eq]
  · rw [finish_eq, hframe.responses]

/-! ## Presented commands wait -/

/-- The core takes a descriptor from the command channel in IDLE only. -/
theorem coreStep_run_commands {s t : State} (hp : s.phase = .run) (h : coreStep s = .next t) :
    t.commands = s.commands := by
  have hidle : s.phase ≠ .idle := by rw [hp]; decide
  rcases coreStep_next_cases h with ⟨-, rfl⟩ | ⟨-, hi, -⟩ | ⟨d, rest, k, -, hi, -⟩ | ⟨d, rest, i, -, hi, -⟩ |
    ⟨i, -, -, -, he⟩
  · rfl
  · exact absurd hi hidle
  · exact absurd hi hidle
  · exact absurd hi hidle
  · exact (exec_frame he).commands

/-- Settles O52: the HOST's move, the running core's, and a command held behind another one. -/
theorem presentedCommandsWaitInOrder : Obligations.PresentedCommandsWaitInOrder := by
  refine ⟨fun s d rest h => ?_, fun s t hs hp h => ?_, fun i s => exec_run_held⟩
  · rw [step_hostAct h]; rfl
  · exact coreStep_run_commands hp (step_quiet hs ▸ h)

/-! ## Reset -/

/-- Reset keeps the record of a result exactly where the HOST has taken its OK (log 14). -/
theorem assertReset_outReady_eq_some {s : State} {n : Nat} :
    (assertReset s).outReady = some n ↔ s.outReady = some n ∧ n ≤ s.received.length := by
  rw [assertReset_outReady]
  split_ifs with htaken
  · obtain ⟨m, hm, hle⟩ := resultTaken_iff.1 htaken
    refine ⟨fun hn => ⟨hn, ?_⟩, And.left⟩
    rwa [Option.some.inj (hn.symm.trans hm)]
  · exact ⟨fun hn => (by cases hn), fun hn => absurd (resultTaken_iff.2 ⟨n, hn⟩) htaken⟩

/-- Settles O59: the HOST asserts reset, the core waits while it is asserted, the HOST releases it. -/
theorem resetAbandonsCommand : Obligations.ResetAbandonsCommand := by
  refine ⟨fun s rest h => ?_, fun s hs hr => ?_, fun s rest h => ?_⟩
  · exact ⟨assertReset { s with script := rest }, step_hostAct h, rfl, rfl, rfl, rfl, rfl, rfl, rfl, rfl, rfl, rfl, rfl,
      fun n => assertReset_outReady_eq_some⟩
  · rw [step_quiet hs, coreStep_reset hr]
  · rw [step_hostAct h]; rfl

end Sys2Proof.Machine
end
